-- ==== Sys2Proof/Word.lean ====
section
/-! DEFINITION. The word types of CFHD-WEC: registers are 32 bits wide (R25), elements of CM and DM 16 bits (R62, R63),
BS holds bytes (R64). -/

namespace Sys2Proof

/-- A control register or a command word (R25, R90). -/
abbrev Word := BitVec 32

/-- One element of `CM` or `DM`, one descriptor extent, one `LUT` entry (R23, R39, R62, R63). -/
abbrev Half := BitVec 16

/-- One byte of `BS` (R64). -/
abbrev Byte := BitVec 8

/-- The number of one of the eight band descriptors `d0` .. `d7`; all eight values are legal (R22, R91). -/
abbrev DescNum := Fin 8

end Sys2Proof
end

