-- ==== Sys2Proof/Syntax.lean ====
section
/-! DEFINITION. The fifteen commands (R93), one constructor per row of the opcode table, and the entries of the decode
tables that `VLD` parses with (R37, R97). -/

namespace Sys2Proof

/-- A command (R93). Operands stand in field order `rd`, `ra`, `rb` (R91, R99). A descriptor number is a `Fin 8`, so
every term is well formed: there is no operand value for a check to refuse. -/
inductive Instr where
  /-- `NOP`, opcode 0x00, form N (R196). -/
  | nop
  /-- `DEQ`, opcode 0x01, form N (R123). -/
  | deq
  /-- `QNT`, opcode 0x02, form N (R125). -/
  | qnt
  /-- `LUTB`, opcode 0x03, form N (R127). -/
  | lutb
  /-- `LUTR`, opcode 0x04, form N (R128). -/
  | lutr
  /-- `QNTB rd`, opcode 0x05, form D (R126). -/
  | qntb (rd : DescNum)
  /-- `LPLD rd`, opcode 0x10, form D (R142). -/
  | lpld (rd : DescNum)
  /-- `VLD rd`, opcode 0x11, form D (R146). -/
  | vld (rd : DescNum)
  /-- `VSYN rd, ra, rb`, opcode 0x20, form T: low `ra`, high `rb`, destination `rd` (R164). -/
  | vsyn (rd ra rb : DescNum)
  /-- `HSYN rd, ra, rb`, opcode 0x21, form T (R165). -/
  | hsyn (rd ra rb : DescNum)
  /-- `HSYNC rd, ra, rb`, opcode 0x22, form T: destination `rd` in `DM` (R167). -/
  | hsync (rd ra rb : DescNum)
  /-- `SHL2 rd`, opcode 0x23, form D (R168). -/
  | shl2 (rd : DescNum)
  /-- `VANA rd, ra, rb`, opcode 0x28, form T: source `ra`, low `rd`, high `rb` (R183). -/
  | vana (rd ra rb : DescNum)
  /-- `HANA rd, ra, rb`, opcode 0x29, form T (R184). -/
  | hana (rd ra rb : DescNum)
  /-- `DIV4 rd`, opcode 0x2A, form D (R186). -/
  | div4 (rd : DescNum)
deriving DecidableEq, Repr

/-- Why a command word is no command (R92, R96). -/
inductive Illegal where
  /-- `opc` is in no row of R93. -/
  | unassignedOpcode
  /-- Form N with `w[23:0]` not 0. -/
  | nonzeroN
  /-- Form D with `w[20:0]` not 0. -/
  | nonzeroD
  /-- Form T with `w[14:0]` not 0. -/
  | nonzeroT
deriving DecidableEq, Repr

/-- One entry of a decode table (R37): a codeword of `len` bits with pattern `bits`, standing for `run` coefficients of
symbol `level`, or for the escape symbol, whose `level` and `run` are ignored. -/
structure CodeEntry where
  len   : Nat
  bits  : Nat
  level : Int
  run   : Nat
  esc   : Bool
deriving DecidableEq, Repr

end Sys2Proof
end

