-- ==== Sys2Proof/WellFormed.lean ====
section
/-! DEFINITION. What is checked before anything runs: a command word against the match and mask columns of R93, and a
decode table against the constraints of R37. A command itself (`Instr`) needs no check: its operands are `Fin 8`. -/

namespace Sys2Proof

/-- A row of the table of R93: a word `w` selects the row when `w & mask = pattern`. -/
structure OpRow where
  mnemonic : String
  mask     : Word
  pattern  : Word
deriving DecidableEq, Repr

/-- The table of R93 (the same rows as spec/opcode_table.json). -/
def opcodeRows : List OpRow :=
  [ ⟨"NOP",   0xFFFFFFFF, 0x00000000⟩,
    ⟨"DEQ",   0xFFFFFFFF, 0x01000000⟩,
    ⟨"QNT",   0xFFFFFFFF, 0x02000000⟩,
    ⟨"LUTB",  0xFFFFFFFF, 0x03000000⟩,
    ⟨"LUTR",  0xFFFFFFFF, 0x04000000⟩,
    ⟨"QNTB",  0xFF1FFFFF, 0x05000000⟩,
    ⟨"LPLD",  0xFF1FFFFF, 0x10000000⟩,
    ⟨"VLD",   0xFF1FFFFF, 0x11000000⟩,
    ⟨"VSYN",  0xFF007FFF, 0x20000000⟩,
    ⟨"HSYN",  0xFF007FFF, 0x21000000⟩,
    ⟨"HSYNC", 0xFF007FFF, 0x22000000⟩,
    ⟨"SHL2",  0xFF1FFFFF, 0x23000000⟩,
    ⟨"VANA",  0xFF007FFF, 0x28000000⟩,
    ⟨"HANA",  0xFF007FFF, 0x29000000⟩,
    ⟨"DIV4",  0xFF1FFFFF, 0x2A000000⟩ ]

/-- The mnemonic of a command, as the table spells it. -/
def Instr.mnemonic : Instr → String
  | .nop => "NOP"
  | .deq => "DEQ"
  | .qnt => "QNT"
  | .lutb => "LUTB"
  | .lutr => "LUTR"
  | .qntb _ => "QNTB"
  | .lpld _ => "LPLD"
  | .vld _ => "VLD"
  | .vsyn _ _ _ => "VSYN"
  | .hsyn _ _ _ => "HSYN"
  | .hsync _ _ _ => "HSYNC"
  | .shl2 _ => "SHL2"
  | .vana _ _ _ => "VANA"
  | .hana _ _ _ => "HANA"
  | .div4 _ => "DIV4"

/-- A word is a command word when it selects a row of R93. -/
def commandWordOk (w : Word) : Bool :=
  opcodeRows.any fun r => w &&& r.mask == r.pattern

/-- Constraint 1 of R37: the length is in range and the pattern fits it. -/
def entryBitsOk (maxLen : Nat) (e : CodeEntry) : Bool :=
  decide (1 ≤ e.len) && decide (e.len ≤ maxLen) && decide (e.bits < 2 ^ e.len)

/-- The first `a.len` bits of the pattern of `b` are the pattern of `a`. -/
def startsWith (a b : CodeEntry) : Bool :=
  decide (a.len ≤ b.len) && b.bits / 2 ^ (b.len - a.len) == a.bits

/-- Constraint 2 of R37: no pattern begins another entry's pattern. -/
def prefixFree (cb : List CodeEntry) : Bool :=
  decide (cb.Pairwise fun a b => (startsWith a b || startsWith b a) = false)

/-- Constraint 3 of R37: the sum of `2^(-len)` over the entries is 1, scaled by `2^maxLen`. -/
def kraftComplete (maxLen : Nat) (cb : List CodeEntry) : Bool :=
  (cb.map fun e => 2 ^ (maxLen - e.len)).sum == 2 ^ maxLen

/-- Constraint 4 of R37: there is an escape entry. -/
def hasEscape (cb : List CodeEntry) : Bool :=
  cb.any fun e => e.esc

/-- Constraint 5 of R37: an entry that is no escape has `run ≥ 1` and `-255 ≤ level ≤ 255`. -/
def entryPairOk (e : CodeEntry) : Bool :=
  e.esc || (decide (1 ≤ e.run) && decide (-255 ≤ e.level) && decide (e.level ≤ 255))

/-- The five constraints of R37 on a decode table whose longest codeword has at most `maxLen` bits. -/
def codebookOk (maxLen : Nat) (cb : List CodeEntry) : Bool :=
  cb.all (entryBitsOk maxLen) && prefixFree cb && kraftComplete maxLen cb && hasEscape cb && cb.all entryPairOk

end Sys2Proof
end

