-- ==== Sys2Proof/Decode.lean ====
section
/-! DEFINITION. The command decoder of R92, total on 32-bit words and rejecting by name, and the encoder of R99. -/

namespace Sys2Proof

/-- `opc = w[31:24]` (R91). -/
def opcOf (w : Word) : Nat := (w.extractLsb' 24 8).toNat
/-- `rd = w[23:21]` (R91). -/
def rdOf (w : Word) : DescNum := (w.extractLsb' 21 3).toFin
/-- `ra = w[20:18]` (R91). -/
def raOf (w : Word) : DescNum := (w.extractLsb' 18 3).toFin
/-- `rb = w[17:15]` (R91). -/
def rbOf (w : Word) : DescNum := (w.extractLsb' 15 3).toFin

/-- Form N requires `w[23:0] = 0` (R91). -/
def formN (w : Word) (i : Instr) : Except Illegal Instr :=
  if w.extractLsb' 0 24 = 0 then .ok i else .error .nonzeroN

/-- Form D uses `rd` and requires `w[20:0] = 0` (R91). -/
def formD (w : Word) (i : DescNum → Instr) : Except Illegal Instr :=
  if w.extractLsb' 0 21 = 0 then .ok (i (rdOf w)) else .error .nonzeroD

/-- Form T uses `rd`, `ra`, `rb` and requires `w[14:0] = 0` (R91). -/
def formT (w : Word) (i : DescNum → DescNum → DescNum → Instr) : Except Illegal Instr :=
  if w.extractLsb' 0 15 = 0 then .ok (i (rdOf w) (raOf w) (rbOf w)) else .error .nonzeroT

/-- The decoder of R92 over the opcode map of R93; every other word is illegal (R96). -/
def decode (w : Word) : Except Illegal Instr :=
  match opcOf w with
  | 0x00 => formN w .nop
  | 0x01 => formN w .deq
  | 0x02 => formN w .qnt
  | 0x03 => formN w .lutb
  | 0x04 => formN w .lutr
  | 0x05 => formD w .qntb
  | 0x10 => formD w .lpld
  | 0x11 => formD w .vld
  | 0x20 => formT w .vsyn
  | 0x21 => formT w .hsyn
  | 0x22 => formT w .hsync
  | 0x23 => formD w .shl2
  | 0x28 => formT w .vana
  | 0x29 => formT w .hana
  | 0x2A => formD w .div4
  | _ => .error .unassignedOpcode

/-- `opc·2^24 + rd·2^21 + ra·2^18 + rb·2^15` (R99). -/
def commandWord (opc : Nat) (rd ra rb : DescNum) : Word :=
  BitVec.ofNat 32 (opc * 2 ^ 24 + rd.val * 2 ^ 21 + ra.val * 2 ^ 18 + rb.val * 2 ^ 15)

/-- The word of a command, unused fields 0 (R99). -/
def encode : Instr → Word
  | .nop => commandWord 0x00 0 0 0
  | .deq => commandWord 0x01 0 0 0
  | .qnt => commandWord 0x02 0 0 0
  | .lutb => commandWord 0x03 0 0 0
  | .lutr => commandWord 0x04 0 0 0
  | .qntb rd => commandWord 0x05 rd 0 0
  | .lpld rd => commandWord 0x10 rd 0 0
  | .vld rd => commandWord 0x11 rd 0 0
  | .vsyn rd ra rb => commandWord 0x20 rd ra rb
  | .hsyn rd ra rb => commandWord 0x21 rd ra rb
  | .hsync rd ra rb => commandWord 0x22 rd ra rb
  | .shl2 rd => commandWord 0x23 rd 0 0
  | .vana rd ra rb => commandWord 0x28 rd ra rb
  | .hana rd ra rb => commandWord 0x29 rd ra rb
  | .div4 rd => commandWord 0x2A rd 0 0

/-- The command read from the low `nbits` bits of `w`, bit 0 the least significant. A command is one 32-bit word with no
byte order of its own (R90, R68), so the bits are the word written to `CMD`. -/
def decodeTableWord (nbits w : Nat) : Option Instr :=
  (decode (BitVec.ofNat 32 (w % 2 ^ nbits))).toOption

end Sys2Proof
end

