-- ==== Sys2Proof/Config.lean ====
section
/-! DEFINITION. The parameters of R8 as one plain record, the values the machine right after reset has for them, and
the free values: opaque constants without a body, so that nothing proved here rests on a number. -/

namespace Sys2Proof.Config

/-- The rounding of `DIV4` (R8, R186): the three candidates the spec names, and `free` for any other total function
with `DIV4(4k) = k` and `|DIV4(x)| ≤ |x|/4 + 1`. -/
inductive Div4Rule where
  /-- `x >> 2`. -/
  | floor
  /-- `trunc(x / 4)`. -/
  | trunc
  /-- `(x + 2) >> 2`. -/
  | nearest
  /-- Any admissible function: the free value `Config.div4Free` within the bound of R186. -/
  | free
deriving DecidableEq, Repr

/-- `CAP_RULE` (R8, R145, conflict C3): the capacity of a highpass band. Assumption 2. -/
inductive CapRule where
  /-- `HEIGHT × STRIDE`, the value R8 gives. -/
  | heightStride
  /-- `WIDTH × STRIDE`, the alternative on record. -/
  | widthStride
deriving DecidableEq, Repr

/-- `QCLIP` (R8, R124, decision D24): the range of `clip_int_range(·, bits=10)`. Assumption 3. -/
inductive QClip where
  /-- `[-512, 511]`, the value R8 gives. -/
  | tenBit
  /-- `[-1024, 1023]`, the alternative on record. -/
  | elevenBit
deriving DecidableEq, Repr

/-- `QCLIP.lo`. -/
def QClip.lo : QClip → Int
  | .tenBit => -512
  | .elevenBit => -1024

/-- `QCLIP.hi`. -/
def QClip.hi : QClip → Int
  | .tenBit => 511
  | .elevenBit => 1023

/-- The parameters that a model takes as an argument (R8, U11), but for the host's `SHIFT_POLICY`: a machine of this
family is built with one such record and never changes it (R14). Assumption 1. -/
structure Params where
  /-- `CM_WORDS`: size of the coefficient memory in 16-bit words. -/
  cmWords   : Nat
  /-- `DM_WORDS`: size of the image memory in 16-bit words. -/
  dmWords   : Nat
  /-- `BS_BYTES`: size of the bitstream buffer in bytes. -/
  bsBytes   : Nat
  /-- `CODEBOOK[0]`. -/
  codebook0 : List CodeEntry
  /-- `CODEBOOK[1]`. -/
  codebook1 : List CodeEntry
  /-- `CB_MAXLEN`: longest codeword in bits. -/
  cbMaxLen  : Nat
  /-- The rounding of `DIV4`. -/
  div4      : Div4Rule
  /-- `CAP_RULE`. -/
  capRule   : CapRule
  /-- `QCLIP`. -/
  qclip     : QClip
deriving DecidableEq, Repr

/-- The ranges R8 gives for the sizes. -/
def sizesOk (p : Params) : Bool :=
  decide (1 ≤ p.cmWords) && decide (p.cmWords ≤ 2 ^ 32) && decide (1 ≤ p.dmWords) && decide (p.dmWords ≤ 2 ^ 32) &&
    decide (1 ≤ p.bsBytes) && decide (p.bsBytes ≤ 2 ^ 32 - 4)

/-- The range R8 gives for `CB_MAXLEN`, and R37 for both decode tables. -/
def codebooksOk (p : Params) : Bool :=
  decide (1 ≤ p.cbMaxLen) && decide (p.cbMaxLen ≤ 32) && codebookOk p.cbMaxLen p.codebook0 &&
    codebookOk p.cbMaxLen p.codebook1

/-- A parameter record that R8 and R37 admit. -/
def Params.wf (p : Params) : Bool := sizesOk p && codebooksOk p

/-! The open parameters of the machine at reset. Each is an opaque constant brought into the range the spec gives, so
every admissible value is possible and none is assumed. Assumption 1, DESIGN CHOICE. -/

/-- Free: any number. -/
opaque cmWordsFree : Nat
/-- Free: any number. -/
opaque dmWordsFree : Nat
/-- Free: any number. -/
opaque bsBytesFree : Nat
/-- Free: any number. -/
opaque cbMaxLenFree : Nat
/-- Free: any list of entries. -/
opaque codebook0Free : List CodeEntry
/-- Free: any list of entries. -/
opaque codebook1Free : List CodeEntry

/-- `1 ≤ CM_WORDS ≤ 2^32` (R8). -/
def cmWords : Nat := 1 + cmWordsFree % 2 ^ 32
/-- `1 ≤ DM_WORDS ≤ 2^32` (R8). -/
def dmWords : Nat := 1 + dmWordsFree % 2 ^ 32
/-- `1 ≤ BS_BYTES ≤ 2^32 - 4` (R8). -/
def bsBytes : Nat := 1 + bsBytesFree % (2 ^ 32 - 4)
/-- `1 ≤ CB_MAXLEN ≤ 32` (R8). -/
def cbMaxLen : Nat := 1 + cbMaxLenFree % 32

/-- The least decode table R37 admits. It stands in only where the opaque list is no decode table. -/
def leastCodebook : List CodeEntry := [⟨1, 0, 0, 1, false⟩, ⟨1, 1, 0, 0, true⟩]

/-- An opaque list that R37 admits is taken as it is. -/
def admitted (cb : List CodeEntry) : List CodeEntry :=
  bif codebookOk cbMaxLen cb then cb else leastCodebook

/-- The parameters of the machine at reset: nothing but R8 and R37 is known of the OPEN ones, and `CAP_RULE` and `QCLIP`
have the values R8 gives. -/
def params : Params :=
  { cmWords := cmWords, dmWords := dmWords, bsBytes := bsBytes, codebook0 := admitted codebook0Free,
    codebook1 := admitted codebook1Free, cbMaxLen := cbMaxLen, div4 := .free,
    capRule := .heightStride, qclip := .tenBit }

/-! Free values. -/

/-- What a word of `CM` that nothing has written holds, by address (R43, U9). Assumption 5. -/
opaque cmPowerUp : Nat → Half
/-- What a word of `DM` that nothing has written holds, by address (R43, U9). Assumption 5. -/
opaque dmPowerUp : Nat → Half
/-- What a byte of `BS` that nothing has written holds, by address (R43, U9). Assumption 5. -/
opaque bsPowerUp : Nat → Byte
/-- What an entry of the `LUT` that no `LUTB` has written holds, by index (R39, R43). Assumption 6. -/
opaque lutPowerUp : Nat → Half
/-- What a register read other than `STATUS` answers while `BUSY = 1`, for each number drawn (R75, U8). Assumption 11. -/
opaque busyRead : Nat → Word
/-- Whether word `a` of `CM` had been written when a hard reset ended a command, for each number drawn (R261, U10).
Assumption 13. -/
opaque cmWasWritten : Nat → Nat → Bool
/-- The same for word `a` of `DM`. -/
opaque dmWasWritten : Nat → Nat → Bool
/-- The quotient `DIV4` of a number that is no multiple of 4, before R186's bound (N12). Assumption 4. -/
opaque div4Free : Int → Int

end Sys2Proof.Config
end

