-- ==== Sys2Proof/Machine/State.lean ====
section
/-! DEFINITION. The state of the block as plain data (R20), the host's actions that the step reads, the reasons a step
can stop, and the machine right after reset (R43). -/

namespace Sys2Proof.Machine

/-- A memory of `n`-bit units: the units something has written, by address, addresses strictly rising. A unit that is
not listed has no value: nothing has written it (R43, U9). Assumptions 5 and 7. -/
abbrev Memory (n : Nat) := List (Nat × BitVec n)

/-- `BS` is a memory of bytes: a list of the host's cells. -/
abbrev ByteMemory := List Host.Cell

/-- The canonical form: addresses strictly rising. (An unlisted address reads as no value, so no entry can equal it.) -/
abbrev Memory.wf {n : Nat} (m : Memory n) : Prop := (m.map Prod.fst).Pairwise (· < ·)

/-- A band descriptor: the six fields of R23 at the widths kept. -/
structure Desc where
  base    : Word
  width   : Half
  height  : Half
  stride  : Half
  awidth  : Half
  aheight : Half
deriving DecidableEq, Repr

/-- A descriptor with every field 0 (R43). -/
def Desc.zero : Desc := { base := 0, width := 0, height := 0, stride := 0, awidth := 0, aheight := 0 }

/-- What the host can do in one of its moves (R75), oldest first in `State.input`. Assumption 8. -/
inductive HostEvent where
  /-- The directive `WAIT` (R100): the host reads `STATUS` until `BUSY = 0`. It is over when the last of these reads has
  been answered. -/
  | wait
  /-- A write of `bytes` bytes of the value `v` to register offset `off` (R25, R73). -/
  | regWrite (bytes off : Nat) (v : Word)
  /-- A read of `bytes` bytes at register offset `off` (R25, R73). -/
  | regRead (bytes off : Nat)
  /-- Write word `a` of `CM` (R75). -/
  | cmWrite (a : Nat) (v : Half)
  /-- Read word `a` of `CM`. -/
  | cmRead (a : Nat)
  /-- Write word `a` of `DM`. -/
  | dmWrite (a : Nat) (v : Half)
  /-- Read word `a` of `DM`. -/
  | dmRead (a : Nat)
  /-- Write byte `a` of `BS`. -/
  | bsWrite (a : Nat) (v : Byte)
  /-- Read byte `a` of `BS`. -/
  | bsRead (a : Nat)
  /-- Assert and release the reset input `rst` (R260, R261). -/
  | hardReset
deriving DecidableEq, Repr

/-- The whole state (R20). Widths are those the registers keep; reserved bits hold nothing and read 0 (R44). -/
structure State where
  /-- The parameters of R8: configuration, written by nothing (R14). Assumption 1. -/
  cfg      : Config.Params
  /-- `CTRL.IE_DONE` (R26). -/
  ieDone   : Bool
  /-- `CTRL.IE_ERR` (R26). -/
  ieErr    : Bool
  /-- `STATUS.BUSY` and the accepted command word: `some w` while command `w` runs (R27, R30). Assumption 10. -/
  running  : Option Word
  /-- `STATUS.DONE` (R27). -/
  done     : Bool
  /-- `STATUS.ERR` (R27). -/
  err      : Bool
  /-- `STATUS.OVF` (R27). -/
  ovf      : Bool
  /-- `STATUS.LUTV` (R27). -/
  lutv     : Bool
  /-- `ERRCODE[7:0]` (R28). -/
  errcode  : BitVec 8
  /-- `ERRINFO` (R29). -/
  errinfo  : Word
  /-- `QUANT` (R31). -/
  quant    : Word
  /-- `CBSEL[0]` (R32). -/
  cbsel    : BitVec 1
  /-- `BPC[4:0]` (R33). -/
  bpc      : BitVec 5
  /-- `BSLEN` (R34). -/
  bslen    : Word
  /-- `BSPOS` (R35). -/
  bspos    : Word
  /-- `ARG` (R36). -/
  arg      : Word
  /-- `RES` (R36). -/
  res      : Word
  /-- `COUNT` (R38). -/
  count    : Word
  /-- The band descriptors `d[0]` .. `d[7]` (R22). -/
  d        : Vector Desc 8
  /-- `LUT[0..1023]` (R39). -/
  lut      : Memory 16
  /-- `CM`, by word address (R41, R62). -/
  cm       : Memory 16
  /-- `DM`, by word address (R41, R63). -/
  dm       : Memory 16
  /-- `BS`, by byte address (R41, R64). -/
  bs       : ByteMemory
  /-- The model's own: what the host does next, oldest first. Assumption 8. -/
  input    : List HostEvent
  /-- The model's own: what the last read gave the host. Assumption 15. -/
  hostData : Word
  /-- The model's own: how many unspecified values have been drawn. Assumptions 11, 13, 16. -/
  free     : Nat
deriving DecidableEq, Repr

/-- Why the machine stops with a fault. No command ends in one: a command's error is a next state (R236). -/
inductive Fault where
  /-- Raised by a host access (`cmRead`, `cmWrite`, `dmRead`, `dmWrite`, `bsRead`, `bsWrite`) to an address at or beyond
  the size of that memory, which does not exist (R41). Safe: the machine stops. Assumption 14. -/
  | noSuchAddress
deriving DecidableEq, Repr

/-- Why the machine refuses a step. No command ends in one. -/
inductive Refusal where
  /-- An instruction without a meaning. No arm of `exec` answers it. Safe. -/
  | notModelled (mnemonic : String)
  /-- Raised by a host access to `CM`, `DM` or `BS` while `BUSY = 1`: the spec gives it no meaning and a model no move
  (R75, R273, H1). Unsafe if a real host does it. Assumption 12. -/
  | hostMemoryWhileBusy
deriving DecidableEq, Repr

/-- The three outcomes of a step of this machine. -/
abbrev Result := Host.Outcome State Fault Refusal

/-- The machine right after reset at power-up (R43, R260): registers and descriptors 0, no command running, the memories
and the `LUT` as nothing has written them. -/
def State.reset : State :=
  { cfg := Config.params
    ieDone := false, ieErr := false
    running := none, done := false, err := false, ovf := false, lutv := false
    errcode := 0, errinfo := 0
    quant := 0, cbsel := 0, bpc := 0, bslen := 0, bspos := 0, arg := 0, res := 0, count := 0
    d := Vector.replicate 8 Desc.zero
    lut := [], cm := [], dm := [], bs := []
    input := [], hostData := 0, free := 0 }

end Sys2Proof.Machine
end

