-- ==== Sys2Proof/Machine/Arith.lean ====
section
/-! DEFINITION. Arithmetic on unbounded integers (R9, R10, R290): the primitives, the quantizer and compander functions
(R121, R124, R40), the inverse table (R127), the lifting kernels (R161, R162, R181), the divide by 4 (R186). -/

namespace Sys2Proof.Machine

/-! The primitives of R10. -/

/-- `x >> k = floor(x / 2^k)`, negative `x` included. -/
def asr (x : Int) (k : Nat) : Int := x / 2 ^ k

/-- `trunc(a / b)`: the quotient rounded toward zero. -/
def truncDiv (a b : Int) : Int := a.tdiv b

/-- `clamp(x, lo, hi)`. -/
def clamp (x lo hi : Int) : Int := if x < lo then lo else if hi < x then hi else x

/-- `fits16(x)`. -/
def fits16 (x : Int) : Bool := decide (-32768 ≤ x) && decide (x ≤ 32767)

/-- `fits32(x)`. -/
def fits32 (x : Int) : Bool := decide (-2147483648 ≤ x) && decide (x ≤ 2147483647)

/-- The 16-bit pattern of `wrap16(x)`. -/
def wrap16 (x : Int) : Half := BitVec.ofInt 16 x

/-- The 32-bit pattern of `wrap32(x)`. -/
def wrap32 (x : Int) : Word := BitVec.ofInt 32 x

/-- `align4(p)`: the least multiple of 4 that is at least `p`. -/
def align4 (p : Nat) : Nat := (p + 3) - (p + 3) % 4

/-- `ceil8(b)`: bytes needed for `b` bits. -/
def ceil8 (b : Nat) : Nat := (b + 7) / 8

/-! The compander (R40, R121) and the quantizer (R124). -/

/-- `s + floor(768·s³ / 255³)`, the magnitude factor of R121; `COMPAND[s]` of R40 for `s ≤ 255`. -/
def compand (s : Nat) : Nat := s + 768 * s ^ 3 / 16581375

/-- `DEQ(level, quant)` of R121, the source's `dequantAndCompand`. -/
def deq (level : Int) (quant : Nat) : Int := level.sign * quant * compand level.natAbs

/-- `QNT(coeff, quant)` of R124, for `quant ≥ 1` and the clip range `QCLIP`; `round` truncates. -/
def qntValue (qclip : Config.QClip) (coeff : Int) (quant : Nat) : Int :=
  clamp (truncDiv (coeff * (32768 / quant : Nat) + 16384 * coeff.sign) 32768) qclip.lo qclip.hi

/-! The inverse table of R127, as its pseudocode builds it. -/

/-- All zero, then `LUT[COMPAND[s]] <- s` for `s` from 0 to 255. -/
def lutScatter : List Nat :=
  (List.range 256).foldl (fun l s => l.set (compand s) s) (List.replicate 1024 0)

/-- Gaps filled by propagating the previous valid symbol forward. -/
def lutFill (last : Nat) : List Nat → List Nat
  | [] => []
  | v :: vs => if v ≠ 0 then v :: lutFill v vs else last :: lutFill last vs

/-- The 1024 entries after a successful `LUTB`. -/
def lutTable : List Nat := lutFill 0 lutScatter

/-- The contents of the `LUT` after a successful `LUTB`. -/
def lutMemory : Memory 16 := lutTable.zipIdx.map fun p => (p.2, BitVec.ofNat 16 p.1)

/-! The lifting kernels. A line is given by its elements: `L i` is element `i` of a line of length `n`. -/

/-- The first predictor `P(L, i)` of R161. -/
def predict (n : Nat) (L : Nat → Int) (i : Nat) : Int :=
  if i = 0 then asr (11 * L 0 - 4 * L 1 + L 2 + 4) 3
  else if i = n - 1 then asr (5 * L (n - 1) + 4 * L (n - 2) - L (n - 3) + 4) 3
  else L i + asr (L (i - 1) - L (i + 1) + 4) 3

/-- The second predictor `P'(L, i)` of R161: the first one on the line read backwards. -/
def predictMirror (n : Nat) (L : Nat → Int) (i : Nat) : Int :=
  if i = 0 then asr (5 * L 0 + 4 * L 1 - L 2 + 4) 3
  else if i = n - 1 then asr (11 * L (n - 1) - 4 * L (n - 2) + L (n - 3) + 4) 3
  else L i + asr (L (i + 1) - L (i - 1) + 4) 3

/-- Element `j` of `SYN(L, H)` (R162): the even outputs are `(P + H) >> 1`, the odd ones `(P' - H) >> 1`. -/
def syn (n : Nat) (L H : Nat → Int) (j : Nat) : Int :=
  if j % 2 = 0 then asr (predict n L (j / 2) + H (j / 2)) 1
  else asr (predictMirror n L (j / 2) - H (j / 2)) 1

/-- Element `i` of the low line of `ANA(x)` (R181). -/
def anaLow (x : Nat → Int) (i : Nat) : Int := x (2 * i) + x (2 * i + 1)

/-- Element `i` of the high line of `ANA(x)` for a line of `2n` elements (R181). -/
def anaHigh (n : Nat) (x : Nat → Int) (i : Nat) : Int :=
  x (2 * i) - x (2 * i + 1) + predictMirror n (anaLow x) i - anaLow x i

/-- `clip_uint_range(x, bits)` (R166). -/
def clipUint (x : Int) (bits : Nat) : Int := clamp x 0 (2 ^ bits - 1)

/-- `DIV4(x)` of R186: exact on multiples of 4, otherwise as the parameter rounds, within `|x|/4 + 1`. Assumption 4. -/
def div4Value (r : Config.Div4Rule) (x : Int) : Int :=
  if x % 4 = 0 then x / 4
  else match r with
    | .floor => asr x 2
    | .trunc => truncDiv x 4
    | .nearest => asr (x + 2) 2
    | .free => clamp (Config.div4Free x) (-((x.natAbs / 4 + 1 : Nat) : Int)) ((x.natAbs / 4 + 1 : Nat) : Int)

end Sys2Proof.Machine
end

