-- ==== Sys2Proof/Machine/Operands.lean ====
section
/-! DEFINITION. Operand forms: descriptors and their validity (R22 to R24), rectangular and linear addresses (R66, R67),
the words of the memories (R11), the big-endian and bit-serial reads of `BS` (R64, R65). -/

namespace Sys2Proof.Machine

/-- The value something has written at address `a`, if anything has. -/
def memGet? {n : Nat} : Memory n → Nat → Option (BitVec n)
  | [], _ => none
  | (b, v) :: m, a => if a = b then some v else memGet? m a

/-- Write `v` at address `a`, addresses kept in rising order. -/
def memSet {n : Nat} : Memory n → Nat → BitVec n → Memory n
  | [], a, v => [(a, v)]
  | (b, x) :: m, a, v =>
    if a < b then (a, v) :: (b, x) :: m
    else if a = b then (a, v) :: m
    else (b, x) :: memSet m a v

/-- Write the wrapped value of each pair (address, value) of a list, in its order. -/
def memPut (m : Memory 16) (l : List (Nat × Int)) : Memory 16 :=
  l.foldl (fun m p => memSet m p.1 (wrap16 p.2)) m

/-- `CM[a]` as a bit pattern; a word nothing has written holds a free value (R43, U9). -/
def cmWord (s : State) (a : Nat) : Half := (memGet? s.cm a).getD (Config.cmPowerUp a)

/-- `CM[a]`, signed (R11, R62, R295). -/
def cmInt (s : State) (a : Nat) : Int := (cmWord s a).toInt

/-- `DM[a]`, unsigned (R11, R63). -/
def dmWord (s : State) (a : Nat) : Half := (memGet? s.dm a).getD (Config.dmPowerUp a)

/-- `BS[p]` (R11, R64). -/
def bsByte (s : State) (p : Nat) : Byte := (memGet? s.bs p).getD (Config.bsPowerUp p)

/-- `LUT[i]` (R11, R39). -/
def lutEntry (s : State) (i : Nat) : Half := (memGet? s.lut i).getD (Config.lutPowerUp i)

/-- `sext_16(BS[p]·256 + BS[p+1])`, high byte first (R64, R98), as a 16-bit pattern. -/
def bsHalf (s : State) (p : Nat) : Half := bsByte s p ++ bsByte s (p + 1)

/-- `bit(p0, b)`: bit `b` of a chunk that starts at byte `p0`, most significant first (R65). -/
def bsBit (s : State) (p0 b : Nat) : Nat := ((bsByte s (p0 + b / 8)).toNat >>> (7 - b % 8)) % 2

/-- The number of elements in a row of the declared extent. -/
def widthOf (k : Desc) : Nat := k.width.toNat
/-- The number of rows of the declared extent. -/
def heightOf (k : Desc) : Nat := k.height.toNat
/-- The row pitch in elements. -/
def strideOf (k : Desc) : Nat := k.stride.toNat
/-- The allocated width. -/
def awidthOf (k : Desc) : Nat := k.awidth.toNat
/-- The allocated height. -/
def aheightOf (k : Desc) : Nat := k.aheight.toNat

/-- `elem(k, r, c) = BASE + r·STRIDE + c`, an exact integer (R66, R296). -/
def elemAddr (k : Desc) (r c : Nat) : Nat := k.base.toNat + r * strideOf k + c

/-- Coefficient position `n` of a band is the word `BASE + n` (R67). -/
def linearAddr (k : Desc) (n : Nat) : Nat := k.base.toNat + n

/-- `dims_ok(k)` (R24). -/
def dimsOk (k : Desc) : Bool :=
  decide (2 ≤ widthOf k) && decide (widthOf k ≤ awidthOf k) && decide (awidthOf k ≤ strideOf k) &&
    decide (2 ≤ heightOf k) && decide (heightOf k ≤ aheightOf k)

/-- The end of `footprint(k)`: the first word beyond it (R24). -/
def footprintEnd (k : Desc) : Nat := k.base.toNat + aheightOf k * strideOf k

/-- `range_ok(k, M)` for a memory of `size` words, without wrap-round (R24, R296). -/
def rangeOk (k : Desc) (size : Nat) : Bool := decide (footprintEnd k ≤ size)

/-- The footprints of two descriptors have a word in common (R24, R79). -/
def footprintsMeet (j k : Desc) : Bool :=
  decide (max j.base.toNat k.base.toNat < min (footprintEnd j) (footprintEnd k))

/-- The capacity of a highpass band, by `CAP_RULE` (R8, R145). `HEIGHT × STRIDE` positions lie in the footprint; of
`WIDTH × STRIDE` positions only those count that exist in `CM`, which no access ever leaves (R78). Assumption 2. -/
def capacity (s : State) (k : Desc) : Nat :=
  match s.cfg.capRule with
  | .heightStride => heightOf k * strideOf k
  | .widthStride => min (widthOf k * strideOf k) (s.cfg.cmWords - k.base.toNat)

/-- Column `c` of a band of `CM`, as a line (R164). -/
def cmColumn (s : State) (k : Desc) (c : Nat) : Nat → Int := fun i => cmInt s (elemAddr k i c)

/-- Row `r` of a band of `CM`, as a line (R165). -/
def cmRow (s : State) (k : Desc) (r : Nat) : Nat → Int := fun i => cmInt s (elemAddr k r i)

/-- The decode table that `CBSEL` selects (R32, R144). -/
def codebook (s : State) : List CodeEntry := if s.cbsel = 0 then s.cfg.codebook0 else s.cfg.codebook1

/-- The elements of a rectangle of `w` columns and `h` rows, row by row, as pairs (row, column). -/
def rectangle (w h : Nat) : List (Nat × Nat) :=
  (List.range h).flatMap fun r => (List.range w).map fun c => (r, c)

end Sys2Proof.Machine
end

