-- ==== Sys2Proof/Machine/Flags.lean ====
section
/-! DEFINITION. The flag computations: `OVF` at the narrowing places of R290, the word `STATUS` reads as (R27), the
interrupt line (R241). -/

namespace Sys2Proof.Machine

/-- `STATUS.BUSY` (R27). -/
def busy (s : State) : Bool := s.running.isSome

/-- `Store16(a, x)` (R11): the wrapped value is stored, and `OVF` is set when `x` does not fit. -/
def store16 (s : State) (a : Nat) (x : Int) : State :=
  { s with cm := memSet s.cm a (wrap16 x), ovf := s.ovf || !fits16 x }

/-- `Store16` of each pair (address, value) of a list, in its order. -/
def storeAll (s : State) (l : List (Nat × Int)) : State := l.foldl (fun t p => store16 t p.1 p.2) s

/-- `CM[a] <- x` of each pair of a list, in its order, each value one that fits (R11, R290). -/
def writeAll (s : State) (l : List (Nat × Int)) : State :=
  { s with cm := memPut s.cm l }

/-- `DM[a] <- x` of each pair of a list, in its order, each value one that fits (R11, R167). -/
def writeImage (s : State) (l : List (Nat × Int)) : State :=
  { s with dm := memPut s.dm l }

/-- A scalar result: `RES <- wrap32(x)`, and `OVF` is set when `x` does not fit (R122). -/
def writeRes (s : State) (x : Int) : State := { s with res := wrap32 x, ovf := s.ovf || !fits32 x }

/-- Bit `b` of a register that holds the flag `f`. -/
def flagBit (f : Bool) (b : Nat) : Word := if f then BitVec.twoPow 32 b else 0

/-- What `STATUS` reads as: bits 31:5 are 0 (R27). -/
def statusWord (s : State) : Word :=
  flagBit (busy s) 0 ||| flagBit s.done 1 ||| flagBit s.err 2 ||| flagBit s.ovf 3 ||| flagBit s.lutv 4

/-- What `CTRL` reads as: `SRST` and bits 31:3 are 0 (R26). -/
def ctrlWord (s : State) : Word := flagBit s.ieDone 1 ||| flagBit s.ieErr 2

/-- The level of the interrupt line (R241). -/
def irq (s : State) : Bool := (s.ieDone && s.done) || (s.ieErr && s.err)

end Sys2Proof.Machine
end

