-- ==== Sys2Proof/Machine/Ops.lean ====
section
/-! DEFINITION. The operations the meanings share: the error entry (R231, R236) and the end of a command (R197), the
checks in their order (R233) with the lists of R140, R172, R185, and the element lists of the band commands. -/

namespace Sys2Proof.Machine

/-- The errors of R231. -/
inductive Err where
  /-- Code 1. The host's, never raised by the block. -/
  | malformedHeader
  /-- Code 2. -/
  | invalidSubbandDimensions
  /-- Code 3. -/
  | escapeNotFound
  /-- Code 4. -/
  | bitstreamOverread
  /-- Code 5. The host's, never raised by the block. -/
  | missingDimensions
  /-- Code 6. The host's, never raised by the block. -/
  | dimensionReassignedMidstream
  /-- Code 7. -/
  | unsupportedFeature
  /-- Code 8, `ERR_ILLCMD`. -/
  | illCmd
  /-- Code 9, `ERR_RANGE`. -/
  | range
  /-- Code 10, `ERR_OVERLAP`. -/
  | overlap
  /-- Code 11, `ERR_LUTINV`. -/
  | lutInv
  /-- Code 12, `ERR_QUANT0`. -/
  | quant0
  /-- Code 13, `ERR_BADCODE`. -/
  | badCode
deriving DecidableEq, Repr

/-- The code of an error in `ERRCODE[7:0]` (R231). -/
def errCode : Err → BitVec 8
  | .malformedHeader => 1
  | .invalidSubbandDimensions => 2
  | .escapeNotFound => 3
  | .bitstreamOverread => 4
  | .missingDimensions => 5
  | .dimensionReassignedMidstream => 6
  | .unsupportedFeature => 7
  | .illCmd => 8
  | .range => 9
  | .overlap => 10
  | .lutInv => 11
  | .quant0 => 12
  | .badCode => 13

/-- The error entry `raise E(w)` of R236: `ERR`, `ERRCODE`, `ERRINFO` are written and `BUSY` falls; nothing else. -/
def raiseError (e : Err) (w : Word) (s : State) : State :=
  { s with err := true, errcode := errCode e, errinfo := w, running := none }

/-- The end of a successful command (R197): `BUSY` falls and `DONE` is set. -/
def complete (s : State) : State := { s with running := none, done := true }

/-- Command `i` ends in error `e`: `ERRINFO` gets its word (R29, R236). -/
def endWithError (e : Err) (i : Instr) (s : State) : Result := .next (raiseError e (encode i) s)

/-- The command ends successfully. -/
def endOk (s : State) : Result := .next (complete s)

/-- The error of the first check that fails, in the order of a command's pseudocode (R233). -/
def firstError : List (Bool × Err) → Option Err
  | [] => none
  | (ok, e) :: cs => if ok then firstError cs else some e

/-- A command whose only errors precede every write: the first failing check is raised from the state at acceptance
(R233, R235); with none, the command's effect is `body`. -/
def checked (i : Instr) (cs : List (Bool × Err)) (s body : State) : Result :=
  match firstError cs with
  | some e => endWithError e i s
  | none => endOk body

/-- Descriptor `k` (R22). -/
def desc (s : State) (k : DescNum) : Desc := s.d[k]

/-! Checks. -/

/-- The checks of a command that works on one band of `CM` in place (R126, R168, R186). -/
def bandChecks (s : State) (rd : DescNum) : List (Bool × Err) :=
  [ (dimsOk (desc s rd), .invalidSubbandDimensions),
    (rangeOk (desc s rd) s.cfg.cmWords, .range) ]

/-- The bitstream window: `BSLEN ≤ BS_BYTES` and `BSPOS ≤ BSLEN` (R140). -/
def windowOk (s : State) : Bool :=
  decide (s.bslen.toNat ≤ s.cfg.bsBytes) && decide (s.bspos.toNat ≤ s.bslen.toNat)

/-- The checks common to the synthesis passes (R172). `len` is the length along the filtered direction, `outW × outH`
what the destination receives, `size` the size of the destination's memory, `sameMemory` whether that is `CM`. -/
def synChecks (s : State) (rd ra rb : DescNum) (len outW outH size : Nat) (sameMemory : Bool) : List (Bool × Err) :=
  let d := desc s rd
  let l := desc s ra
  let h := desc s rb
  [ (dimsOk d && dimsOk l && dimsOk h, .invalidSubbandDimensions),
    (decide (widthOf h = widthOf l) && decide (heightOf h = heightOf l), .invalidSubbandDimensions),
    (decide (3 ≤ len), .invalidSubbandDimensions),
    (decide (outW ≤ awidthOf d) && decide (outH ≤ aheightOf d), .invalidSubbandDimensions),
    (rangeOk l s.cfg.cmWords && rangeOk h s.cfg.cmWords && rangeOk d size, .range),
    (!(sameMemory && (footprintsMeet d l || footprintsMeet d h)), .overlap) ]

/-- The checks common to the analysis passes (R185). `len` is the source length along the filtered direction,
`outW × outH` what each destination receives. -/
def anaChecks (s : State) (rd ra rb : DescNum) (len outW outH : Nat) : List (Bool × Err) :=
  let d := desc s rd
  let x := desc s ra
  let h := desc s rb
  [ (dimsOk d && dimsOk x && dimsOk h, .invalidSubbandDimensions),
    (decide (len % 2 = 0) && decide (6 ≤ len), .invalidSubbandDimensions),
    (decide (outW ≤ awidthOf d) && decide (outH ≤ aheightOf d) &&
      (decide (outW ≤ awidthOf h) && decide (outH ≤ aheightOf h)), .invalidSubbandDimensions),
    (rangeOk x s.cfg.cmWords && rangeOk d s.cfg.cmWords && rangeOk h s.cfg.cmWords, .range),
    (!(footprintsMeet d x || footprintsMeet d h || footprintsMeet x h), .overlap) ]

/-! Element lists: what a command stores, computed from the state at acceptance. Destinations and sources of one command
are disjoint and an in-place command touches each element once, so this is what its pseudocode stores in any order (R74,
R79). Assumption 18. -/

/-- Each element of a `w × h` rectangle of descriptor `k`, given by row and column, with its address. -/
def rectStores (k : Desc) (w h : Nat) (f : Nat → Nat → Int) : List (Nat × Int) :=
  (rectangle w h).map fun p => (elemAddr k p.1 p.2, f p.1 p.2)

/-- The declared extent of a band of `CM`, each element passed through `f`. -/
def bandMap (s : State) (k : Desc) (f : Int → Int) : List (Nat × Int) :=
  rectStores k (widthOf k) (heightOf k) fun r c => f (cmInt s (elemAddr k r c))

end Sys2Proof.Machine
end

