-- ==== Sys2Proof/Machine/Bitstream.lean ====
section
/-! DEFINITION. The bitstream commands `LPLD` (R142) and `VLD` (R144 to R148). -/

namespace Sys2Proof.Machine

/-! `LPLD`. -/

/-- The first byte after a raw lowpass block and its padding: `align4(BSPOS + 2·W·H)` (R142). -/
def lpldEnd (s : State) (k : Desc) : Nat := align4 (s.bspos.toNat + 2 * (widthOf k * heightOf k))

/-- The checks of `LPLD`, in the order of R142. -/
def lpldChecks (s : State) (rd : DescNum) : List (Bool × Err) :=
  let k := desc s rd
  [ (dimsOk k, .invalidSubbandDimensions),
    (!(decide (heightOf k % 2 = 1) && decide (aheightOf k < heightOf k + 1)), .invalidSubbandDimensions),
    (rangeOk k s.cfg.cmWords, .range),
    (windowOk s, .range),
    (decide (lpldEnd s k ≤ s.bslen.toNat), .bitstreamOverread) ]

/-- The values of the block in raster order, value `r·W + c` at row `r`, column `c` (R98, R142). -/
def lpldLoad (s : State) (k : Desc) : State :=
  writeAll s (rectStores k (widthOf k) (heightOf k) fun r c =>
    (bsHalf s (s.bspos.toNat + 2 * (r * widthOf k + c))).toInt)

/-- For an odd `HEIGHT`, row `HEIGHT` gets a copy of the last row (R142). -/
def lpldDuplicate (s : State) (k : Desc) : State :=
  if heightOf k % 2 = 1 then
    writeAll s ((List.range (widthOf k)).map fun c =>
      (elemAddr k (heightOf k) c, cmInt s (elemAddr k (heightOf k - 1) c)))
  else s

/-- `LPLD rd` (R142): load a raw lowpass band, duplicate the last row of an odd height, advance `BSPOS`, set `COUNT`. -/
def execLpld (rd : DescNum) (s : State) : Result :=
  checked (.lpld rd) (lpldChecks s rd) s
    { lpldDuplicate (lpldLoad s (desc s rd)) (desc s rd) with
      bspos := BitVec.ofNat 32 (lpldEnd s (desc s rd))
      count := BitVec.ofNat 32 (widthOf (desc s rd) * heightOf (desc s rd)) }

/-! `VLD`. -/

/-- What `NextEntry` answers (R144): an entry with the bit cursor after it, or an error. -/
inductive Fetch where
  | entry (e : CodeEntry) (b : Nat)
  | fail (e : Err)
deriving DecidableEq, Repr

/-- The entry of a decode table with a given length and pattern, if it has one (R144). -/
def findEntry (T : List CodeEntry) (len pat : Nat) : Option CodeEntry :=
  T.find? fun e => e.len == len && e.bits == pat

/-- The loop of `NextEntry` (R144), with `left` bits still allowed before `CB_MAXLEN`: a bit at or beyond the bound is an
overread, a pattern that matches an entry ends the codeword, `CB_MAXLEN` bits without a match are `ERR_BADCODE` (R147). -/
def fetchEntry (T : List CodeEntry) (bit : Nat → Nat) (avail : Nat) : (left b len pat : Nat) → Fetch
  | 0, _, _, _ => .fail .badCode
  | left + 1, b, len, pat =>
    if avail ≤ b then .fail .bitstreamOverread
    else
      match findEntry T (len + 1) (2 * pat + bit b) with
      | some e => .entry e (b + 1)
      | none => fetchEntry T bit avail left (b + 1) (len + 1) (2 * pat + bit b)

/-- How a chunk was parsed: the pairs to store, in stream order; the bits consumed; the error, if one ended it. -/
structure VldParse where
  pairs : List CodeEntry
  bits  : Nat
  stop  : Option Err
deriving DecidableEq, Repr

/-- The decode loop of R146 from bit `b` with `n` positions taken: the escape ends it, a pair that would exceed `cap` is
`EscapeNotFound` and is not stored, not even in part. Each pass consumes a bit, so `fuel` passes suffice when `fuel`
exceeds the number of bits left (R149). -/
def vldParse (next : Nat → Fetch) (cap : Nat) : (fuel b n : Nat) → VldParse
  | 0, b, _ => { pairs := [], bits := b, stop := some .bitstreamOverread }
  | fuel + 1, b, n =>
    match next b with
    | .fail e => { pairs := [], bits := b, stop := some e }
    | .entry e b' =>
      if e.esc then { pairs := [], bits := b', stop := none }
      else if cap < n + e.run then { pairs := [], bits := b', stop := some .escapeNotFound }
      else
        let r := vldParse next cap fuel b' (n + e.run)
        { pairs := e :: r.pairs, bits := r.bits, stop := r.stop }

/-- `avail = 8·(BSLEN - BSPOS)` (R144). -/
def vldAvail (s : State) : Nat := 8 * (s.bslen.toNat - s.bspos.toNat)

/-- `NextEntry` at bit `b` of the chunk at `BSPOS` (R144). -/
def vldNext (s : State) (b : Nat) : Fetch :=
  fetchEntry (codebook s) (bsBit s s.bspos.toNat) (vldAvail s) s.cfg.cbMaxLen b 0 0

/-- The chunk at `BSPOS`, parsed for the band of descriptor `k`. -/
def vldChunk (s : State) (k : Desc) : VldParse := vldParse (vldNext s) (capacity s k) (vldAvail s + 1) 0 0

/-- The values of a list of pairs, position by position: `DEQ(level, QUANT)` of R121, `run` times each. -/
def vldValues (quant : Nat) (pairs : List CodeEntry) : List Int :=
  pairs.flatMap fun e => List.replicate e.run (deq e.level quant)

/-- The stores of a list of values at positions 0, 1, 2, … (R67). -/
def linearStores (k : Desc) (vs : List Int) : List (Nat × Int) :=
  vs.zipIdx.map fun p => (linearAddr k p.2, p.1)

/-- `CM`, `OVF` and `COUNT` after the pairs of a chunk have been stored (R146, R38). -/
def vldStore (s : State) (k : Desc) (p : VldParse) : State :=
  let vs := vldValues s.quant.toNat p.pairs
  { storeAll s (linearStores k vs) with count := BitVec.ofNat 32 vs.length }

/-- The first byte after a chunk of `bits` bits and its padding: `align4(BSPOS + ceil8(b))` (R146). -/
def vldEnd (s : State) (bits : Nat) : Nat := align4 (s.bspos.toNat + ceil8 bits)

/-- The checks of R140. -/
def vldChecks (s : State) (rd : DescNum) : List (Bool × Err) :=
  bandChecks s rd ++ [(windowOk s, .range)]

/-- `VLD rd` (R146). A data error leaves the words stored before it and their `COUNT`, and `BSPOS` as it was (R235). -/
def execVld (rd : DescNum) (s : State) : Result :=
  match firstError (vldChecks s rd) with
  | some e => endWithError e (.vld rd) s
  | none =>
    let p := vldChunk s (desc s rd)
    let t := vldStore s (desc s rd) p
    match p.stop with
    | some e => endWithError e (.vld rd) t
    | none =>
      if s.bslen.toNat < vldEnd s p.bits then endWithError .bitstreamOverread (.vld rd) t
      else endOk { t with bspos := BitVec.ofNat 32 (vldEnd s p.bits) }

end Sys2Proof.Machine
end

