-- ==== Sys2Proof/Machine/Forward.lean ====
section
/-! DEFINITION. The forward wavelet stage: `VANA`, `HANA`, `DIV4` (R180 to R187). -/

namespace Sys2Proof.Machine

/-- What a vertical analysis stores: the low line of every column into `d`, the high line into `h` (R183). -/
def vanaStores (s : State) (d x h : Desc) : List (Nat × Int) :=
  let n := heightOf x / 2
  rectStores d (widthOf x) n (fun i c => anaLow (cmColumn s x c) i) ++
    rectStores h (widthOf x) n (fun i c => anaHigh n (cmColumn s x c) i)

/-- What a horizontal analysis stores: the low line of every row into `d`, the high line into `h` (R184). -/
def hanaStores (s : State) (d x h : Desc) : List (Nat × Int) :=
  let n := widthOf x / 2
  rectStores d n (heightOf x) (fun r i => anaLow (cmRow s x r) i) ++
    rectStores h n (heightOf x) (fun r i => anaHigh n (cmRow s x r) i)

/-- `VANA rd, ra, rb` (R183): source `ra`, low destination `rd`, high destination `rb`. -/
def execVana (rd ra rb : DescNum) (s : State) : Result :=
  let x := desc s ra
  checked (.vana rd ra rb) (anaChecks s rd ra rb (heightOf x) (widthOf x) (heightOf x / 2)) s
    (storeAll s (vanaStores s (desc s rd) x (desc s rb)))

/-- `HANA rd, ra, rb` (R184). -/
def execHana (rd ra rb : DescNum) (s : State) : Result :=
  let x := desc s ra
  checked (.hana rd ra rb) (anaChecks s rd ra rb (widthOf x) (widthOf x / 2) (heightOf x)) s
    (storeAll s (hanaStores s (desc s rd) x (desc s rb)))

/-- `DIV4 rd` (R186): every element of the declared extent divided by 4; the result always fits. -/
def execDiv4 (rd : DescNum) (s : State) : Result :=
  checked (.div4 rd) (bandChecks s rd) s (writeAll s (bandMap s (desc s rd) fun x => div4Value s.cfg.div4 x))

end Sys2Proof.Machine
end

