-- ==== Sys2Proof/Machine/Inverse.lean ====
section
/-! DEFINITION. The inverse wavelet stage: `VSYN`, `HSYN`, `HSYNC`, `SHL2` (R160 to R172). -/

namespace Sys2Proof.Machine

/-- What a vertical synthesis stores: output row `j` of column `c` is element `j` of `SYN` of the columns (R164). -/
def vsynStores (s : State) (d l h : Desc) : List (Nat × Int) :=
  rectStores d (widthOf l) (2 * heightOf l) fun j c => syn (heightOf l) (cmColumn s l c) (cmColumn s h c) j

/-- What a horizontal synthesis computes for row `r`, column `j` of its output (R165). -/
def hsynValue (s : State) (l h : Desc) (r j : Nat) : Int := syn (widthOf l) (cmRow s l r) (cmRow s h r) j

/-- `VSYN rd, ra, rb` (R164). -/
def execVsyn (rd ra rb : DescNum) (s : State) : Result :=
  let l := desc s ra
  checked (.vsyn rd ra rb)
    (synChecks s rd ra rb (heightOf l) (widthOf l) (2 * heightOf l) s.cfg.cmWords true) s
    (storeAll s (vsynStores s (desc s rd) l (desc s rb)))

/-- `HSYN rd, ra, rb` (R165). -/
def execHsyn (rd ra rb : DescNum) (s : State) : Result :=
  let l := desc s ra
  checked (.hsyn rd ra rb)
    (synChecks s rd ra rb (widthOf l) (2 * widthOf l) (heightOf l) s.cfg.cmWords true) s
    (storeAll s (rectStores (desc s rd) (2 * widthOf l) (heightOf l) (hsynValue s l (desc s rb))))

/-- `HSYNC rd, ra, rb` (R167): `UnsupportedFeature` for a bit depth that is not 10 or 12; else as `HSYN`, into `DM`, each
value clipped to the bit depth. -/
def execHsync (rd ra rb : DescNum) (s : State) : Result :=
  let l := desc s ra
  checked (.hsync rd ra rb)
    ((decide (s.bpc.toNat = 10) || decide (s.bpc.toNat = 12), .unsupportedFeature) ::
      synChecks s rd ra rb (widthOf l) (2 * widthOf l) (heightOf l) s.cfg.dmWords false) s
    (writeImage s (rectStores (desc s rd) (2 * widthOf l) (heightOf l) fun r j =>
      clipUint (hsynValue s l (desc s rb) r j) s.bpc.toNat))

/-- `SHL2 rd` (R168): every element of the declared extent times 4, through `Store16`. -/
def execShl2 (rd : DescNum) (s : State) : Result :=
  checked (.shl2 rd) (bandChecks s rd) s (storeAll s (bandMap s (desc s rd) fun x => 4 * x))

end Sys2Proof.Machine
end

