-- ==== Sys2Proof/Machine/Quantizer.lean ====
section
/-! DEFINITION. The quantizer and compander commands `DEQ`, `QNT`, `LUTB`, `LUTR`, `QNTB` (R121 to R130). -/

namespace Sys2Proof.Machine

/-- `DEQ` (R123): `RES` gets `DEQ(ARG, QUANT)` of R121, wrapped, `OVF` on misfit (R122). -/
def execDeq (s : State) : Result := endOk (writeRes s (deq s.arg.toInt s.quant.toNat))

/-- `QNT` (R125): `ERR_QUANT0` for `QUANT = 0`; else `RES` gets `QNT(ARG, QUANT)` of R124, which always fits. -/
def execQnt (s : State) : Result :=
  checked .qnt [(decide (s.quant ≠ 0), .quant0)] s { s with res := wrap32 (qntValue s.cfg.qclip s.arg.toInt s.quant.toNat) }

/-- `LUTB` (R127): the `LUT` gets the table its pseudocode builds, and `LUTV` is set. -/
def execLutb (s : State) : Result := endOk { s with lut := lutMemory, lutv := true }

/-- `LUTR` (R128): `ERR_LUTINV` before any `LUTB`, `ERR_RANGE` for an index outside 0..1023; else `RES` gets the entry. -/
def execLutr (s : State) : Result :=
  checked .lutr
    [ (s.lutv, .lutInv),
      (decide (0 ≤ s.arg.toInt) && decide (s.arg.toInt ≤ 1023), .range) ]
    s { s with res := (lutEntry s s.arg.toInt.toNat).setWidth 32 }

/-- `QNTB rd` (R126): `ERR_QUANT0`, then the band checks; else every element of the declared extent is quantized in
place. The results lie in `QCLIP`, so they always fit. -/
def execQntb (rd : DescNum) (s : State) : Result :=
  checked (.qntb rd) ((decide (s.quant ≠ 0), .quant0) :: bandChecks s rd) s
    (writeAll s (bandMap s (desc s rd) fun x => qntValue s.cfg.qclip x s.quant.toNat))

end Sys2Proof.Machine
end

