-- ==== Sys2Proof/Machine/System.lean ====
section
/-! DEFINITION. The system command `NOP` (R196). -/

namespace Sys2Proof.Machine

/-- `NOP` (R196): the life cycle of R197 and nothing else. -/
def execNop (s : State) : Result := endOk s

end Sys2Proof.Machine
end

