-- ==== Sys2Proof/Machine/Dispatch.lean ====
section
/-! DEFINITION. The meaning of every command: what the block does with it from its acceptance to its end (R197). -/

namespace Sys2Proof.Machine

def exec (i : Instr) (s : State) : Host.Outcome State Fault Refusal :=
  match i with
  | .nop => Sys2Proof.Machine.execNop s
  | .deq => Sys2Proof.Machine.execDeq s
  | .qnt => Sys2Proof.Machine.execQnt s
  | .lutb => Sys2Proof.Machine.execLutb s
  | .lutr => Sys2Proof.Machine.execLutr s
  | .qntb rd => Sys2Proof.Machine.execQntb rd s
  | .lpld rd => Sys2Proof.Machine.execLpld rd s
  | .vld rd => Sys2Proof.Machine.execVld rd s
  | .vsyn rd ra rb => Sys2Proof.Machine.execVsyn rd ra rb s
  | .hsyn rd ra rb => Sys2Proof.Machine.execHsyn rd ra rb s
  | .hsync rd ra rb => Sys2Proof.Machine.execHsync rd ra rb s
  | .shl2 rd => Sys2Proof.Machine.execShl2 rd s
  | .vana rd ra rb => Sys2Proof.Machine.execVana rd ra rb s
  | .hana rd ra rb => Sys2Proof.Machine.execHana rd ra rb s
  | .div4 rd => Sys2Proof.Machine.execDiv4 rd s

end Sys2Proof.Machine
end

