-- ==== Sys2Proof/Machine/Registers.lean ====
section
/-! DEFINITION. The register map (R23, R25 to R36, R44, R73): reads, writes with their side effects, acceptance of a
command word (R30) and reset of the registers (R43, R260, R262). -/

namespace Sys2Proof.Machine

/-- The fields of a descriptor (R23). -/
inductive DescField where
  | base
  | width
  | height
  | stride
  | awidth
  | aheight
deriving DecidableEq, Repr

/-- The registers of R25. -/
inductive Reg where
  | ctrl
  | status
  | errcode
  | errinfo
  | cmd
  | quant
  | cbsel
  | bpc
  | bslen
  | bspos
  | arg
  | res
  | count
  | field (k : DescNum) (f : DescField)
deriving DecidableEq, Repr

/-- The field at an offset inside a descriptor; 0x18 and 0x1C are reserved (R23). -/
def fieldAt (off : Nat) : Option DescField :=
  match off with
  | 0x00 => some .base
  | 0x04 => some .width
  | 0x08 => some .height
  | 0x0C => some .stride
  | 0x10 => some .awidth
  | 0x14 => some .aheight
  | _ => none

/-- The register at a byte offset, if the map of R25 lists one there. -/
def regAt (off : Nat) : Option Reg :=
  match off with
  | 0x00 => some .ctrl
  | 0x04 => some .status
  | 0x08 => some .errcode
  | 0x0C => some .errinfo
  | 0x10 => some .cmd
  | 0x14 => some .quant
  | 0x18 => some .cbsel
  | 0x1C => some .bpc
  | 0x20 => some .bslen
  | 0x24 => some .bspos
  | 0x28 => some .arg
  | 0x2C => some .res
  | 0x30 => some .count
  | _ =>
    if 0x40 ≤ off ∧ off < 0x140 then
      (fieldAt ((off - 0x40) % 0x20)).map (Reg.field (Fin.ofNat 8 ((off - 0x40) / 0x20)))
    else none

/-- The register that an access of `bytes` bytes at offset `off` reaches: only an aligned 32-bit access reaches one
(R73). -/
def regOf (bytes off : Nat) : Option Reg := if bytes = 4 ∧ off % 4 = 0 then regAt off else none

/-- What a descriptor field reads as: bits 31:16 of the 16-bit fields are 0 (R23). -/
def getField (k : Desc) : DescField → Word
  | .base => k.base
  | .width => k.width.setWidth 32
  | .height => k.height.setWidth 32
  | .stride => k.stride.setWidth 32
  | .awidth => k.awidth.setWidth 32
  | .aheight => k.aheight.setWidth 32

/-- A descriptor after a write of a field: bits 31:16 of the 16-bit fields ignore writes (R23). -/
def setField (k : Desc) (v : Word) : DescField → Desc
  | .base => { k with base := v }
  | .width => { k with width := v.setWidth 16 }
  | .height => { k with height := v.setWidth 16 }
  | .stride => { k with stride := v.setWidth 16 }
  | .awidth => { k with awidth := v.setWidth 16 }
  | .aheight => { k with aheight := v.setWidth 16 }

/-- What a register reads as while `BUSY = 0` (R25 to R36, R38); `CMD` reads 0 (R30). -/
def getReg (s : State) : Reg → Word
  | .ctrl => ctrlWord s
  | .status => statusWord s
  | .errcode => s.errcode.setWidth 32
  | .errinfo => s.errinfo
  | .cmd => 0
  | .quant => s.quant
  | .cbsel => s.cbsel.setWidth 32
  | .bpc => s.bpc.setWidth 32
  | .bslen => s.bslen
  | .bspos => s.bspos
  | .arg => s.arg
  | .res => s.res
  | .count => s.count
  | .field k f => getField (desc s k) f

/-- The registers and descriptors at their reset values; the memories, the words of the `LUT`, the parameters and what
belongs to the host are kept (R43, R260, R262). -/
def resetRegisters (s : State) : State :=
  { State.reset with
    cfg := s.cfg, lut := s.lut, cm := s.cm, dm := s.dm, bs := s.bs
    input := s.input, hostData := s.hostData, free := s.free }

/-- A write to `CTRL` (R26): with `SRST` the soft reset of R262, and the rest of the written value is discarded; else the
two interrupt enables. -/
def writeCtrl (s : State) (v : Word) : State :=
  if v.getLsbD 0 then resetRegisters s else { s with ieDone := v.getLsbD 1, ieErr := v.getLsbD 2 }

/-- A write to `STATUS` (R27, R200): bit 1 clears `DONE`, nothing else changes. -/
def writeStatus (s : State) (v : Word) : State := if v.getLsbD 1 then { s with done := false } else s

/-- A write to `CMD` (R30): accepted when `BUSY = 0` and `ERR = 0`, else ignored. -/
def acceptCommand (s : State) (w : Word) : State :=
  if busy s || s.err then s else { s with running := some w, done := false }

/-- A write to a register while `BUSY = 0` (R25): reserved bits and read-only registers ignore it. -/
def setReg (s : State) (v : Word) : Reg → State
  | .ctrl => writeCtrl s v
  | .status => writeStatus s v
  | .errcode => s
  | .errinfo => s
  | .cmd => acceptCommand s v
  | .quant => { s with quant := v }
  | .cbsel => { s with cbsel := v.setWidth 1 }
  | .bpc => { s with bpc := v.setWidth 5 }
  | .bslen => { s with bslen := v }
  | .bspos => { s with bspos := v }
  | .arg => { s with arg := v }
  | .res => s
  | .count => s
  | .field k f => { s with d := s.d.set k (setField (desc s k) v f) }

/-- A host register write while `BUSY = 0`; an access that reaches no register is ignored (R44, R73). -/
def hostWrite (s : State) (bytes off : Nat) (v : Word) : State :=
  match regOf bytes off with
  | some r => setReg s v r
  | none => s

/-- The answer to a host register read while `BUSY = 0`; 0 where no register is reached (R44, R73). -/
def hostRead (s : State) (bytes off : Nat) : Word :=
  match regOf bytes off with
  | some r => getReg s r
  | none => 0

end Sys2Proof.Machine
end

