-- ==== Sys2Proof/Machine/HostPort.lean ====
section
/-! DEFINITION. One move of the machine: the block runs the accepted command (R92, R197), or the host acts, with
`BUSY = 0` or with `BUSY = 1` (the two columns of R75). -/

namespace Sys2Proof.Machine

/-- Steps 3 and 4 of R197: the accepted word is decoded and executed to its end; a word that is no command raises
`ERR_ILLCMD` (R92, R96). -/
def runCommand (w : Word) (s : State) : Result :=
  match decode w with
  | .ok i => exec i s
  | .error _ => .next (raiseError .illCmd w s)

/-- What the host gets by a read. Assumption 15. -/
def answer (s : State) (v : Word) : State := { s with hostData := v }

/-- A host access to address `a` of a memory of `size` units: a fault where there is no such address, else `t`.
Assumption 14. -/
def inMemory (a size : Nat) (t : State) : Result := if a < size then .next t else .fault .noSuchAddress

/-- A host action while `BUSY = 0` (R75, middle column). `WAIT` ends with the read of `STATUS` that finds `BUSY = 0`
(R100). -/
def hostIdle (e : HostEvent) (s : State) : Result :=
  match e with
  | .wait => .next (answer s (statusWord s))
  | .regWrite bytes off v => .next (hostWrite s bytes off v)
  | .regRead bytes off => .next (answer s (hostRead s bytes off))
  | .cmWrite a v => inMemory a s.cfg.cmWords { s with cm := memSet s.cm a v }
  | .cmRead a => inMemory a s.cfg.cmWords (answer s ((cmWord s a).setWidth 32))
  | .dmWrite a v => inMemory a s.cfg.dmWords { s with dm := memSet s.dm a v }
  | .dmRead a => inMemory a s.cfg.dmWords (answer s ((dmWord s a).setWidth 32))
  | .bsWrite a v => inMemory a s.cfg.bsBytes { s with bs := memSet s.bs a v }
  | .bsRead a => inMemory a s.cfg.bsBytes (answer s ((bsByte s a).setWidth 32))
  | .hardReset => .next (resetRegisters s)

/-- A register read while `BUSY = 1` (R75): `STATUS` answers, any other register answers a free value (U8), an access
that reaches no register answers 0 (R44, R73). Assumption 11. -/
def busyRead (s : State) (bytes off : Nat) : State :=
  match regOf bytes off with
  | some .status => answer s (statusWord s)
  | some _ => { answer s (Config.busyRead s.free) with free := s.free + 1 }
  | none => answer s 0

/-- A memory of which each word holds what it would hold at the end of the command (the last argument) if that word had been
written, else what it held before. -/
def mixMemory (before : Memory 16) (written : Nat → Bool) : Memory 16 → Memory 16
  | [] => []
  | (a, x) :: after =>
    if written a then (a, x) :: mixMemory before written after
    else
      match memGet? before a with
      | some v => (a, v) :: mixMemory before written after
      | none => mixMemory before written after

/-- A hard reset while a command runs (R261): the registers take their reset values; a word of `CM` or `DM` holds its old
value or the one the command (which would have ended in `t`) would have written, unspecified which; the `LUT` is
unspecified after an abandoned `LUTB`. Assumption 13. -/
def abandon (w : Word) (s t : State) : State :=
  { resetRegisters s with
    cm := mixMemory s.cm (Config.cmWasWritten s.free) t.cm
    dm := mixMemory s.dm (Config.dmWasWritten s.free) t.dm
    lut := if w = encode .lutb then [] else s.lut
    free := s.free + 1 }

/-- A host action while command `w` runs (R75, right column): register writes are ignored (R198, R272), memory accesses
have no move (R273, H1). -/
def hostBusy (w : Word) (e : HostEvent) (s : State) : Result :=
  match e with
  | .wait => runCommand w s
  | .regWrite _ _ _ => .next s
  | .regRead bytes off => .next (busyRead s bytes off)
  | .cmWrite _ _ | .cmRead _ | .dmWrite _ _ | .dmRead _ | .bsWrite _ _ | .bsRead _ => .refused .hostMemoryWhileBusy
  | .hardReset =>
    match runCommand w s with
    | .next t => .next (abandon w s t)
    | .fault f => .fault f
    | .refused r => .refused r

/-- One move (R13, R75, R197). While a command runs and the host waits or has nothing to do, the block runs it to its end;
otherwise the host's next action happens; with `BUSY = 0` and no action the block waits (R244). Assumption 8. -/
def move (s : State) : Result :=
  match s.running, s.input with
  | some w, [] => runCommand w s
  | some w, .wait :: _ => runCommand w s
  | some w, e :: rest => hostBusy w e { s with input := rest }
  | none, [] => .next s
  | none, e :: rest => hostIdle e { s with input := rest }

/-- The state in which the host has just written command word `w` to `CMD`, the block has accepted it, and the host
waits. Assumption 9. -/
def accepted (s : State) (w : Word) : State :=
  { s with running := some w, done := false, input := .wait :: s.input }

end Sys2Proof.Machine
end

