-- ==== Sys2Proof/Machine/Step.lean ====
section
/-! DEFINITION. The step, and the state in which the next step runs a given command word. -/

namespace Sys2Proof.Machine

/-- One step of the machine. -/
def step (s : State) : Host.Outcome State Fault Refusal := move s

/-- `s` with the command word in the low `nbits` bits of `w` accepted and not yet run: the block has no fetch (R21), it
takes its command from the write to `CMD`. -/
def State.withFetchWord (s : State) (nbits w : Nat) : State := accepted s (BitVec.ofNat 32 (w % 2 ^ nbits))

end Sys2Proof.Machine
end

