-- ==== Sys2Proof/Safety.lean ====
section
/-! DEFINITION. What the claims speak of: the invariant of the machine, the conditions under which a command completes,
which errors a command can raise (R232), which bits a register keeps (R23, R25), and what a chunk of codewords is (R97). -/

namespace Sys2Proof.Machine

/-- The error codes the block produces (R231, U13). -/
def blockCodes : List Nat := [2, 3, 4, 7, 8, 9, 10, 11, 12, 13]

/-- The invariant of the machine: the memories keep their canonical form and list no address beyond their sizes (R78);
`ERRCODE` and `ERRINFO` are 0 without an error (R28, R29) and `ERRCODE` is a code of the block with one (U13); a command
runs only with `ERR = 0` and `DONE = 0` (R30); `DONE` and `ERR` are never both set (R241); with `LUTV = 1` the `LUT` is
the table of R127 (R39). -/
structure Inv (s : State) : Prop where
  cmForm    : Memory.wf s.cm
  dmForm    : Memory.wf s.dm
  bsForm    : Memory.wf s.bs
  lutForm   : Memory.wf s.lut
  cmWithin  : ∀ p ∈ s.cm, p.1 < s.cfg.cmWords
  dmWithin  : ∀ p ∈ s.dm, p.1 < s.cfg.dmWords
  bsWithin  : ∀ p ∈ s.bs, p.1 < s.cfg.bsBytes
  lutWithin : ∀ p ∈ s.lut, p.1 < 1024
  errClear  : s.err = false → s.errcode = 0 ∧ s.errinfo = 0
  errKnown  : s.err = true → s.errcode.toNat ∈ blockCodes ∧ s.done = false
  runClean  : ∀ w, s.running = some w → s.err = false ∧ s.done = false
  lutBuilt  : s.lutv = true → s.lut = lutMemory

/-- The codes a command can raise once decoded (the rows of R232). -/
def mayRaise : Instr → List Nat
  | .nop => []
  | .deq => []
  | .lutb => []
  | .qnt => [12]
  | .lutr => [9, 11]
  | .qntb _ => [2, 9, 12]
  | .lpld _ => [2, 4, 9]
  | .vld _ => [2, 3, 4, 9, 13]
  | .vsyn _ _ _ => [2, 9, 10]
  | .hsyn _ _ _ => [2, 9, 10]
  | .hsync _ _ _ => [2, 7, 9]
  | .shl2 _ => [2, 9]
  | .div4 _ => [2, 9]
  | .vana _ _ _ => [2, 9, 10]
  | .hana _ _ _ => [2, 9, 10]

/-- The band a command works on in place is valid and lies in `CM` (R24). -/
abbrev BandReady (s : State) (rd : DescNum) : Prop :=
  dimsOk (desc s rd) = true ∧ rangeOk (desc s rd) s.cfg.cmWords = true

/-- The bitstream window is valid (R140). -/
abbrev WindowReady (s : State) : Prop :=
  s.bslen.toNat ≤ s.cfg.bsBytes ∧ s.bspos.toNat ≤ s.bslen.toNat

/-- The first five conditions of R172: nothing is raised before the overlap check. -/
abbrev SynShape (s : State) (rd ra rb : DescNum) (len outW outH size : Nat) : Prop :=
  dimsOk (desc s rd) = true ∧ dimsOk (desc s ra) = true ∧ dimsOk (desc s rb) = true ∧
    (desc s rb).width = (desc s ra).width ∧ (desc s rb).height = (desc s ra).height ∧ 3 ≤ len ∧
    outW ≤ awidthOf (desc s rd) ∧ outH ≤ aheightOf (desc s rd) ∧
    rangeOk (desc s ra) s.cfg.cmWords = true ∧ rangeOk (desc s rb) s.cfg.cmWords = true ∧
    rangeOk (desc s rd) size = true

/-- The first four conditions of R185: nothing is raised before the overlap check. -/
abbrev AnaShape (s : State) (rd ra rb : DescNum) (len outW outH : Nat) : Prop :=
  dimsOk (desc s rd) = true ∧ dimsOk (desc s ra) = true ∧ dimsOk (desc s rb) = true ∧ len % 2 = 0 ∧ 6 ≤ len ∧
    outW ≤ awidthOf (desc s rd) ∧ outH ≤ aheightOf (desc s rd) ∧
    outW ≤ awidthOf (desc s rb) ∧ outH ≤ aheightOf (desc s rb) ∧
    rangeOk (desc s ra) s.cfg.cmWords = true ∧ rangeOk (desc s rd) s.cfg.cmWords = true ∧
    rangeOk (desc s rb) s.cfg.cmWords = true

/-- The footprints of two descriptors have no word in common (R24, R79). -/
abbrev Disjoint (j k : Desc) : Prop :=
  footprintEnd j ≤ k.base.toNat ∨ footprintEnd k ≤ j.base.toNat

/-- Address `a` is one of the elements a command stores into a `w × h` rectangle of descriptor `k`. -/
def InRect (k : Desc) (w h a : Nat) : Prop := ∃ r c, r < h ∧ c < w ∧ a = elemAddr k r c

/-- A host action that resets the block: `rst`, or a write to `CTRL` with `SRST` (R260, R262). -/
def isReset : HostEvent → Bool
  | .hardReset => true
  | .regWrite bytes off v => decide (bytes = 4 ∧ off = 0) && v.getLsbD 0
  | _ => false

/-- The next step is a reset: the reset input, or a soft reset that is not ignored (R198). -/
def resetsNext (s : State) : Bool :=
  match s.input with
  | [] => false
  | .hardReset :: _ => true
  | e :: _ => isReset e && s.running.isNone

/-- The bits of a register that can read as 1 (R23, R25 to R36). -/
def readableBits : Reg → Word
  | .ctrl => 0x6
  | .status => 0x1F
  | .errcode => 0xFF
  | .errinfo => 0xFFFFFFFF
  | .cmd => 0
  | .quant => 0xFFFFFFFF
  | .cbsel => 0x1
  | .bpc => 0x1F
  | .bslen => 0xFFFFFFFF
  | .bspos => 0xFFFFFFFF
  | .arg => 0xFFFFFFFF
  | .res => 0xFFFFFFFF
  | .count => 0xFFFFFFFF
  | .field _ .base => 0xFFFFFFFF
  | .field _ .width => 0xFFFF
  | .field _ .height => 0xFFFF
  | .field _ .stride => 0xFFFF
  | .field _ .awidth => 0xFFFF
  | .field _ .aheight => 0xFFFF

/-- The bits of a register that a host write can matter through (R23, R25 to R36). -/
def writableBits : Reg → Word
  | .ctrl => 0x7
  | .status => 0x2
  | .errcode => 0
  | .errinfo => 0
  | .cmd => 0xFFFFFFFF
  | .res => 0
  | .count => 0
  | r => readableBits r

/-- A register that holds what the host writes, `RW` and without a side effect (R25). -/
def plainReg : Reg → Bool
  | .quant => true
  | .cbsel => true
  | .bpc => true
  | .bslen => true
  | .bspos => true
  | .arg => true
  | .field _ _ => true
  | _ => false

/-- The bits of a pattern of `len` bits, the most significant first (R65). -/
def patternBits (len bits : Nat) : List Nat := (List.range len).map fun i => (bits >>> (len - 1 - i)) % 2

/-- The bits of a sequence of codewords, no separator between them (R97). -/
def codewordBits (es : List CodeEntry) : List Nat := es.flatMap fun e => patternBits e.len e.bits

/-- The chunk at `BSPOS` begins with the codewords of `es`: they are entries of the selected table, and the bits from
`BSPOS` on are theirs. -/
abbrev ChunkBegins (s : State) (es : List CodeEntry) : Prop :=
  (∀ e ∈ es, e ∈ codebook s) ∧
    ∀ b < (codewordBits es).length, bsBit s s.bspos.toNat b = (codewordBits es).getD b 0

/-- The words of `CM` from the base of descriptor `k` on hold the values `vs` in order, wrapped, `COUNT` is their number,
and every other word is as it was (R146, R235). -/
abbrev StoredFrom (s t : State) (k : Desc) (vs : List Int) : Prop :=
  t.count.toNat = vs.length ∧ (∀ n < vs.length, cmWord t (k.base.toNat + n) = wrap16 (vs.getD n 0)) ∧
    ∀ a, (∀ n < vs.length, a ≠ k.base.toNat + n) → cmWord t a = cmWord s a

/-- The values a list of pairs stands for: `DEQ(level, quant)`, `run` times each (R146). -/
abbrev pairValues (quant : Nat) (pairs : List CodeEntry) : List Int :=
  pairs.flatMap fun e => List.replicate e.run (deq e.level quant)

/-- What `CAP_RULE` gives for a band: `HEIGHT × STRIDE`, or `WIDTH × STRIDE` as far as `CM` reaches (R145, assumption 2). -/
abbrev capacityRule (s : State) (k : Desc) : Nat :=
  if s.cfg.capRule = .heightStride then heightOf k * strideOf k
  else min (widthOf k * strideOf k) (s.cfg.cmWords - k.base.toNat)

end Sys2Proof.Machine
end

