-- ==== Sys2Proof/Certificates/Slice0/Obligations.lean ====
section
/-! DEFINITION. The statements for the provers. Each docstring names the rule of spec/ it rests on. -/

open Sys2Proof Sys2Proof.Machine

/-! ## Encoding -/

/-- R92, R99: the decoder answers a command exactly on that command's word. -/
def Obligations.DecodeIffEncode : Prop :=
  ∀ (w : Word) (i : Instr), decode w = .ok i ↔ w = encode i

/-- R93: a word selects a row of the table by mask and match exactly when it decodes to a command of that row's
mnemonic. -/
def Obligations.DecodeSelectsTableRow : Prop :=
  ∀ (w : Word) (m : String),
    (∃ i, decode w = .ok i ∧ i.mnemonic = m) ↔ ∃ r ∈ opcodeRows, r.mnemonic = m ∧ w &&& r.mask = r.pattern

/-- 95_test_vectors.md V100 to V115: words written out from R91 and R93, legal and illegal. -/
def Obligations.SpecWordsDecode : Prop :=
  decode 0x00000000 = .ok .nop ∧ decode 0x00000001 = .error .nonzeroN ∧ decode 0x00200000 = .error .nonzeroN ∧
    decode 0x01000000 = .ok .deq ∧ decode 0x03000000 = .ok .lutb ∧ decode 0x05E00000 = .ok (.qntb 7) ∧
    decode 0x11200000 = .ok (.vld 1) ∧ decode 0x11240000 = .error .nonzeroD ∧
    decode 0x11200001 = .error .nonzeroD ∧ decode 0x20810000 = .ok (.vsyn 4 0 2) ∧
    decode 0x20FF8000 = .ok (.vsyn 7 7 7) ∧ decode 0x20814000 = .error .nonzeroT ∧
    decode 0x22F28000 = .ok (.hsync 7 4 5) ∧ decode 0x299A8000 = .ok (.hana 4 6 5) ∧
    decode 0x2AC00000 = .ok (.div4 6) ∧ decode 0x06000000 = .error .unassignedOpcode ∧
    decode 0x12000000 = .error .unassignedOpcode ∧ decode 0x24000000 = .error .unassignedOpcode ∧
    decode 0x2B000000 = .error .unassignedOpcode ∧
    decode 0xFFFFFFFF = .error .unassignedOpcode

/-- R96, R231, R236: a running word that selects no row of R93 raises `ERR_ILLCMD` and changes nothing else. -/
def Obligations.IllegalWordRaisesIllcmd : Prop :=
  ∀ (s : State) (w : Word), s.running = some w → (s.input = [] ∨ s.input.head? = some .wait) →
    commandWordOk w = false →
    step s = .next { s with err := true, errcode := 8, errinfo := w, running := none }

/-! ## The step -/

/-- R197: with a command word running and the host waiting or idle, the step is the meaning of the decoded command. The
step adds nothing around it. (That acceptance and execution are two steps is the model's choice, assumption 8.) -/
def Obligations.StepRunsDecodedCommand : Prop :=
  ∀ (s : State) (w : Word) (i : Instr), s.running = some w → (s.input = [] ∨ s.input.head? = some .wait) →
    decode w = .ok i → step s = exec i s

/-- R30: a word written to `CMD` with `BUSY = 0` and `ERR = 0` is accepted: `BUSY` rises, `DONE` falls, nothing else; and the
step after it, the host waiting, runs it (two steps: the model's choice, assumption 8). -/
def Obligations.CommandWriteIsAccepted : Prop :=
  ∀ (s : State) (w : Word) (rest : List HostEvent), s.running = none → s.err = false →
    s.input = .regWrite 4 0x10 w :: .wait :: rest →
    step s = .next { s with running := some w, done := false, input := .wait :: rest } ∧
      ∀ i, decode w = .ok i →
        step { s with running := some w, done := false, input := .wait :: rest } =
          exec i { s with running := some w, done := false, input := .wait :: rest }

/-- R30, R237: a write to `CMD` while `ERR = 1`, and any register write while `BUSY = 1` (R198, R272), changes nothing:
the host has made its move and that is all. -/
def Obligations.IgnoredWritesChangeNothing : Prop :=
  ∀ (s : State) (bytes off : Nat) (v : Word) (rest : List HostEvent), s.input = .regWrite bytes off v :: rest →
    (s.running = none → s.err = true → bytes = 4 → off = 0x10 → step s = .next { s with input := rest }) ∧
      (∀ w, s.running = some w → step s = .next { s with input := rest })

/-- R196: `NOP`. In every state it completes and changes only `BUSY` and `DONE`. Written to `CMD` of an idle block without
an error it leaves, two steps later (the model's choice, assumption 8), only `DONE` set; while `ERR = 1` or `BUSY = 1` the
write is ignored; and no other word with `opc = 0x00` is a command. -/
def Obligations.NopLifeCycle : Prop :=
  (∀ s : State, exec .nop s = .next { s with running := none, done := true }) ∧
    (∀ (s : State) (rest : List HostEvent), s.input = .regWrite 4 0x10 0 :: .wait :: rest →
      (s.running = none → s.err = false →
        ∃ t, step s = .next t ∧ t = { s with running := some 0, done := false, input := .wait :: rest } ∧
          step t = .next { s with done := true, input := .wait :: rest }) ∧
      (s.running = none → s.err = true → step s = .next { s with input := .wait :: rest }) ∧
      (∀ w, s.running = some w → step s = .next { s with input := .wait :: rest })) ∧
    ∀ w : Word, opcOf w = 0 → ∀ i, decode w = .ok i → w = 0 ∧ i = .nop

/-- R275, R236, R197: every command ends, in completion (`DONE` set, `ERR` as it was) or in an error (`ERR` set, `DONE` as
it was), with `BUSY` low. -/
def Obligations.EveryCommandEnds : Prop :=
  ∀ (i : Instr) (s : State), ∃ t, exec i s = .next t ∧ t.running = none ∧
    ((t.done = true ∧ t.err = s.err ∧ t.errcode = s.errcode ∧ t.errinfo = s.errinfo) ∨
      (t.err = true ∧ t.done = s.done ∧ t.errinfo = encode i))

/-- R22, R31 to R36, R38, R39, R276: the frame of every command. None writes a descriptor, a host register, `BS`, the
parameters, or what is the host's; `BSPOS` and `COUNT` are written by `LPLD` and `VLD` only, `RES` by `DEQ`, `QNT`, `LUTR`
only, `LUT` and `LUTV` by `LUTB` only, `CM` by the nine commands of R60 only. -/
def Obligations.CommandRegisterFrame : Prop :=
  ∀ (i : Instr) (s t : State), exec i s = .next t →
    (t.d = s.d ∧ t.quant = s.quant ∧ t.cbsel = s.cbsel ∧ t.bpc = s.bpc ∧ t.bslen = s.bslen ∧ t.arg = s.arg ∧
      t.ieDone = s.ieDone ∧ t.ieErr = s.ieErr ∧ t.bs = s.bs ∧ t.cfg = s.cfg ∧ t.input = s.input ∧
      t.hostData = s.hostData ∧ t.free = s.free) ∧
      ((∀ rd, i ≠ .lpld rd ∧ i ≠ .vld rd) → t.bspos = s.bspos ∧ t.count = s.count) ∧
      (i ≠ .deq → i ≠ .qnt → i ≠ .lutr → t.res = s.res) ∧
      (i ≠ .lutb → t.lut = s.lut ∧ t.lutv = s.lutv) ∧
      ((i = .nop ∨ i = .deq ∨ i = .qnt ∨ i = .lutb ∨ i = .lutr ∨ ∃ rd ra rb, i = .hsync rd ra rb) → t.cm = s.cm)

/-- R217, R60: `DM` is written by `HSYNC` only, and by no command that ends in error. -/
def Obligations.ImageWrittenOnlyBySuccessfulHsync : Prop :=
  ∀ (i : Instr) (s t : State), exec i s = .next t →
    ((∀ rd ra rb, i ≠ .hsync rd ra rb) → t.dm = s.dm) ∧ (s.err = false → t.err = true → t.dm = s.dm)

/-- R232, R235, R236: a command that ends in error raises a code of its row of R232 and puts its word into `ERRINFO`. It
changes besides only `ERR` and `BUSY`, unless it is `VLD` and the error is one of its chunk: then positions 0 to `COUNT - 1`
hold the values of the pairs whose codewords lie before the error, the rest of `CM` is unchanged, and `OVF` is set exactly
when one of these values does not fit or it was set. For every decode table. -/
def Obligations.CommandErrorsAsRuled : Prop :=
  ∀ (i : Instr) (s t : State), s.err = false → exec i s = .next t → t.err = true →
    t.errcode.toNat ∈ mayRaise i ∧
      ((∀ rd, i = .vld rd → t.errcode = 2 ∨ t.errcode = 9) →
        t = { s with err := true, errcode := t.errcode, errinfo := encode i, running := none }) ∧
      ∀ rd, i = .vld rd → t.errcode ≠ 2 → t.errcode ≠ 9 →
        ∃ pairs, (∀ e ∈ pairs, e.esc = false) ∧ ChunkBegins s pairs ∧
          (codewordBits pairs).length ≤ 8 * (s.bslen.toNat - s.bspos.toNat) ∧
          StoredFrom s t (desc s rd) (pairValues s.quant.toNat pairs) ∧
          t = { s with err := true, errcode := t.errcode, errinfo := encode i, running := none, cm := t.cm,
                       count := t.count,
                       ovf := s.ovf || (pairValues s.quant.toNat pairs).any (fun v => !fits16 v) }

/-! ## The invariant -/

/-- R78, R28 to R30, R39, U13, R14: every step keeps the invariant, whatever the parameters and the memories hold, and no
step changes a parameter. -/
def Obligations.StepKeepsMachineInvariant : Prop :=
  ∀ s t : State, step s = .next t → t.cfg = s.cfg ∧ (Inv s → Inv t)

/-- R43, R8, R37: the machine right after reset meets the invariant, and its parameters are admissible ones, `CAP_RULE` and
`QCLIP` those R8 gives. -/
def Obligations.ResetMeetsMachineInvariant : Prop :=
  Inv State.reset ∧ State.reset.cfg.wf = true ∧ State.reset.cfg.capRule = .heightStride ∧
    State.reset.cfg.qclip = .tenBit

/-! ## Reset -/

/-- R43: what the reset table gives: every register, flag and descriptor field is 0, and nothing is written in the
memories or the `LUT` (the model's reading of "unspecified", assumptions 5 and 6). -/
def Obligations.ResetStateIsTheTable : Prop :=
  (∀ r : Reg, getReg State.reset r = 0) ∧ irq State.reset = false ∧ State.reset.cm = [] ∧ State.reset.dm = [] ∧
    State.reset.bs = [] ∧ State.reset.lut = []

/-- R262, R260: with `BUSY = 0`, a write to `CTRL` with bit 0 set, and the reset input, put every register and descriptor
to 0 and keep the memories, the `LUT` words and the parameters; the other bits of that `CTRL` write are discarded
(R26). -/
def Obligations.IdleResetClearsRegisters : Prop :=
  ∀ (s : State) (rest : List HostEvent) (e : HostEvent), s.running = none → s.input = e :: rest → isReset e = true →
    ∃ t, step s = .next t ∧ (∀ r : Reg, getReg t r = 0) ∧ t.running = none ∧ irq t = false ∧
      t.cm = s.cm ∧ t.dm = s.dm ∧ t.bs = s.bs ∧ t.lut = s.lut ∧ t.cfg = s.cfg ∧ t.input = rest ∧
      t.hostData = s.hostData ∧ t.free = s.free

/-- R261: a hard reset while a command runs clears the registers; each word of `CM` and `DM` holds its old value or the
one the command would have left; `BS` and, but for an abandoned `LUTB`, the `LUT` words are kept. For every value of the
free choice (assumption 13). -/
def Obligations.HardResetAbandonsCommand : Prop :=
  ∀ (s : State) (w : Word) (i : Instr) (rest : List HostEvent), s.running = some w → decode w = .ok i →
    s.input = .hardReset :: rest →
    ∃ t u, step s = .next t ∧ exec i { s with input := rest } = .next u ∧ (∀ r : Reg, getReg t r = 0) ∧
      t.running = none ∧ (∀ a, cmWord t a = cmWord s a ∨ cmWord t a = cmWord u a) ∧
      (∀ a, dmWord t a = dmWord s a ∨ dmWord t a = dmWord u a) ∧ t.bs = s.bs ∧ t.cfg = s.cfg ∧
      (i ≠ .lutb → t.lut = s.lut) ∧ t.input = rest

/-- R263: with every register and descriptor as after reset, `NOP`, `DEQ` (`RES = 0`) and `LUTB` succeed, `QNT` and `QNTB`
raise `ERR_QUANT0`, `LUTR` raises `ERR_LUTINV`, `HSYNC` raises `UnsupportedFeature`, every other command that names a
descriptor raises `InvalidSubbandDimensions`; so no memory is touched. -/
def Obligations.FirstCommandsAfterReset : Prop :=
  ∀ (i : Instr) (s : State), (∀ r : Reg, r ≠ .status → getReg s r = 0) → s.lutv = false → s.err = false →
    ∃ t, exec i s = .next t ∧ t.cm = s.cm ∧ t.dm = s.dm ∧ t.bs = s.bs ∧
      match i with
      | .nop | .lutb => t.done = true ∧ t.err = false
      | .deq => t.done = true ∧ t.err = false ∧ t.res = 0
      | .qnt | .qntb _ => t.err = true ∧ t.errcode = 12
      | .lutr => t.err = true ∧ t.errcode = 11
      | .hsync _ _ _ => t.err = true ∧ t.errcode = 7
      | .lpld _ | .vld _ | .vsyn _ _ _ | .hsyn _ _ _ | .shl2 _ | .vana _ _ _ | .hana _ _ _ | .div4 _ =>
        t.err = true ∧ t.errcode = 2

/-! ## Registers -/

/-- R23, R25, R44: a register the host writes without side effect reads back the written value in the bits it keeps, and
no other register changes. -/
def Obligations.PlainRegisterReadsBack : Prop :=
  ∀ (s : State) (r : Reg) (off : Nat) (v : Word) (rest : List HostEvent), plainReg r = true →
    regOf 4 off = some r → s.running = none → s.input = .regWrite 4 off v :: rest →
    ∃ t, step s = .next t ∧ getReg t r = v &&& readableBits r ∧ (∀ q, q ≠ r → getReg t q = getReg s q) ∧
      t.cm = s.cm ∧ t.dm = s.dm ∧ t.bs = s.bs ∧ t.lut = s.lut ∧ t.input = rest

/-- R44: with `BUSY = 0` reserved bits of every register read 0 and ignore writes; busy or not, an unmapped offset reads 0
and ignores writes, and no error is raised. -/
def Obligations.ReservedBitsInert : Prop :=
  (∀ (s : State) (r : Reg) (off : Nat) (v : Word) (rest : List HostEvent), regOf 4 off = some r → s.running = none →
      (s.input = .regRead 4 off :: rest → ∃ t, step s = .next t ∧ t.hostData &&& ~~~readableBits r = 0) ∧
        (s.input = .regWrite 4 off v :: rest →
          step s = step { s with input := .regWrite 4 off (v &&& writableBits r) :: rest })) ∧
    ∀ (s : State) (off : Nat) (v : Word) (rest : List HostEvent), regAt off = none →
      (s.input = .regWrite 4 off v :: rest → step s = .next { s with input := rest }) ∧
        (s.input = .regRead 4 off :: rest → step s = .next { s with input := rest, hostData := 0 })

/-- R73: a register access of another width, or at an offset that is no multiple of 4, does nothing: the write is ignored,
the read returns 0, no error is raised, busy or not. -/
def Obligations.NarrowOrUnalignedAccessInert : Prop :=
  ∀ (s : State) (bytes off : Nat) (v : Word) (rest : List HostEvent), (bytes ≠ 4 ∨ off % 4 ≠ 0) →
    (s.input = .regWrite bytes off v :: rest → step s = .next { s with input := rest }) ∧
      (s.input = .regRead bytes off :: rest → step s = .next { s with input := rest, hostData := 0 })

/-- R75, U8, H1: while `BUSY = 1` a read of `STATUS` answers with bit 0 set, and a read of another register changes nothing
the block holds, whatever it answers; a host access to `CM`, `DM` or `BS` has no move in the model (assumption 12). -/
def Obligations.HostActionsWhileBusy : Prop :=
  ∀ (s : State) (w : Word) (e : HostEvent) (rest : List HostEvent), s.running = some w → s.input = e :: rest →
    (∀ off r, regOf 4 off = some r → e = .regRead 4 off →
      ∃ t, step s = .next t ∧ t = { s with input := rest, hostData := t.hostData, free := t.free } ∧
        (r = .status → t.hostData = statusWord s ∧ t.hostData.getLsbD 0 = true ∧ t.free = s.free)) ∧
      ((∃ a x y, e = .cmWrite a x ∨ e = .cmRead a ∨ e = .dmWrite a x ∨ e = .dmRead a ∨ e = .bsWrite a y ∨
          e = .bsRead a) → step s = .refused .hostMemoryWhileBusy)

/-- R71, R75, R100, R202: with `BUSY = 0` reading a register or a unit of `CM`, `DM` or `BS` answers its value (in `hostData`, the
model's own field, assumption 15) and has no other effect; a host write to an existing unit is what every later read of
that unit sees, and no other unit changes; the end of a `WAIT` is a read of `STATUS` with `BUSY` clear. -/
def Obligations.HostAccessesWhileIdle : Prop :=
  ∀ (s : State) (e : HostEvent) (rest : List HostEvent), s.running = none → s.input = e :: rest →
    (∀ off r, regOf 4 off = some r → e = .regRead 4 off →
      step s = .next { s with input := rest, hostData := getReg s r }) ∧
      (e = .wait → ∃ t, step s = .next t ∧ t = { s with input := rest, hostData := getReg s .status } ∧
        t.hostData.getLsbD 0 = false) ∧
      (∀ a, a < s.cfg.cmWords →
        (e = .cmRead a → step s = .next { s with input := rest, hostData := (cmWord s a).setWidth 32 }) ∧
          ∀ v, e = .cmWrite a v → ∃ t, step s = .next t ∧ t = { s with input := rest, cm := t.cm } ∧
            cmWord t a = v ∧ ∀ b, b ≠ a → cmWord t b = cmWord s b) ∧
      (∀ a, a < s.cfg.dmWords →
        (e = .dmRead a → step s = .next { s with input := rest, hostData := (dmWord s a).setWidth 32 }) ∧
          ∀ v, e = .dmWrite a v → ∃ t, step s = .next t ∧ t = { s with input := rest, dm := t.dm } ∧
            dmWord t a = v ∧ ∀ b, b ≠ a → dmWord t b = dmWord s b) ∧
      ∀ a, a < s.cfg.bsBytes →
        (e = .bsRead a → step s = .next { s with input := rest, hostData := (bsByte s a).setWidth 32 }) ∧
          ∀ v, e = .bsWrite a v → ∃ t, step s = .next t ∧ t = { s with input := rest, bs := t.bs } ∧
            bsByte t a = v ∧ ∀ b, b ≠ a → bsByte t b = bsByte s b

/-- R200: a write to `STATUS` with bit 1 set clears `DONE` and changes no other bit; without bit 1 it changes nothing;
acceptance of the next command clears `DONE` too. -/
def Obligations.AcknowledgeClearsDone : Prop :=
  ∀ (s : State) (v w : Word) (rest : List HostEvent), s.running = none →
    (s.input = .regWrite 4 0x04 v :: rest →
      step s = .next { s with input := rest, done := s.done && !v.getLsbD 1 }) ∧
      (s.err = false → s.input = .regWrite 4 0x10 w :: rest → ∃ t, step s = .next t ∧ t.done = false)

/-- R201, R241: a write to `CTRL` with bit 0 clear sets the two interrupt enables, and the line then follows them; after a
command accepted with `DONE` and `ERR` clear, the line is high exactly for an enabled completion or an enabled error. -/
def Obligations.InterruptLine : Prop :=
  (∀ (s : State) (v : Word) (rest : List HostEvent), s.running = none → v.getLsbD 0 = false →
      s.input = .regWrite 4 0x00 v :: rest →
      ∃ t, step s = .next t ∧ t = { s with input := rest, ieDone := v.getLsbD 1, ieErr := v.getLsbD 2 } ∧
        (irq t = true ↔ (v.getLsbD 1 = true ∧ s.done = true) ∨ (v.getLsbD 2 = true ∧ s.err = true))) ∧
    ∀ (i : Instr) (s t : State), s.done = false → s.err = false → exec i s = .next t →
      (irq t = true ↔ (s.ieDone = true ∧ t.err = false) ∨ (s.ieErr = true ∧ t.err = true))

/-- R27, R237, R278: the sticky bits. Whatever the step, unless it is a reset, `OVF`, `LUTV` and `ERR` once set stay set;
and from `ERR = 1` with `BUSY = 0` no command starts and `ERRCODE` and `ERRINFO` keep the first error. -/
def Obligations.StickyUntilReset : Prop :=
  ∀ s t : State, resetsNext s = false → step s = .next t →
    (s.ovf = true → t.ovf = true) ∧ (s.lutv = true → t.lutv = true) ∧ (s.err = true → t.err = true) ∧
      (s.err = true → s.running = none →
        t.errcode = s.errcode ∧ t.errinfo = s.errinfo ∧ t.running = none)

/-! ## Scalar commands -/

/-- R123, R121, R122: `DEQ` completes in every state: `RES` is the wrapped product, `OVF` is set exactly when it does not
fit 32 bits or was set, nothing else changes but `BUSY` and `DONE`. -/
def Obligations.DeqResult : Prop :=
  decode 0x01000000 = .ok .deq ∧ ∀ s : State, ∃ x : Int,
    x = s.arg.toInt.sign * s.quant.toNat *
        (|s.arg.toInt| + 768 * |s.arg.toInt| ^ 3 / 16581375) ∧
      exec .deq s =
        .next { s with res := BitVec.ofInt 32 x,
                       ovf := s.ovf || !decide (-2 ^ 31 ≤ x ∧ x ≤ 2 ^ 31 - 1),
                       running := none, done := true }

/-- R129: `DEQ` is odd, 0 at 0, strictly increasing in the signed level for `quant ≥ 1`, identically 0 for `quant = 0`, and
bounded by 67042305 for `|level| ≤ 255` and `quant ≤ 65535`, where it fits 16 bits exactly as the magnitude says. -/
def Obligations.DeqOddAndMonotone : Prop :=
  (∀ (l : Int) (q : Nat), deq (-l) q = -deq l q) ∧ (∀ q, deq 0 q = 0) ∧
    (∀ (q : Nat) (l m : Int), 1 ≤ q → l < m → deq l q < deq m q) ∧ (∀ l, deq l 0 = 0) ∧
    ∀ (l : Int) (q : Nat), |l| ≤ 255 → q ≤ 65535 →
      |deq l q| ≤ 67042305 ∧ fits32 (deq l q) = true ∧
        (fits16 (deq l q) = true ↔ q * compand l.natAbs ≤ if l < 0 then 32768 else 32767)

/-- R125, R124: `QNT` with `QUANT` not 0 completes: `RES` is the truncated quotient, clipped to `QCLIP`; nothing else
changes but `BUSY` and `DONE`. With `QUANT = 0` it raises `ERR_QUANT0`. -/
def Obligations.QntResult : Prop :=
  decode 0x02000000 = .ok .qnt ∧ ∀ s : State,
    (s.quant ≠ 0 →
      ∃ x : Int,
        x = max (if s.cfg.qclip = .tenBit then -512 else -1024) (min (if s.cfg.qclip = .tenBit then 511 else 1023)
              ((s.arg.toInt * (32768 / s.quant.toNat : Nat) + 16384 * s.arg.toInt.sign).tdiv 32768)) ∧
          exec .qnt s = .next { s with res := BitVec.ofInt 32 x, running := none, done := true }) ∧
      (s.quant = 0 →
        exec .qnt s = .next { s with err := true, errcode := 12, errinfo := 0x02000000, running := none })

/-- R124: `QNT(c, 1)` is `c` clipped to `QCLIP` (R8's range or the alternative on record), and `QNT` is 0 for
`quant > 32768`. -/
def Obligations.QntIdentityAtOne : Prop :=
  (∀ c : Int, qntValue .tenBit c 1 = max (-512) (min 511 c) ∧ qntValue .elevenBit c 1 = max (-1024) (min 1023 c)) ∧
    ∀ (r : Config.QClip) (c : Int) (q : Nat), 32768 < q → qntValue r c q = 0

/-- R127: `LUTB` completes in every state; entry `i` of the `LUT` is the largest symbol whose expansion does not exceed
`i`; `LUTV` is set; nothing else changes but `BUSY` and `DONE`. -/
def Obligations.LutbBuildsFloorInverse : Prop :=
  decode 0x03000000 = .ok .lutb ∧ ∀ s : State, ∃ t, exec .lutb s = .next t ∧
    t = { s with lut := t.lut, lutv := true, running := none, done := true } ∧
      ∀ i < 1024, IsGreatest { x : Nat | x ≤ 255 ∧ compand x ≤ i } (lutEntry t i).toNat

/-- R128: `LUTR` with `LUTV = 1` and an index in 0..1023 completes with the entry in `RES`; with `LUTV = 0` it raises
`ERR_LUTINV`; else, with an index outside, `ERR_RANGE`. -/
def Obligations.LutrReadsEntry : Prop :=
  decode 0x04000000 = .ok .lutr ∧ ∀ s : State,
    (s.lutv = true → 0 ≤ s.arg.toInt → s.arg.toInt ≤ 1023 →
        exec .lutr s = .next { s with res := (lutEntry s s.arg.toInt.toNat).setWidth 32, running := none,
                                      done := true }) ∧
      (s.lutv = false →
        exec .lutr s = .next { s with err := true, errcode := 11, errinfo := 0x04000000, running := none }) ∧
      (s.lutv = true → (s.arg.toInt < 0 ∨ 1023 < s.arg.toInt) →
        exec .lutr s = .next { s with err := true, errcode := 9, errinfo := 0x04000000, running := none })

/-- R130: the laws that tie `DEQ`, `QNT` and the table `LUTB` leaves together, the symbols they hold for, and the first
symbol that fails for factor 100, which is no power of two. For either `QCLIP`. -/
def Obligations.CompanderRoundTrip : Prop :=
  (∀ s t : State, exec .lutb s = .next t →
    (∀ x : Nat, x ≤ 255 → (lutEntry t (compand x)).toNat = x) ∧
      ∀ (r : Config.QClip) (j x : Nat), j ≤ 15 → x ≤ 190 →
        qntValue r (deq x (2 ^ j)) (2 ^ j) = compand x ∧ qntValue r (deq (-x) (2 ^ j)) (2 ^ j) = -compand x ∧
          (lutEntry t (qntValue r (deq x (2 ^ j)) (2 ^ j)).natAbs).toNat = x ∧
          (lutEntry t (qntValue r (deq (-x) (2 ^ j)) (2 ^ j)).natAbs).toNat = x) ∧
    (∀ x : Nat, x ≤ 255 → (compand x ≤ 511 ↔ x ≤ 190)) ∧
    ∀ r : Config.QClip, qntValue r (deq 133 100) 100 ≠ compand 133 ∧
      ∀ x : Nat, x < 133 → qntValue r (deq x 100) 100 = compand x

/-! ## Band commands in place -/

/-- R126: `QNTB` with `QUANT` not 0 on a valid band completes; each element of the declared extent is quantized; every
other word, and everything else but `BUSY` and `DONE`, is unchanged. -/
def Obligations.QntbResult : Prop :=
  ∀ (s : State) (rd : DescNum), s.quant ≠ 0 → BandReady s rd →
    ∃ t, exec (.qntb rd) s = .next t ∧ t = { s with cm := t.cm, running := none, done := true } ∧
      (∀ r c, r < heightOf (desc s rd) → c < widthOf (desc s rd) →
        cmInt t (elemAddr (desc s rd) r c) =
          qntValue s.cfg.qclip (cmInt s (elemAddr (desc s rd) r c)) s.quant.toNat) ∧
      ∀ a, ¬InRect (desc s rd) (widthOf (desc s rd)) (heightOf (desc s rd)) a → cmWord t a = cmWord s a

/-- R168: `SHL2` on a valid band completes; each element of the declared extent is 4 times what it was, wrapped; `OVF` is
set exactly when one does not fit or it was set; every other word is unchanged. -/
def Obligations.ShlResult : Prop :=
  ∀ (s : State) (rd : DescNum), BandReady s rd →
    ∃ t, exec (.shl2 rd) s = .next t ∧
      t = { s with cm := t.cm, ovf := t.ovf, running := none, done := true } ∧
      (∀ r c, r < heightOf (desc s rd) → c < widthOf (desc s rd) →
        cmWord t (elemAddr (desc s rd) r c) = wrap16 (4 * cmInt s (elemAddr (desc s rd) r c))) ∧
      (t.ovf = true ↔ s.ovf = true ∨ ∃ r c, r < heightOf (desc s rd) ∧ c < widthOf (desc s rd) ∧
        (cmInt s (elemAddr (desc s rd) r c) < -8192 ∨ 8191 < cmInt s (elemAddr (desc s rd) r c))) ∧
      ∀ a, ¬InRect (desc s rd) (widthOf (desc s rd)) (heightOf (desc s rd)) a → cmWord t a = cmWord s a

/-- R186: `DIV4` on a valid band completes; each element of the declared extent becomes `DIV4` of it: exactly a quarter of
a multiple of 4, and within `|x|/4 + 1` whatever the open rounding; every other word is unchanged. -/
def Obligations.QuarterResult : Prop :=
  ∀ (s : State) (rd : DescNum), BandReady s rd →
    ∃ t, exec (.div4 rd) s = .next t ∧ t = { s with cm := t.cm, running := none, done := true } ∧
      (∀ r c, r < heightOf (desc s rd) → c < widthOf (desc s rd) →
        cmInt t (elemAddr (desc s rd) r c) = div4Value s.cfg.div4 (cmInt s (elemAddr (desc s rd) r c)) ∧
          (∀ m, cmInt s (elemAddr (desc s rd) r c) = 4 * m → cmInt t (elemAddr (desc s rd) r c) = m) ∧
          |cmInt t (elemAddr (desc s rd) r c)| ≤ |cmInt s (elemAddr (desc s rd) r c)| / 4 + 1) ∧
      ∀ a, ¬InRect (desc s rd) (widthOf (desc s rd)) (heightOf (desc s rd)) a → cmWord t a = cmWord s a

/-- R186: `DIV4` after `SHL2` on the same band is the identity on `CM` when `SHL2` did not overflow, whatever the open
rounding. -/
def Obligations.QuarterUndoesShl : Prop :=
  ∀ (s t u : State) (rd : DescNum), exec (.shl2 rd) s = .next t → t.err = false → t.ovf = false →
    exec (.div4 rd) t = .next u → u.err = false ∧ ∀ a, cmWord u a = cmWord s a

/-- R126, R168, R186, R233: where the commands on one band trap: an invalid descriptor raises
`InvalidSubbandDimensions`, a valid one whose footprint leaves `CM` raises `ERR_RANGE`, and `QNTB` with `QUANT = 0` raises
`ERR_QUANT0` before either. -/
def Obligations.BandCommandTraps : Prop :=
  ∀ (s : State) (rd : DescNum) (i : Instr), (i = .qntb rd ∨ i = .shl2 rd ∨ i = .div4 rd) →
    (i = .qntb rd → s.quant = 0 →
        exec i s = .next { s with err := true, errcode := 12, errinfo := encode i, running := none }) ∧
      ((i = .qntb rd → s.quant ≠ 0) →
        (dimsOk (desc s rd) = false →
          exec i s = .next { s with err := true, errcode := 2, errinfo := encode i, running := none }) ∧
        (dimsOk (desc s rd) = true → s.cfg.cmWords < footprintEnd (desc s rd) →
          exec i s = .next { s with err := true, errcode := 9, errinfo := encode i, running := none }))

/-! ## Bitstream commands -/

/-- R142, R98, R64: `LPLD` of a valid band with a block inside the window completes: value `r·W + c`, high byte first, is at
row `r`, column `c`; an odd height gets its last row once more; `BSPOS` is the aligned end, `COUNT` is `W·H`; every other
word is unchanged. -/
def Obligations.LpldResult : Prop :=
  ∀ (s : State) (rd : DescNum), BandReady s rd → WindowReady s →
    (heightOf (desc s rd) % 2 = 1 → heightOf (desc s rd) + 1 ≤ aheightOf (desc s rd)) →
    align4 (s.bspos.toNat + 2 * (widthOf (desc s rd) * heightOf (desc s rd))) ≤ s.bslen.toNat →
    ∃ t, exec (.lpld rd) s = .next t ∧
      t = { s with cm := t.cm, bspos := t.bspos, count := t.count, running := none, done := true } ∧
      t.bspos.toNat = align4 (s.bspos.toNat + 2 * (widthOf (desc s rd) * heightOf (desc s rd))) ∧
      t.count.toNat = widthOf (desc s rd) * heightOf (desc s rd) ∧
      (∀ r c, r < heightOf (desc s rd) + heightOf (desc s rd) % 2 → c < widthOf (desc s rd) →
        (cmWord t (elemAddr (desc s rd) r c)).toNat =
          (bsByte s (s.bspos.toNat + 2 * (min r (heightOf (desc s rd) - 1) * widthOf (desc s rd) + c))).toNat * 256 +
            (bsByte s (s.bspos.toNat + 2 * (min r (heightOf (desc s rd) - 1) * widthOf (desc s rd) + c) + 1)).toNat) ∧
      ∀ a, ¬InRect (desc s rd) (widthOf (desc s rd)) (heightOf (desc s rd) + heightOf (desc s rd) % 2) a →
        cmWord t a = cmWord s a

/-- R142, R233: where `LPLD` traps, in the order of its checks, each error leaving all but `ERR`, `ERRCODE`, `ERRINFO` and
`BUSY` as it was. -/
def Obligations.LpldTraps : Prop :=
  ∀ (s : State) (rd : DescNum),
    let trap := fun (c : BitVec 8) =>
      exec (.lpld rd) s = .next { s with err := true, errcode := c, errinfo := encode (.lpld rd), running := none }
    let badDims := dimsOk (desc s rd) = false ∨
      (heightOf (desc s rd) % 2 = 1 ∧ aheightOf (desc s rd) = heightOf (desc s rd))
    (badDims → trap 2) ∧
      (¬badDims → (¬(footprintEnd (desc s rd) ≤ s.cfg.cmWords) ∨ ¬WindowReady s) → trap 9) ∧
      (¬badDims → footprintEnd (desc s rd) ≤ s.cfg.cmWords → WindowReady s →
        s.bslen.toNat < align4 (s.bspos.toNat + 2 * (widthOf (desc s rd) * heightOf (desc s rd))) → trap 4)

/-- R97, R145, R146, R144: `VLD` decodes a chunk. When the bits at `BSPOS` are the codewords of some pairs and then an escape,
the pairs fit the capacity (for its alternative value see assumption 2) and the padded chunk lies in the window, `VLD`
completes: position `n` holds the wrapped value of the pair that covers it, `OVF` is set exactly when a value stored does
not fit or it was set, `BSPOS` is the aligned end, `COUNT` the number of positions, every other word is unchanged. For every
admissible decode table. -/
def Obligations.VldDecodesChunk : Prop :=
  ∀ (s : State) (rd : DescNum) (pairs : List CodeEntry) (stop : CodeEntry), s.cfg.wf = true → BandReady s rd →
    WindowReady s → ChunkBegins s (pairs ++ [stop]) → (∀ e ∈ pairs, e.esc = false) → stop.esc = true →
    (pairs.map CodeEntry.run).sum ≤ capacityRule s (desc s rd) →
    align4 (s.bspos.toNat + ceil8 (codewordBits (pairs ++ [stop])).length) ≤ s.bslen.toNat →
    ∃ (t : State) (vs : List Int), vs = pairValues s.quant.toNat pairs ∧ exec (.vld rd) s = .next t ∧
      t = { s with cm := t.cm, ovf := s.ovf || vs.any (fun v => !fits16 v), bspos := t.bspos, count := t.count,
                   running := none, done := true } ∧
      t.bspos.toNat = align4 (s.bspos.toNat + ceil8 (codewordBits (pairs ++ [stop])).length) ∧
      StoredFrom s t (desc s rd) vs

/-- R145, R146, R151: `EscapeNotFound`. When the next pair would exceed the capacity (for its alternative value see
assumption 2), the positions before it are stored and counted, that pair is not stored, `BSPOS` is unchanged. -/
def Obligations.VldRefusesToExceedCapacity : Prop :=
  ∀ (s : State) (rd : DescNum) (pairs : List CodeEntry) (e : CodeEntry), s.cfg.wf = true → BandReady s rd →
    WindowReady s → ChunkBegins s (pairs ++ [e]) → (∀ f ∈ pairs, f.esc = false) → e.esc = false →
    (pairs.map CodeEntry.run).sum ≤ capacityRule s (desc s rd) →
    capacityRule s (desc s rd) < (pairs.map CodeEntry.run).sum + e.run →
    (codewordBits (pairs ++ [e])).length ≤ 8 * (s.bslen.toNat - s.bspos.toNat) →
    ∃ (t : State) (vs : List Int), vs = pairValues s.quant.toNat pairs ∧ exec (.vld rd) s = .next t ∧
      t = { s with cm := t.cm, ovf := s.ovf || vs.any (fun v => !fits16 v), count := t.count, err := true,
                   errcode := 3, errinfo := encode (.vld rd), running := none } ∧
      StoredFrom s t (desc s rd) vs

/-- R140, R144, R146, R151: where `VLD` traps, in the order of its checks, with nothing changed but `ERR`, `ERRCODE`,
`ERRINFO` and `BUSY`; and where its chunk is overread, in a codeword or in its padding, with the pairs before stored and
counted. -/
def Obligations.VldTraps : Prop :=
  ∀ (s : State) (rd : DescNum),
    let trap := fun (c : BitVec 8) =>
      exec (.vld rd) s = .next { s with err := true, errcode := c, errinfo := encode (.vld rd), running := none }
    let avail := 8 * (s.bslen.toNat - s.bspos.toNat)
    (dimsOk (desc s rd) = false → trap 2) ∧
      (dimsOk (desc s rd) = true → (¬(footprintEnd (desc s rd) ≤ s.cfg.cmWords) ∨ ¬WindowReady s) → trap 9) ∧
      ∀ pairs : List CodeEntry, s.cfg.wf = true → BandReady s rd → WindowReady s → (∀ e ∈ pairs, e.esc = false) →
        ChunkBegins s pairs → (codewordBits pairs).length ≤ avail →
        (pairs.map CodeEntry.run).sum ≤ capacityRule s (desc s rd) →
        ((∀ e ∈ codebook s, ChunkBegins s (pairs ++ [e]) → avail < (codewordBits (pairs ++ [e])).length) ∨
          ∃ stop, stop.esc = true ∧ ChunkBegins s (pairs ++ [stop]) ∧
            (codewordBits (pairs ++ [stop])).length ≤ avail ∧
            s.bslen.toNat < align4 (s.bspos.toNat + ceil8 (codewordBits (pairs ++ [stop])).length)) →
        ∃ t, exec (.vld rd) s = .next t ∧
          t = { s with cm := t.cm, ovf := s.ovf || (pairValues s.quant.toNat pairs).any (fun v => !fits16 v),
                       count := t.count, err := true, errcode := 4, errinfo := encode (.vld rd), running := none } ∧
          StoredFrom s t (desc s rd) (pairValues s.quant.toNat pairs)

/-- R151, S3: a chunk that `VLD` decodes, cut at any byte before its padded end by a smaller `BSLEN`, raises
`BitstreamOverread`, `BSPOS` unchanged. For every decode table, admissible or not. -/
def Obligations.VldTruncatedChunkOverreads : Prop :=
  ∀ (s t : State) (rd : DescNum) (cut : Word), exec (.vld rd) s = .next t → t.err = false →
    s.bspos.toNat ≤ cut.toNat → cut.toNat < t.bspos.toNat →
    ∃ u, exec (.vld rd) { s with bslen := cut } = .next u ∧ u.err = true ∧ u.errcode = 4 ∧
      u.errinfo = encode (.vld rd) ∧ u.bspos = s.bspos

/-- R147, R37: with an admissible (complete) decode table no bit pattern goes unmatched: `VLD` never raises
`ERR_BADCODE`. -/
def Obligations.CompleteTableNeverBadcode : Prop :=
  ∀ (s t : State) (rd : DescNum), s.cfg.wf = true → s.err = false → exec (.vld rd) s = .next t → t.err = true →
    t.errcode ≠ 13

/-- R140, R145, R149, R235, R69: whatever the chunk, `VLD` writes no word but the first `COUNT` positions of the band, at
most its capacity (for its alternative value see assumption 2), all of them inside `CM`; on success `BSPOS` becomes a multiple of 4 not beyond `BSLEN`, on error it keeps its value, and an error of the
checks leaves `CM`, `COUNT` and `OVF` as they were. -/
def Obligations.VldStaysInBand : Prop :=
  ∀ (s t : State) (rd : DescNum), s.err = false → exec (.vld rd) s = .next t →
    (t.err = true ∧ t.cm = s.cm ∧ t.count = s.count ∧ t.ovf = s.ovf ∧ t.bspos = s.bspos ∧
        (t.errcode = 2 ∨ t.errcode = 9) ∧ ¬(BandReady s rd ∧ WindowReady s)) ∨
      (BandReady s rd ∧ WindowReady s ∧ t.count.toNat ≤ capacityRule s (desc s rd) ∧
        (desc s rd).base.toNat + capacityRule s (desc s rd) ≤ s.cfg.cmWords ∧
        (∀ a, (∀ n < t.count.toNat, a ≠ (desc s rd).base.toNat + n) → cmWord t a = cmWord s a) ∧
        (t.err = true → t.bspos = s.bspos ∧ (t.errcode = 3 ∨ t.errcode = 4 ∨ t.errcode = 13)) ∧
        (t.err = false → t.bspos.toNat % 4 = 0 ∧ s.bspos.toNat ≤ t.bspos.toNat ∧
          t.bspos.toNat ≤ s.bslen.toNat))

/-! ## The lifting kernels -/

/-- R161, R163 (a): the second predictor is the first one on the line read backwards, and the two sum to twice the element
or one more. -/
def Obligations.PredictorsMirrorAndSum : Prop :=
  ∀ (n : Nat) (L : Nat → Int) (i : Nat), 3 ≤ n → i < n →
    predictMirror n L i = predict n (fun j => L (n - 1 - j)) (n - 1 - i) ∧
      (predict n L i + predictMirror n L i - 2 * L i = 0 ∨ predict n L i + predictMirror n L i - 2 * L i = 1)

/-- R163 (b), (d), (f): a constant low line with a zero high line gives half of it; the bound on the outputs, under which
they fit 16 bits; the mirror law. -/
def Obligations.SynthesisKernelFacts : Prop :=
  ∀ (n : Nat) (L H : Nat → Int), 3 ≤ n →
    (∀ c, (∀ i < n, L i = c) → (∀ i < n, H i = 0) → ∀ j < 2 * n, syn n L H j = asr c 1) ∧
      (∀ M : Nat, (∀ i < n, |L i| ≤ M ∧ |H i| ≤ M) → ∀ j < 2 * n,
        |syn n L H j| ≤ (3 * M + 1) / 2 + 1 ∧ (M ≤ 21844 → fits16 (syn n L H j) = true)) ∧
      ∀ j < 2 * n, syn n (fun i => L (n - 1 - i)) (fun i => -H (n - 1 - i)) j = syn n L H (2 * n - 1 - j)

/-- R182 (a): synthesis of the analysis of any line of even length at least 6 is that line. -/
def Obligations.SynthesisInvertsAnalysis : Prop :=
  ∀ (n : Nat) (x : Nat → Int) (j : Nat), 3 ≤ n → j < 2 * n → syn n (anaLow x) (anaHigh n x) j = x j

/-- R182 (b), (d), (e): synthesis is not injective; a constant line analyses to its double and zero; the bounds on the
analysis. -/
def Obligations.AnalysisKernelFacts : Prop :=
  (∃ L L' H H' : Nat → Int, (H 0 ≠ H' 0 ∧ L = L') ∧ ∀ j < 6, syn 3 L H j = syn 3 L' H' j) ∧
    ∀ (n : Nat) (x : Nat → Int), 3 ≤ n →
      (∀ c, (∀ j < 2 * n, x j = c) → ∀ i < n, anaLow x i = 2 * c ∧ anaHigh n x i = 0) ∧
      ∀ M : Nat, (∀ j < 2 * n, |x j| ≤ M) → ∀ i < n, |anaLow x i| ≤ 2 * M ∧ |anaHigh n x i| ≤ 4 * M + 2

/-! ## Wavelet commands -/

/-- R164, R162: `VSYN` whose checks pass completes: row `j`, column `c` of the destination is element `j` of `SYN` of the
two source columns, wrapped; `OVF` is set exactly when one does not fit or it was set; every other word is unchanged. -/
def Obligations.VsynResult : Prop :=
  ∀ (s : State) (rd ra rb : DescNum),
    let w := widthOf (desc s ra)
    let n := heightOf (desc s ra)
    let out := fun j c =>
      syn n (fun i => cmInt s (elemAddr (desc s ra) i c)) (fun i => cmInt s (elemAddr (desc s rb) i c)) j
    SynShape s rd ra rb n w (2 * n) s.cfg.cmWords → Disjoint (desc s rd) (desc s ra) →
    Disjoint (desc s rd) (desc s rb) →
    ∃ t, exec (.vsyn rd ra rb) s = .next t ∧
      t = { s with cm := t.cm, ovf := t.ovf, running := none, done := true } ∧
      (∀ j c, j < 2 * n → c < w → cmWord t (elemAddr (desc s rd) j c) = wrap16 (out j c)) ∧
      (t.ovf = true ↔ s.ovf = true ∨ ∃ j c, j < 2 * n ∧ c < w ∧ fits16 (out j c) = false) ∧
      ∀ a, ¬InRect (desc s rd) w (2 * n) a → cmWord t a = cmWord s a

/-- R165, R162: `HSYN` whose checks pass completes, along rows as `VSYN` down columns. -/
def Obligations.HsynResult : Prop :=
  ∀ (s : State) (rd ra rb : DescNum),
    let w := widthOf (desc s ra)
    let m := heightOf (desc s ra)
    let out := fun r j =>
      syn w (fun i => cmInt s (elemAddr (desc s ra) r i)) (fun i => cmInt s (elemAddr (desc s rb) r i)) j
    SynShape s rd ra rb w (2 * w) m s.cfg.cmWords → Disjoint (desc s rd) (desc s ra) →
    Disjoint (desc s rd) (desc s rb) →
    ∃ t, exec (.hsyn rd ra rb) s = .next t ∧
      t = { s with cm := t.cm, ovf := t.ovf, running := none, done := true } ∧
      (∀ r j, r < m → j < 2 * w → cmWord t (elemAddr (desc s rd) r j) = wrap16 (out r j)) ∧
      (t.ovf = true ↔ s.ovf = true ∨ ∃ r j, r < m ∧ j < 2 * w ∧ fits16 (out r j) = false) ∧
      ∀ a, ¬InRect (desc s rd) (2 * w) m a → cmWord t a = cmWord s a

/-- R167, R166: `HSYNC` with a legal bit depth whose checks pass completes: row `r`, column `j` of the rectangle in `DM` is
the clipped output; `CM`, `OVF` and every other word of `DM` are unchanged. -/
def Obligations.HsyncResult : Prop :=
  ∀ (s : State) (rd ra rb : DescNum),
    let w := widthOf (desc s ra)
    let m := heightOf (desc s ra)
    let out := fun r j =>
      syn w (fun i => cmInt s (elemAddr (desc s ra) r i)) (fun i => cmInt s (elemAddr (desc s rb) r i)) j
    (s.bpc = 10 ∨ s.bpc = 12) → SynShape s rd ra rb w (2 * w) m s.cfg.dmWords →
    ∃ t, exec (.hsync rd ra rb) s = .next t ∧ t = { s with dm := t.dm, running := none, done := true } ∧
      (∀ r j, r < m → j < 2 * w →
        ((dmWord t (elemAddr (desc s rd) r j)).toNat : Int) = max 0 (min (2 ^ s.bpc.toNat - 1) (out r j))) ∧
      ∀ a, ¬InRect (desc s rd) (2 * w) m a → dmWord t a = dmWord s a

/-- R183, R181: `VANA` whose checks pass completes: the low and high lines of every column stand in the two destinations,
wrapped; `OVF` is set exactly when one does not fit or it was set; every other word is unchanged. -/
def Obligations.VanaResult : Prop :=
  ∀ (s : State) (rd ra rb : DescNum),
    let w := widthOf (desc s ra)
    let n := heightOf (desc s ra) / 2
    let col := fun c j => cmInt s (elemAddr (desc s ra) j c)
    AnaShape s rd ra rb (heightOf (desc s ra)) w n → Disjoint (desc s rd) (desc s ra) →
    Disjoint (desc s rd) (desc s rb) → Disjoint (desc s ra) (desc s rb) →
    ∃ t, exec (.vana rd ra rb) s = .next t ∧
      t = { s with cm := t.cm, ovf := t.ovf, running := none, done := true } ∧
      (∀ i c, i < n → c < w →
        cmWord t (elemAddr (desc s rd) i c) = wrap16 (anaLow (col c) i) ∧
          cmWord t (elemAddr (desc s rb) i c) = wrap16 (anaHigh n (col c) i)) ∧
      (t.ovf = true ↔ s.ovf = true ∨ ∃ i c, i < n ∧ c < w ∧
        (fits16 (anaLow (col c) i) = false ∨ fits16 (anaHigh n (col c) i) = false)) ∧
      ∀ a, ¬InRect (desc s rd) w n a → ¬InRect (desc s rb) w n a → cmWord t a = cmWord s a

/-- R184, R181: `HANA` whose checks pass completes, along rows as `VANA` down columns. -/
def Obligations.HanaResult : Prop :=
  ∀ (s : State) (rd ra rb : DescNum),
    let n := widthOf (desc s ra) / 2
    let m := heightOf (desc s ra)
    let row := fun r j => cmInt s (elemAddr (desc s ra) r j)
    AnaShape s rd ra rb (widthOf (desc s ra)) n m → Disjoint (desc s rd) (desc s ra) →
    Disjoint (desc s rd) (desc s rb) → Disjoint (desc s ra) (desc s rb) →
    ∃ t, exec (.hana rd ra rb) s = .next t ∧
      t = { s with cm := t.cm, ovf := t.ovf, running := none, done := true } ∧
      (∀ r i, r < m → i < n →
        cmWord t (elemAddr (desc s rd) r i) = wrap16 (anaLow (row r) i) ∧
          cmWord t (elemAddr (desc s rb) r i) = wrap16 (anaHigh n (row r) i)) ∧
      (t.ovf = true ↔ s.ovf = true ∨ ∃ r i, r < m ∧ i < n ∧
        (fits16 (anaLow (row r) i) = false ∨ fits16 (anaHigh n (row r) i) = false)) ∧
      ∀ a, ¬InRect (desc s rd) n m a → ¬InRect (desc s rb) n m a → cmWord t a = cmWord s a

/-- R183, R182 (a): if `OVF` stayed 0, `VSYN` of what `VANA` produced restores the source without loss. Between the two the
host may write anything but `CM` and set the destinations' declared extents (R276). -/
def Obligations.VsynUndoesVana : Prop :=
  ∀ (s t t' u : State) (rd ra rb ro : DescNum), exec (.vana rd ra rb) s = .next t → t.err = false → t.ovf = false →
    t'.cm = t.cm → t'.err = false →
    (∀ k, k = rd ∨ k = rb → (desc t' k).base = (desc s k).base ∧ (desc t' k).stride = (desc s k).stride ∧
      widthOf (desc t' k) = widthOf (desc s ra) ∧ heightOf (desc t' k) = heightOf (desc s ra) / 2) →
    exec (.vsyn ro rd rb) t' = .next u → u.err = false →
    ∀ r c, r < heightOf (desc s ra) → c < widthOf (desc s ra) →
      cmInt u (elemAddr (desc t' ro) r c) = cmInt s (elemAddr (desc s ra) r c)

/-- R184, R182 (a): if `OVF` stayed 0, `HSYN` of what `HANA` produced restores the source without loss. -/
def Obligations.HsynUndoesHana : Prop :=
  ∀ (s t t' u : State) (rd ra rb ro : DescNum), exec (.hana rd ra rb) s = .next t → t.err = false → t.ovf = false →
    t'.cm = t.cm → t'.err = false →
    (∀ k, k = rd ∨ k = rb → (desc t' k).base = (desc s k).base ∧ (desc t' k).stride = (desc s k).stride ∧
      widthOf (desc t' k) = widthOf (desc s ra) / 2 ∧ heightOf (desc t' k) = heightOf (desc s ra)) →
    exec (.hsyn ro rd rb) t' = .next u → u.err = false →
    ∀ r c, r < heightOf (desc s ra) → c < widthOf (desc s ra) →
      cmInt u (elemAddr (desc t' ro) r c) = cmInt s (elemAddr (desc s ra) r c)

/-- R172, R167: where the synthesis commands trap: any failing extent condition raises `InvalidSubbandDimensions`, then a
footprint outside its memory raises `ERR_RANGE`, then overlap in `CM` raises `ERR_OVERLAP`; `HSYNC` with a bit depth that
is not 10 or 12 raises `UnsupportedFeature` before all of them, and knows no overlap. -/
def Obligations.SynthesisTraps : Prop :=
  ∀ (s : State) (rd ra rb : DescNum) (i : Instr) (len outW outH size : Nat),
    (i = .vsyn rd ra rb ∧ len = heightOf (desc s ra) ∧ outW = widthOf (desc s ra) ∧
          outH = 2 * heightOf (desc s ra) ∧ size = s.cfg.cmWords ∨
        i = .hsyn rd ra rb ∧ len = widthOf (desc s ra) ∧ outW = 2 * widthOf (desc s ra) ∧
          outH = heightOf (desc s ra) ∧ size = s.cfg.cmWords ∨
        i = .hsync rd ra rb ∧ len = widthOf (desc s ra) ∧ outW = 2 * widthOf (desc s ra) ∧
          outH = heightOf (desc s ra) ∧ size = s.cfg.dmWords) →
    let trap := fun (c : BitVec 8) =>
      exec i s = .next { s with err := true, errcode := c, errinfo := encode i, running := none }
    let dims := dimsOk (desc s rd) = true ∧ dimsOk (desc s ra) = true ∧ dimsOk (desc s rb) = true ∧
      (desc s rb).width = (desc s ra).width ∧ (desc s rb).height = (desc s ra).height ∧ 3 ≤ len ∧
      outW ≤ awidthOf (desc s rd) ∧ outH ≤ aheightOf (desc s rd)
    let ranges := footprintEnd (desc s ra) ≤ s.cfg.cmWords ∧ footprintEnd (desc s rb) ≤ s.cfg.cmWords ∧
      footprintEnd (desc s rd) ≤ size
    let depth := i = .hsync rd ra rb → s.bpc = 10 ∨ s.bpc = 12
    (¬depth → trap 7) ∧ (depth → ¬dims → trap 2) ∧ (depth → dims → ¬ranges → trap 9) ∧
      (depth → dims → ranges → i ≠ .hsync rd ra rb →
        ¬(Disjoint (desc s rd) (desc s ra) ∧ Disjoint (desc s rd) (desc s rb)) → trap 10)

/-- R185: where the analysis commands trap: any failing extent condition raises `InvalidSubbandDimensions`, then a
footprint outside `CM` raises `ERR_RANGE`, then two footprints that meet raise `ERR_OVERLAP`. -/
def Obligations.AnalysisTraps : Prop :=
  ∀ (s : State) (rd ra rb : DescNum) (i : Instr) (len outW outH : Nat),
    (i = .vana rd ra rb ∧ len = heightOf (desc s ra) ∧ outW = widthOf (desc s ra) ∧
          outH = heightOf (desc s ra) / 2 ∨
        i = .hana rd ra rb ∧ len = widthOf (desc s ra) ∧ outW = widthOf (desc s ra) / 2 ∧
          outH = heightOf (desc s ra)) →
    let trap := fun (c : BitVec 8) =>
      exec i s = .next { s with err := true, errcode := c, errinfo := encode i, running := none }
    let dims := dimsOk (desc s rd) = true ∧ dimsOk (desc s ra) = true ∧ dimsOk (desc s rb) = true ∧
      len % 2 = 0 ∧ 6 ≤ len ∧ outW ≤ awidthOf (desc s rd) ∧ outH ≤ aheightOf (desc s rd) ∧
      outW ≤ awidthOf (desc s rb) ∧ outH ≤ aheightOf (desc s rb)
    let ranges := footprintEnd (desc s ra) ≤ s.cfg.cmWords ∧ footprintEnd (desc s rd) ≤ s.cfg.cmWords ∧
      footprintEnd (desc s rb) ≤ s.cfg.cmWords
    (¬dims → trap 2) ∧ (dims → ¬ranges → trap 9) ∧
      (dims → ranges → ¬(Disjoint (desc s rd) (desc s ra) ∧ Disjoint (desc s rd) (desc s rb) ∧
        Disjoint (desc s ra) (desc s rb)) → trap 10)

/-- R297: the same descriptor as destination and source (or as both destinations) never completes in `VSYN`, `HSYN`, `VANA`,
`HANA`, and raises `ERR_OVERLAP`, changing nothing else, when the earlier checks pass. -/
def Obligations.SameDescriptorOverlaps : Prop :=
  ∀ (s : State) (rd ra rb : DescNum) (i : Instr) (len outW outH : Nat),
    let trap := exec i s = .next { s with err := true, errcode := 10, errinfo := encode i, running := none }
    let never := ∀ t, s.err = false → exec i s = .next t →
      t.err = true ∧ (t.errcode = 2 ∨ t.errcode = 9 ∨ t.errcode = 10)
    (rd = ra ∨ rd = rb →
      (i = .vsyn rd ra rb ∧ len = heightOf (desc s ra) ∧ outW = widthOf (desc s ra) ∧
          outH = 2 * heightOf (desc s ra) ∨
        i = .hsyn rd ra rb ∧ len = widthOf (desc s ra) ∧ outW = 2 * widthOf (desc s ra) ∧
          outH = heightOf (desc s ra)) →
      never ∧ (SynShape s rd ra rb len outW outH s.cfg.cmWords → trap)) ∧
    (rd = ra ∨ rd = rb ∨ ra = rb →
      (i = .vana rd ra rb ∧ len = heightOf (desc s ra) ∧ outW = widthOf (desc s ra) ∧
          outH = heightOf (desc s ra) / 2 ∨
        i = .hana rd ra rb ∧ len = widthOf (desc s ra) ∧ outW = widthOf (desc s ra) / 2 ∧
          outH = heightOf (desc s ra)) →
      never ∧ (AnaShape s rd ra rb len outW outH → trap))
end

