-- ==== Sys2Proof/Laws/Arith.lean ====
section
/-! SUPPORT. What the arithmetic primitives do: `clamp` as a minimum and a maximum, the wraps on values that fit. -/

namespace Sys2Proof.Machine

theorem clamp_eq {x lo hi : Int} (h : lo ≤ hi) : clamp x lo hi = max lo (min hi x) := by
  unfold clamp
  split
  · omega
  · split <;> omega

theorem clamp_bounds {x lo hi : Int} (h : lo ≤ hi) : lo ≤ clamp x lo hi ∧ clamp x lo hi ≤ hi := by
  rw [clamp_eq h]
  omega

theorem fits16_iff {x : Int} : fits16 x = true ↔ -32768 ≤ x ∧ x ≤ 32767 := by simp [fits16]

theorem fits32_iff {x : Int} : fits32 x = true ↔ -2147483648 ≤ x ∧ x ≤ 2147483647 := by simp [fits32]

/-- A value that fits is what its 16-bit pattern reads back as, signed. -/
theorem wrap16_toInt {x : Int} (h : fits16 x = true) : (wrap16 x).toInt = x := by
  obtain ⟨h1, h2⟩ := fits16_iff.mp h
  rw [wrap16, BitVec.toInt_ofInt, Int.bmod_def]
  norm_num
  split <;> omega

/-- Every 16-bit pattern is the wrapped value of what it reads as. -/
theorem wrap16_of_toInt (x : Half) : wrap16 x.toInt = x := BitVec.ofInt_toInt

/-- What a 16-bit pattern reads as, signed, fits. -/
theorem fits16_toInt (x : Half) : fits16 x.toInt = true :=
  fits16_iff.mpr ⟨BitVec.le_toInt x, by have := BitVec.toInt_lt (x := x); norm_num at this; omega⟩

/-- The least multiple of 4 that is at least `p`. -/
theorem align4_spec (p : Nat) : align4 p % 4 = 0 ∧ p ≤ align4 p ∧ align4 p < p + 4 := by
  unfold align4
  omega

theorem align4_mono {p q : Nat} (h : p ≤ q) : align4 p ≤ align4 q := by
  unfold align4
  omega

/-- The least number of bytes that hold `b` bits. -/
theorem ceil8_le_iff {b n : Nat} : ceil8 b ≤ n ↔ b ≤ 8 * n := by
  unfold ceil8
  omega

/-- What `QNT` computes lies in the clip range (R124). -/
theorem qntValue_bounds (r : Config.QClip) (c : Int) (q : Nat) : r.lo ≤ qntValue r c q ∧ qntValue r c q ≤ r.hi :=
  clamp_bounds (by cases r <;> decide)

/-- What `QNT` computes fits 16 bits, whatever the clip range (R126, R290). -/
theorem qntValue_fits (r : Config.QClip) (c : Int) (q : Nat) : fits16 (qntValue r c q) = true := by
  obtain ⟨h1, h2⟩ := qntValue_bounds r c q
  rw [fits16_iff]
  cases r <;> simp only [Config.QClip.lo, Config.QClip.hi] at h1 h2 <;> omega

/-- `DIV4` of a value that fits 16 bits fits, whatever the rounding (R186, R290). -/
theorem div4Value_fits (r : Config.Div4Rule) {x : Int} (h : fits16 x = true) : fits16 (div4Value r x) = true := by
  obtain ⟨h1, h2⟩ := fits16_iff.mp h
  rw [fits16_iff]
  unfold div4Value
  split
  · omega
  · cases r with
    | floor => simp only [asr]; omega
    | trunc =>
      simp only [truncDiv]
      rcases Int.le_total 0 x with hx | hx
      · rw [Int.tdiv_eq_ediv_of_nonneg hx]; omega
      · have := Int.neg_tdiv (-x) 4
        rw [neg_neg] at this
        rw [this, Int.tdiv_eq_ediv_of_nonneg (by omega)]
        omega
    | nearest => simp only [asr]; omega
    | free =>
      have := clamp_bounds (x := Config.div4Free x)
        (lo := -((x.natAbs / 4 + 1 : Nat) : Int)) (hi := ((x.natAbs / 4 + 1 : Nat) : Int)) (by omega)
      dsimp only
      omega

end Sys2Proof.Machine
end

