-- ==== Sys2Proof/Laws/Bitstream.lean ====
section
/-! SUPPORT. What the bitstream operations can do: one codeword fetch, one parse of a chunk, the values of a list of
pairs. -/

namespace Sys2Proof.Machine

/-- An entry that a table lookup finds is the table's, with the length and pattern asked for. -/
theorem findEntry_some {T : List CodeEntry} {len pat : Nat} {e : CodeEntry} (h : findEntry T len pat = some e) :
    e ∈ T ∧ e.len = len ∧ e.bits = pat := by
  refine ⟨List.mem_of_find?_eq_some h, ?_⟩
  simpa using List.find?_some h

/-- A lookup that finds nothing: no entry has that length and pattern. -/
theorem findEntry_none {T : List CodeEntry} {len pat : Nat} :
    findEntry T len pat = none ↔ ∀ e ∈ T, ¬(e.len = len ∧ e.bits = pat) := by
  simp [findEntry]

/-- All that a fetch can answer: an entry of the table, the cursor moved on by at least one bit and inside the bound; or
one of its two errors. -/
theorem fetchEntry_cases (T : List CodeEntry) (bit : Nat → Nat) (avail : Nat) :
    ∀ left b len pat : Nat,
      (∃ e b', fetchEntry T bit avail left b len pat = .entry e b' ∧ e ∈ T ∧ b < b' ∧ b' ≤ avail ∧
          e.len = len + (b' - b) ∧ b' - b ≤ left) ∨
        fetchEntry T bit avail left b len pat = .fail .bitstreamOverread ∨
        fetchEntry T bit avail left b len pat = .fail .badCode := by
  intro left
  induction left with
  | zero => intro b len pat; exact .inr (.inr rfl)
  | succ left ih =>
    intro b len pat
    unfold fetchEntry
    split
    · exact .inr (.inl rfl)
    · split
      · rename_i hb e he
        obtain ⟨h1, h2, -⟩ := findEntry_some he
        exact .inl ⟨e, b + 1, rfl, h1, by omega, by omega, by omega, by omega⟩
      · obtain ⟨e, b', h1, h2, h3, h4, h5, h6⟩ | h := ih (b + 1) (len + 1) (2 * pat + bit b)
        · exact .inl ⟨e, b', h1, h2, by omega, h4, by omega, by omega⟩
        · exact .inr h

/-- The number of positions the pairs of a list stand for. -/
def runSum (pairs : List CodeEntry) : Nat := (pairs.map CodeEntry.run).sum

@[simp] theorem runSum_nil : runSum [] = 0 := rfl

@[simp] theorem runSum_cons (e : CodeEntry) (pairs : List CodeEntry) : runSum (e :: pairs) = e.run + runSum pairs := by
  simp [runSum]

/-- A chunk's pairs never exceed the capacity, and none of them is an escape (R146). -/
theorem vldParse_fits (next : Nat → Fetch) (cap : Nat) : ∀ fuel b n : Nat, n ≤ cap →
    n + runSum (vldParse next cap fuel b n).pairs ≤ cap ∧ ∀ e ∈ (vldParse next cap fuel b n).pairs, e.esc = false := by
  intro fuel
  induction fuel with
  | zero => intro b n h; simpa [vldParse] using h
  | succ fuel ih =>
    intro b n h
    unfold vldParse
    split
    · simpa using h
    · split
      · simpa using h
      · split
        · simpa using h
        · rename_i e b' _ hesc hcap
          obtain ⟨h1, h2⟩ := ih b' (n + e.run) (by omega)
          refine ⟨by simp only [runSum_cons]; omega, ?_⟩
          simp only [List.mem_cons, forall_eq_or_imp]
          exact ⟨by simpa using hesc, h2⟩

/-- A parse ends at an escape, beyond the capacity, or in an error of a fetch (R146, R151). -/
theorem vldParse_stop (next : Nat → Fetch) (cap : Nat) : ∀ fuel b n : Nat,
    (vldParse next cap fuel b n).stop = none ∨ (vldParse next cap fuel b n).stop = some .escapeNotFound ∨
      (vldParse next cap fuel b n).stop = some .bitstreamOverread ∨
      ∃ b' e, next b' = .fail e ∧ (vldParse next cap fuel b n).stop = some e := by
  intro fuel
  induction fuel with
  | zero => intro b n; exact .inr (.inr (.inl rfl))
  | succ fuel ih =>
    intro b n
    unfold vldParse
    split
    · exact .inr (.inr (.inr ⟨b, _, ‹_›, rfl⟩))
    · split
      · exact .inl rfl
      · split
        · exact .inr (.inl rfl)
        · exact ih _ _

/-- The number of values is the number of positions. -/
theorem vldValues_length (quant : Nat) (pairs : List CodeEntry) : (vldValues quant pairs).length = runSum pairs := by
  induction pairs with
  | nil => rfl
  | cons e pairs ih => simp only [vldValues, List.flatMap_cons, List.length_append, List.length_replicate] at ih ⊢; simp [ih]

/-! What the bits read say. -/

/-- An entry that a fetch answers: its pattern continues what had been read, with the bits between the two cursors. -/
theorem fetchEntry_bits {T : List CodeEntry} {bit : Nat → Nat} (hbit : ∀ i, bit i < 2) {avail : Nat} {e : CodeEntry}
    {b' : Nat} : ∀ {left b len pat : Nat}, fetchEntry T bit avail left b len pat = .entry e b' →
      b < b' ∧ e.bits / 2 ^ (b' - b) = pat ∧ ∀ i, b ≤ i → i < b' → e.bits / 2 ^ (b' - 1 - i) % 2 = bit i := by
  intro left
  induction left with
  | zero => intro b len pat h; cases h
  | succ left ih =>
    intro b len pat h
    have hb := hbit b
    unfold fetchEntry at h
    split at h
    · cases h
    · split at h
      · rename_i e' he
        obtain ⟨-, -, h3⟩ := findEntry_some he
        cases h
        refine ⟨by omega, ?_, fun i h1 h2 => ?_⟩
        · rw [h3, show b + 1 - b = 1 by omega]; omega
        · obtain rfl : i = b := by omega
          rw [h3, show i + 1 - 1 - i = 0 by omega]
          omega
      · obtain ⟨h1, h2, h3⟩ := ih h
        have h4 : e.bits / 2 ^ (b' - b) = e.bits / 2 ^ (b' - (b + 1)) / 2 := by
          rw [show b' - b = (b' - (b + 1)) + 1 by omega, Nat.pow_succ, Nat.div_div_eq_div_mul]
        refine ⟨by omega, by rw [h4, h2]; omega, fun i h5 h6 => ?_⟩
        rcases Nat.lt_or_ge b i with h7 | h7
        · exact h3 i h7 h6
        · obtain rfl : i = b := by omega
          rw [show b' - 1 - i = b' - (i + 1) by omega, h2]
          omega

/-- The codeword that a fetch from a codeword boundary answers is the bits between the two cursors. -/
theorem fetchEntry_codeword {T : List CodeEntry} {bit : Nat → Nat} (hbit : ∀ i, bit i < 2) {avail left b b' : Nat}
    {e : CodeEntry} (h : fetchEntry T bit avail left b 0 0 = .entry e b') :
    e ∈ T ∧ b' = b + e.len ∧ 0 < e.len ∧ b' ≤ avail ∧ patternBits e.len e.bits = (List.range e.len).map fun i => bit (b + i) := by
  obtain ⟨e', b'', h1, h2, h3, h4, h5, -⟩ | h1 | h1 := fetchEntry_cases T bit avail left b 0 0
  · rw [h] at h1
    cases h1
    obtain ⟨-, -, h6⟩ := fetchEntry_bits hbit h
    refine ⟨h2, by omega, by omega, h4, ?_⟩
    simp only [patternBits, List.map_inj_left, List.mem_range, Nat.shiftRight_eq_div_pow]
    intro i hi
    rw [← h6 (b + i) (by omega) (by omega)]
    congr 3
    omega
  · rw [h] at h1; cases h1
  · rw [h] at h1; cases h1

/-- The pairs of a parse are entries of the table, and their codewords are the bits read from the start (R97, R146). -/
theorem vldParse_reads {T : List CodeEntry} {bit : Nat → Nat} (hbit : ∀ i, bit i < 2) {avail maxLen cap : Nat} :
    ∀ fuel b n : Nat, b ≤ avail →
      let p := vldParse (fun b => fetchEntry T bit avail maxLen b 0 0) cap fuel b n
      (∀ e ∈ p.pairs, e ∈ T) ∧ b + (codewordBits p.pairs).length ≤ avail ∧
        codewordBits p.pairs = (List.range (codewordBits p.pairs).length).map fun i => bit (b + i) := by
  intro fuel
  induction fuel with
  | zero => intro b n hb; simpa [vldParse, codewordBits] using hb
  | succ fuel ih =>
    intro b n hb
    simp only
    unfold vldParse
    split
    · simpa [codewordBits] using hb
    · split
      · simpa [codewordBits] using hb
      · split
        · simpa [codewordBits] using hb
        · rename_i e b' he _ _
          obtain ⟨h1, h2, -, h3, h4⟩ := fetchEntry_codeword hbit he
          obtain ⟨h5, h6, h7⟩ := ih b' (n + e.run) h3
          have hl : (patternBits e.len e.bits).length = e.len := by simp [patternBits]
          refine ⟨by simpa using ⟨h1, h5⟩, ?_, ?_⟩
          · simp only [codewordBits, List.flatMap_cons, List.length_append, hl] at h6 ⊢
            omega
          · simp only [codewordBits, List.flatMap_cons, List.length_append, hl, List.range_add, List.map_append,
              List.map_map] at h7 ⊢
            rw [h4]
            congr 1
            rw [h7]
            simp only [List.length_map, List.length_range, List.map_inj_left]
            intro i _
            simp only [Function.comp, h2, Nat.add_assoc]

end Sys2Proof.Machine
end

