-- ==== Sys2Proof/Laws/Memory.lean ====
section
/-! SUPPORT. Laws of the memory operations: read after write, and that every operation keeps the canonical form. -/

namespace Sys2Proof.Machine

variable {n : Nat}

@[simp] theorem memGet?_nil (a : Nat) : memGet? ([] : Memory n) a = none := rfl

@[simp] theorem memGet?_memSet_same (m : Memory n) (a : Nat) (v : BitVec n) : memGet? (memSet m a v) a = some v := by
  induction m with
  | nil => simp [memSet, memGet?]
  | cons p m ih =>
    obtain ⟨b, x⟩ := p
    simp only [memSet]
    split
    · simp [memGet?]
    · split
      · simp [memGet?]
      · rename_i h1 h2
        simp [memGet?, h2, ih]

@[simp] theorem memGet?_memSet_other (m : Memory n) {a c : Nat} (v : BitVec n) (h : c ≠ a) :
    memGet? (memSet m a v) c = memGet? m c := by
  induction m with
  | nil => simp [memSet, memGet?, h]
  | cons p m ih =>
    obtain ⟨b, x⟩ := p
    simp only [memSet]
    split
    · simp [memGet?, h]
    · split
      · rename_i h1 h2
        subst h2
        simp [memGet?, h]
      · simp only [memGet?, ih]

theorem mem_memSet {m : Memory n} {a : Nat} {v : BitVec n} {p : Nat × BitVec n} (h : p ∈ memSet m a v) :
    p = (a, v) ∨ p ∈ m := by
  induction m with
  | nil => simpa [memSet] using h
  | cons q m ih =>
    obtain ⟨b, x⟩ := q
    simp only [memSet] at h
    split at h
    · simpa using h
    · split at h
      · rcases List.mem_cons.mp h with h | h
        · exact .inl h
        · exact .inr (List.mem_cons_of_mem _ h)
      · rcases List.mem_cons.mp h with h | h
        · exact .inr (h ▸ List.mem_cons_self)
        · rcases ih h with h | h
          · exact .inl h
          · exact .inr (List.mem_cons_of_mem _ h)

theorem mem_memSet_key {m : Memory n} {a : Nat} {v : BitVec n} {b : Nat} (h : b ∈ (memSet m a v).map Prod.fst) :
    b = a ∨ b ∈ m.map Prod.fst := by
  obtain ⟨p, hp, rfl⟩ := List.mem_map.mp h
  rcases mem_memSet hp with h | h
  · exact .inl (by rw [h])
  · exact .inr (List.mem_map_of_mem h)

/-- A write keeps the canonical form. -/
theorem memSet_wf {m : Memory n} (hm : Memory.wf m) (a : Nat) (v : BitVec n) : Memory.wf (memSet m a v) := by
  induction m with
  | nil => simp [memSet, Memory.wf]
  | cons p m ih =>
    obtain ⟨b, x⟩ := p
    simp only [Memory.wf, List.map_cons, List.pairwise_cons] at hm
    obtain ⟨hb, hm⟩ := hm
    simp only [memSet]
    split
    · rename_i hlt
      simp only [Memory.wf, List.map_cons, List.pairwise_cons, List.mem_cons]
      refine ⟨?_, hb, hm⟩
      rintro c (rfl | hc)
      · exact hlt
      · exact lt_trans hlt (hb c hc)
    · split
      · rename_i h2
        subst h2
        exact List.pairwise_cons.mpr ⟨hb, hm⟩
      · rename_i h1 h2
        refine List.pairwise_cons.mpr ⟨?_, ih hm⟩
        intro c hc
        rcases mem_memSet_key hc with rfl | hc
        · show b < c
          omega
        · exact hb c hc

theorem memSet_within {m : Memory n} {size : Nat} (hm : ∀ p ∈ m, p.1 < size) {a : Nat} (ha : a < size)
    (v : BitVec n) : ∀ p ∈ memSet m a v, p.1 < size := by
  intro p hp
  rcases mem_memSet hp with h | h
  · rw [h]; exact ha
  · exact hm p h

/-! Writing a list of pairs. -/

@[simp] theorem memPut_nil (m : Memory 16) : memPut m [] = m := rfl

@[simp] theorem memPut_cons (m : Memory 16) (p : Nat × Int) (l : List (Nat × Int)) :
    memPut m (p :: l) = memPut (memSet m p.1 (wrap16 p.2)) l := rfl

theorem memPut_append (m : Memory 16) (l k : List (Nat × Int)) : memPut m (l ++ k) = memPut (memPut m l) k := by
  simp [memPut]

/-- An address that no pair names reads as before. -/
theorem memGet?_memPut_frame (l : List (Nat × Int)) (m : Memory 16) {a : Nat} (h : ∀ p ∈ l, a ≠ p.1) :
    memGet? (memPut m l) a = memGet? m a := by
  induction l generalizing m with
  | nil => rfl
  | cons p l ih =>
    rw [memPut_cons, ih _ fun q hq => h q (List.mem_cons_of_mem _ hq),
      memGet?_memSet_other _ _ (h p List.mem_cons_self)]

/-- An address that exactly one pair names reads as that pair's wrapped value. -/
theorem memGet?_memPut_mem (l : List (Nat × Int)) (m : Memory 16) (hl : (l.map Prod.fst).Nodup) {a : Nat} {x : Int}
    (h : (a, x) ∈ l) : memGet? (memPut m l) a = some (wrap16 x) := by
  induction l generalizing m with
  | nil => simp at h
  | cons p l ih =>
    rw [List.map_cons, List.nodup_cons] at hl
    rw [memPut_cons]
    rcases List.mem_cons.mp h with h | h
    · subst h
      rw [memGet?_memPut_frame, memGet?_memSet_same]
      intro q hq hqa
      exact hl.1 (List.mem_map.mpr ⟨q, hq, hqa.symm⟩)
    · exact ih _ hl.2 h

theorem memPut_wf (l : List (Nat × Int)) {m : Memory 16} (hm : Memory.wf m) : Memory.wf (memPut m l) := by
  induction l generalizing m with
  | nil => exact hm
  | cons p l ih => exact ih (memSet_wf hm _ _)

theorem memPut_within (l : List (Nat × Int)) {m : Memory 16} {size : Nat} (hm : ∀ p ∈ m, p.1 < size)
    (hl : ∀ p ∈ l, p.1 < size) : ∀ p ∈ memPut m l, p.1 < size := by
  induction l generalizing m with
  | nil => exact hm
  | cons p l ih =>
    exact ih (memSet_within hm (hl p List.mem_cons_self) _) fun q hq => hl q (List.mem_cons_of_mem _ hq)

/-! The memory left by an abandoned command. -/

/-- Each address of a mixed memory holds what it would hold after the command, or what it held before. -/
theorem memGet?_mixMemory (before : Memory 16) (written : Nat → Bool) (after : Memory 16) (a : Nat) :
    memGet? (mixMemory before written after) a =
      if written a then memGet? after a else if memGet? after a = none then none else memGet? before a := by
  induction after with
  | nil => simp [mixMemory]
  | cons p m ih =>
    obtain ⟨b, x⟩ := p
    by_cases hab : a = b
    · subst hab
      cases hw : written a
      · cases hb : memGet? before a with
        | some v => simp [mixMemory, hw, hb, memGet?]
        | none => simp [mixMemory, hw, hb, memGet?, ih]
      · simp [mixMemory, hw, memGet?]
    · cases hw : written b
      · cases hb : memGet? before b <;> simp [mixMemory, hw, hb, memGet?, hab, ih]
      · simp [mixMemory, hw, memGet?, hab, ih]

theorem mem_mixMemory_key {before : Memory 16} {written : Nat → Bool} {after : Memory 16} {p : Nat × BitVec 16}
    (h : p ∈ mixMemory before written after) : ∃ q ∈ after, q.1 = p.1 := by
  induction after with
  | nil => simp [mixMemory] at h
  | cons q m ih =>
    obtain ⟨b, x⟩ := q
    have tail : p ∈ mixMemory before written m → ∃ q ∈ (b, x) :: m, q.1 = p.1 := fun h => by
      obtain ⟨q, hq, e⟩ := ih h
      exact ⟨q, List.mem_cons_of_mem _ hq, e⟩
    have head : ∀ v : BitVec 16, p = (b, v) → ∃ q ∈ (b, x) :: m, q.1 = p.1 := fun v e =>
      ⟨(b, x), List.mem_cons_self, by rw [e]⟩
    simp only [mixMemory] at h
    split at h
    · rcases List.mem_cons.mp h with h | h
      · exact head x h
      · exact tail h
    · split at h
      · rcases List.mem_cons.mp h with h | h
        · exact head _ h
        · exact tail h
      · exact tail h

theorem mixMemory_wf (before : Memory 16) (written : Nat → Bool) {after : Memory 16} (h : Memory.wf after) :
    Memory.wf (mixMemory before written after) := by
  induction after with
  | nil => simp [mixMemory, Memory.wf]
  | cons p m ih =>
    obtain ⟨b, x⟩ := p
    simp only [Memory.wf, List.map_cons, List.pairwise_cons] at h
    have hcons : ∀ v : BitVec 16, Memory.wf ((b, v) :: mixMemory before written m) := by
      intro v
      refine List.pairwise_cons.mpr ⟨?_, ih h.2⟩
      intro c hc
      obtain ⟨q, hq, rfl⟩ := List.mem_map.mp hc
      obtain ⟨r, hr, e⟩ := mem_mixMemory_key hq
      exact e ▸ h.1 r.1 (List.mem_map.mpr ⟨r, hr, rfl⟩)
    simp only [mixMemory]
    split
    · exact hcons x
    · split
      · exact hcons _
      · exact ih h.2

theorem mixMemory_within {before : Memory 16} {written : Nat → Bool} {after : Memory 16} {size : Nat}
    (h : ∀ p ∈ after, p.1 < size) : ∀ p ∈ mixMemory before written after, p.1 < size := by
  intro p hp
  obtain ⟨q, hq, e⟩ := mem_mixMemory_key hp
  exact e ▸ h q hq

end Sys2Proof.Machine
end

