-- ==== Sys2Proof/Laws/State.lean ====
section
/-! SUPPORT. One lemma per field per update of the state, each true by unfolding the update once, so that no later proof
unfolds a record update. -/

namespace Sys2Proof.Machine

/-! raiseError: the error entry (R236). -/

@[simp] theorem raiseError_cfg (e : Err) (w : Word) (s : State) : (raiseError e w s).cfg = s.cfg := rfl
@[simp] theorem raiseError_ieDone (e : Err) (w : Word) (s : State) : (raiseError e w s).ieDone = s.ieDone := rfl
@[simp] theorem raiseError_ieErr (e : Err) (w : Word) (s : State) : (raiseError e w s).ieErr = s.ieErr := rfl
@[simp] theorem raiseError_running (e : Err) (w : Word) (s : State) : (raiseError e w s).running = none := rfl
@[simp] theorem raiseError_done (e : Err) (w : Word) (s : State) : (raiseError e w s).done = s.done := rfl
@[simp] theorem raiseError_err (e : Err) (w : Word) (s : State) : (raiseError e w s).err = true := rfl
@[simp] theorem raiseError_ovf (e : Err) (w : Word) (s : State) : (raiseError e w s).ovf = s.ovf := rfl
@[simp] theorem raiseError_lutv (e : Err) (w : Word) (s : State) : (raiseError e w s).lutv = s.lutv := rfl
@[simp] theorem raiseError_errcode (e : Err) (w : Word) (s : State) : (raiseError e w s).errcode = errCode e := rfl
@[simp] theorem raiseError_errinfo (e : Err) (w : Word) (s : State) : (raiseError e w s).errinfo = w := rfl
@[simp] theorem raiseError_quant (e : Err) (w : Word) (s : State) : (raiseError e w s).quant = s.quant := rfl
@[simp] theorem raiseError_cbsel (e : Err) (w : Word) (s : State) : (raiseError e w s).cbsel = s.cbsel := rfl
@[simp] theorem raiseError_bpc (e : Err) (w : Word) (s : State) : (raiseError e w s).bpc = s.bpc := rfl
@[simp] theorem raiseError_bslen (e : Err) (w : Word) (s : State) : (raiseError e w s).bslen = s.bslen := rfl
@[simp] theorem raiseError_bspos (e : Err) (w : Word) (s : State) : (raiseError e w s).bspos = s.bspos := rfl
@[simp] theorem raiseError_arg (e : Err) (w : Word) (s : State) : (raiseError e w s).arg = s.arg := rfl
@[simp] theorem raiseError_res (e : Err) (w : Word) (s : State) : (raiseError e w s).res = s.res := rfl
@[simp] theorem raiseError_count (e : Err) (w : Word) (s : State) : (raiseError e w s).count = s.count := rfl
@[simp] theorem raiseError_d (e : Err) (w : Word) (s : State) : (raiseError e w s).d = s.d := rfl
@[simp] theorem raiseError_lut (e : Err) (w : Word) (s : State) : (raiseError e w s).lut = s.lut := rfl
@[simp] theorem raiseError_cm (e : Err) (w : Word) (s : State) : (raiseError e w s).cm = s.cm := rfl
@[simp] theorem raiseError_dm (e : Err) (w : Word) (s : State) : (raiseError e w s).dm = s.dm := rfl
@[simp] theorem raiseError_bs (e : Err) (w : Word) (s : State) : (raiseError e w s).bs = s.bs := rfl
@[simp] theorem raiseError_input (e : Err) (w : Word) (s : State) : (raiseError e w s).input = s.input := rfl
@[simp] theorem raiseError_hostData (e : Err) (w : Word) (s : State) : (raiseError e w s).hostData = s.hostData := rfl
@[simp] theorem raiseError_free (e : Err) (w : Word) (s : State) : (raiseError e w s).free = s.free := rfl

/-! complete: the end of a command (R197). -/

@[simp] theorem complete_cfg (s : State) : (complete s).cfg = s.cfg := rfl
@[simp] theorem complete_ieDone (s : State) : (complete s).ieDone = s.ieDone := rfl
@[simp] theorem complete_ieErr (s : State) : (complete s).ieErr = s.ieErr := rfl
@[simp] theorem complete_running (s : State) : (complete s).running = none := rfl
@[simp] theorem complete_done (s : State) : (complete s).done = true := rfl
@[simp] theorem complete_err (s : State) : (complete s).err = s.err := rfl
@[simp] theorem complete_ovf (s : State) : (complete s).ovf = s.ovf := rfl
@[simp] theorem complete_lutv (s : State) : (complete s).lutv = s.lutv := rfl
@[simp] theorem complete_errcode (s : State) : (complete s).errcode = s.errcode := rfl
@[simp] theorem complete_errinfo (s : State) : (complete s).errinfo = s.errinfo := rfl
@[simp] theorem complete_quant (s : State) : (complete s).quant = s.quant := rfl
@[simp] theorem complete_cbsel (s : State) : (complete s).cbsel = s.cbsel := rfl
@[simp] theorem complete_bpc (s : State) : (complete s).bpc = s.bpc := rfl
@[simp] theorem complete_bslen (s : State) : (complete s).bslen = s.bslen := rfl
@[simp] theorem complete_bspos (s : State) : (complete s).bspos = s.bspos := rfl
@[simp] theorem complete_arg (s : State) : (complete s).arg = s.arg := rfl
@[simp] theorem complete_res (s : State) : (complete s).res = s.res := rfl
@[simp] theorem complete_count (s : State) : (complete s).count = s.count := rfl
@[simp] theorem complete_d (s : State) : (complete s).d = s.d := rfl
@[simp] theorem complete_lut (s : State) : (complete s).lut = s.lut := rfl
@[simp] theorem complete_cm (s : State) : (complete s).cm = s.cm := rfl
@[simp] theorem complete_dm (s : State) : (complete s).dm = s.dm := rfl
@[simp] theorem complete_bs (s : State) : (complete s).bs = s.bs := rfl
@[simp] theorem complete_input (s : State) : (complete s).input = s.input := rfl
@[simp] theorem complete_hostData (s : State) : (complete s).hostData = s.hostData := rfl
@[simp] theorem complete_free (s : State) : (complete s).free = s.free := rfl

/-! store16: `Store16` (R11). -/

@[simp] theorem store16_cfg (s : State) (a : Nat) (x : Int) : (store16 s a x).cfg = s.cfg := rfl
@[simp] theorem store16_ieDone (s : State) (a : Nat) (x : Int) : (store16 s a x).ieDone = s.ieDone := rfl
@[simp] theorem store16_ieErr (s : State) (a : Nat) (x : Int) : (store16 s a x).ieErr = s.ieErr := rfl
@[simp] theorem store16_running (s : State) (a : Nat) (x : Int) : (store16 s a x).running = s.running := rfl
@[simp] theorem store16_done (s : State) (a : Nat) (x : Int) : (store16 s a x).done = s.done := rfl
@[simp] theorem store16_err (s : State) (a : Nat) (x : Int) : (store16 s a x).err = s.err := rfl
@[simp] theorem store16_ovf (s : State) (a : Nat) (x : Int) : (store16 s a x).ovf = (s.ovf || !fits16 x) := rfl
@[simp] theorem store16_lutv (s : State) (a : Nat) (x : Int) : (store16 s a x).lutv = s.lutv := rfl
@[simp] theorem store16_errcode (s : State) (a : Nat) (x : Int) : (store16 s a x).errcode = s.errcode := rfl
@[simp] theorem store16_errinfo (s : State) (a : Nat) (x : Int) : (store16 s a x).errinfo = s.errinfo := rfl
@[simp] theorem store16_quant (s : State) (a : Nat) (x : Int) : (store16 s a x).quant = s.quant := rfl
@[simp] theorem store16_cbsel (s : State) (a : Nat) (x : Int) : (store16 s a x).cbsel = s.cbsel := rfl
@[simp] theorem store16_bpc (s : State) (a : Nat) (x : Int) : (store16 s a x).bpc = s.bpc := rfl
@[simp] theorem store16_bslen (s : State) (a : Nat) (x : Int) : (store16 s a x).bslen = s.bslen := rfl
@[simp] theorem store16_bspos (s : State) (a : Nat) (x : Int) : (store16 s a x).bspos = s.bspos := rfl
@[simp] theorem store16_arg (s : State) (a : Nat) (x : Int) : (store16 s a x).arg = s.arg := rfl
@[simp] theorem store16_res (s : State) (a : Nat) (x : Int) : (store16 s a x).res = s.res := rfl
@[simp] theorem store16_count (s : State) (a : Nat) (x : Int) : (store16 s a x).count = s.count := rfl
@[simp] theorem store16_d (s : State) (a : Nat) (x : Int) : (store16 s a x).d = s.d := rfl
@[simp] theorem store16_lut (s : State) (a : Nat) (x : Int) : (store16 s a x).lut = s.lut := rfl
@[simp] theorem store16_cm (s : State) (a : Nat) (x : Int) : (store16 s a x).cm = memSet s.cm a (wrap16 x) := rfl
@[simp] theorem store16_dm (s : State) (a : Nat) (x : Int) : (store16 s a x).dm = s.dm := rfl
@[simp] theorem store16_bs (s : State) (a : Nat) (x : Int) : (store16 s a x).bs = s.bs := rfl
@[simp] theorem store16_input (s : State) (a : Nat) (x : Int) : (store16 s a x).input = s.input := rfl
@[simp] theorem store16_hostData (s : State) (a : Nat) (x : Int) : (store16 s a x).hostData = s.hostData := rfl
@[simp] theorem store16_free (s : State) (a : Nat) (x : Int) : (store16 s a x).free = s.free := rfl

/-! writeAll: stores into `CM` that fit. -/

@[simp] theorem writeAll_cfg (s : State) (l : List (Nat × Int)) : (writeAll s l).cfg = s.cfg := rfl
@[simp] theorem writeAll_ieDone (s : State) (l : List (Nat × Int)) : (writeAll s l).ieDone = s.ieDone := rfl
@[simp] theorem writeAll_ieErr (s : State) (l : List (Nat × Int)) : (writeAll s l).ieErr = s.ieErr := rfl
@[simp] theorem writeAll_running (s : State) (l : List (Nat × Int)) : (writeAll s l).running = s.running := rfl
@[simp] theorem writeAll_done (s : State) (l : List (Nat × Int)) : (writeAll s l).done = s.done := rfl
@[simp] theorem writeAll_err (s : State) (l : List (Nat × Int)) : (writeAll s l).err = s.err := rfl
@[simp] theorem writeAll_ovf (s : State) (l : List (Nat × Int)) : (writeAll s l).ovf = s.ovf := rfl
@[simp] theorem writeAll_lutv (s : State) (l : List (Nat × Int)) : (writeAll s l).lutv = s.lutv := rfl
@[simp] theorem writeAll_errcode (s : State) (l : List (Nat × Int)) : (writeAll s l).errcode = s.errcode := rfl
@[simp] theorem writeAll_errinfo (s : State) (l : List (Nat × Int)) : (writeAll s l).errinfo = s.errinfo := rfl
@[simp] theorem writeAll_quant (s : State) (l : List (Nat × Int)) : (writeAll s l).quant = s.quant := rfl
@[simp] theorem writeAll_cbsel (s : State) (l : List (Nat × Int)) : (writeAll s l).cbsel = s.cbsel := rfl
@[simp] theorem writeAll_bpc (s : State) (l : List (Nat × Int)) : (writeAll s l).bpc = s.bpc := rfl
@[simp] theorem writeAll_bslen (s : State) (l : List (Nat × Int)) : (writeAll s l).bslen = s.bslen := rfl
@[simp] theorem writeAll_bspos (s : State) (l : List (Nat × Int)) : (writeAll s l).bspos = s.bspos := rfl
@[simp] theorem writeAll_arg (s : State) (l : List (Nat × Int)) : (writeAll s l).arg = s.arg := rfl
@[simp] theorem writeAll_res (s : State) (l : List (Nat × Int)) : (writeAll s l).res = s.res := rfl
@[simp] theorem writeAll_count (s : State) (l : List (Nat × Int)) : (writeAll s l).count = s.count := rfl
@[simp] theorem writeAll_d (s : State) (l : List (Nat × Int)) : (writeAll s l).d = s.d := rfl
@[simp] theorem writeAll_lut (s : State) (l : List (Nat × Int)) : (writeAll s l).lut = s.lut := rfl
@[simp] theorem writeAll_cm (s : State) (l : List (Nat × Int)) : (writeAll s l).cm = memPut s.cm l := rfl
@[simp] theorem writeAll_dm (s : State) (l : List (Nat × Int)) : (writeAll s l).dm = s.dm := rfl
@[simp] theorem writeAll_bs (s : State) (l : List (Nat × Int)) : (writeAll s l).bs = s.bs := rfl
@[simp] theorem writeAll_input (s : State) (l : List (Nat × Int)) : (writeAll s l).input = s.input := rfl
@[simp] theorem writeAll_hostData (s : State) (l : List (Nat × Int)) : (writeAll s l).hostData = s.hostData := rfl
@[simp] theorem writeAll_free (s : State) (l : List (Nat × Int)) : (writeAll s l).free = s.free := rfl

/-! writeImage: stores into `DM`. -/

@[simp] theorem writeImage_cfg (s : State) (l : List (Nat × Int)) : (writeImage s l).cfg = s.cfg := rfl
@[simp] theorem writeImage_ieDone (s : State) (l : List (Nat × Int)) : (writeImage s l).ieDone = s.ieDone := rfl
@[simp] theorem writeImage_ieErr (s : State) (l : List (Nat × Int)) : (writeImage s l).ieErr = s.ieErr := rfl
@[simp] theorem writeImage_running (s : State) (l : List (Nat × Int)) : (writeImage s l).running = s.running := rfl
@[simp] theorem writeImage_done (s : State) (l : List (Nat × Int)) : (writeImage s l).done = s.done := rfl
@[simp] theorem writeImage_err (s : State) (l : List (Nat × Int)) : (writeImage s l).err = s.err := rfl
@[simp] theorem writeImage_ovf (s : State) (l : List (Nat × Int)) : (writeImage s l).ovf = s.ovf := rfl
@[simp] theorem writeImage_lutv (s : State) (l : List (Nat × Int)) : (writeImage s l).lutv = s.lutv := rfl
@[simp] theorem writeImage_errcode (s : State) (l : List (Nat × Int)) : (writeImage s l).errcode = s.errcode := rfl
@[simp] theorem writeImage_errinfo (s : State) (l : List (Nat × Int)) : (writeImage s l).errinfo = s.errinfo := rfl
@[simp] theorem writeImage_quant (s : State) (l : List (Nat × Int)) : (writeImage s l).quant = s.quant := rfl
@[simp] theorem writeImage_cbsel (s : State) (l : List (Nat × Int)) : (writeImage s l).cbsel = s.cbsel := rfl
@[simp] theorem writeImage_bpc (s : State) (l : List (Nat × Int)) : (writeImage s l).bpc = s.bpc := rfl
@[simp] theorem writeImage_bslen (s : State) (l : List (Nat × Int)) : (writeImage s l).bslen = s.bslen := rfl
@[simp] theorem writeImage_bspos (s : State) (l : List (Nat × Int)) : (writeImage s l).bspos = s.bspos := rfl
@[simp] theorem writeImage_arg (s : State) (l : List (Nat × Int)) : (writeImage s l).arg = s.arg := rfl
@[simp] theorem writeImage_res (s : State) (l : List (Nat × Int)) : (writeImage s l).res = s.res := rfl
@[simp] theorem writeImage_count (s : State) (l : List (Nat × Int)) : (writeImage s l).count = s.count := rfl
@[simp] theorem writeImage_d (s : State) (l : List (Nat × Int)) : (writeImage s l).d = s.d := rfl
@[simp] theorem writeImage_lut (s : State) (l : List (Nat × Int)) : (writeImage s l).lut = s.lut := rfl
@[simp] theorem writeImage_cm (s : State) (l : List (Nat × Int)) : (writeImage s l).cm = s.cm := rfl
@[simp] theorem writeImage_dm (s : State) (l : List (Nat × Int)) : (writeImage s l).dm = memPut s.dm l := rfl
@[simp] theorem writeImage_bs (s : State) (l : List (Nat × Int)) : (writeImage s l).bs = s.bs := rfl
@[simp] theorem writeImage_input (s : State) (l : List (Nat × Int)) : (writeImage s l).input = s.input := rfl
@[simp] theorem writeImage_hostData (s : State) (l : List (Nat × Int)) : (writeImage s l).hostData = s.hostData := rfl
@[simp] theorem writeImage_free (s : State) (l : List (Nat × Int)) : (writeImage s l).free = s.free := rfl

/-! writeRes: a scalar result (R122). -/

@[simp] theorem writeRes_cfg (s : State) (x : Int) : (writeRes s x).cfg = s.cfg := rfl
@[simp] theorem writeRes_ieDone (s : State) (x : Int) : (writeRes s x).ieDone = s.ieDone := rfl
@[simp] theorem writeRes_ieErr (s : State) (x : Int) : (writeRes s x).ieErr = s.ieErr := rfl
@[simp] theorem writeRes_running (s : State) (x : Int) : (writeRes s x).running = s.running := rfl
@[simp] theorem writeRes_done (s : State) (x : Int) : (writeRes s x).done = s.done := rfl
@[simp] theorem writeRes_err (s : State) (x : Int) : (writeRes s x).err = s.err := rfl
@[simp] theorem writeRes_ovf (s : State) (x : Int) : (writeRes s x).ovf = (s.ovf || !fits32 x) := rfl
@[simp] theorem writeRes_lutv (s : State) (x : Int) : (writeRes s x).lutv = s.lutv := rfl
@[simp] theorem writeRes_errcode (s : State) (x : Int) : (writeRes s x).errcode = s.errcode := rfl
@[simp] theorem writeRes_errinfo (s : State) (x : Int) : (writeRes s x).errinfo = s.errinfo := rfl
@[simp] theorem writeRes_quant (s : State) (x : Int) : (writeRes s x).quant = s.quant := rfl
@[simp] theorem writeRes_cbsel (s : State) (x : Int) : (writeRes s x).cbsel = s.cbsel := rfl
@[simp] theorem writeRes_bpc (s : State) (x : Int) : (writeRes s x).bpc = s.bpc := rfl
@[simp] theorem writeRes_bslen (s : State) (x : Int) : (writeRes s x).bslen = s.bslen := rfl
@[simp] theorem writeRes_bspos (s : State) (x : Int) : (writeRes s x).bspos = s.bspos := rfl
@[simp] theorem writeRes_arg (s : State) (x : Int) : (writeRes s x).arg = s.arg := rfl
@[simp] theorem writeRes_res (s : State) (x : Int) : (writeRes s x).res = wrap32 x := rfl
@[simp] theorem writeRes_count (s : State) (x : Int) : (writeRes s x).count = s.count := rfl
@[simp] theorem writeRes_d (s : State) (x : Int) : (writeRes s x).d = s.d := rfl
@[simp] theorem writeRes_lut (s : State) (x : Int) : (writeRes s x).lut = s.lut := rfl
@[simp] theorem writeRes_cm (s : State) (x : Int) : (writeRes s x).cm = s.cm := rfl
@[simp] theorem writeRes_dm (s : State) (x : Int) : (writeRes s x).dm = s.dm := rfl
@[simp] theorem writeRes_bs (s : State) (x : Int) : (writeRes s x).bs = s.bs := rfl
@[simp] theorem writeRes_input (s : State) (x : Int) : (writeRes s x).input = s.input := rfl
@[simp] theorem writeRes_hostData (s : State) (x : Int) : (writeRes s x).hostData = s.hostData := rfl
@[simp] theorem writeRes_free (s : State) (x : Int) : (writeRes s x).free = s.free := rfl

/-! answer: a read answered. -/

@[simp] theorem answer_cfg (s : State) (v : Word) : (answer s v).cfg = s.cfg := rfl
@[simp] theorem answer_ieDone (s : State) (v : Word) : (answer s v).ieDone = s.ieDone := rfl
@[simp] theorem answer_ieErr (s : State) (v : Word) : (answer s v).ieErr = s.ieErr := rfl
@[simp] theorem answer_running (s : State) (v : Word) : (answer s v).running = s.running := rfl
@[simp] theorem answer_done (s : State) (v : Word) : (answer s v).done = s.done := rfl
@[simp] theorem answer_err (s : State) (v : Word) : (answer s v).err = s.err := rfl
@[simp] theorem answer_ovf (s : State) (v : Word) : (answer s v).ovf = s.ovf := rfl
@[simp] theorem answer_lutv (s : State) (v : Word) : (answer s v).lutv = s.lutv := rfl
@[simp] theorem answer_errcode (s : State) (v : Word) : (answer s v).errcode = s.errcode := rfl
@[simp] theorem answer_errinfo (s : State) (v : Word) : (answer s v).errinfo = s.errinfo := rfl
@[simp] theorem answer_quant (s : State) (v : Word) : (answer s v).quant = s.quant := rfl
@[simp] theorem answer_cbsel (s : State) (v : Word) : (answer s v).cbsel = s.cbsel := rfl
@[simp] theorem answer_bpc (s : State) (v : Word) : (answer s v).bpc = s.bpc := rfl
@[simp] theorem answer_bslen (s : State) (v : Word) : (answer s v).bslen = s.bslen := rfl
@[simp] theorem answer_bspos (s : State) (v : Word) : (answer s v).bspos = s.bspos := rfl
@[simp] theorem answer_arg (s : State) (v : Word) : (answer s v).arg = s.arg := rfl
@[simp] theorem answer_res (s : State) (v : Word) : (answer s v).res = s.res := rfl
@[simp] theorem answer_count (s : State) (v : Word) : (answer s v).count = s.count := rfl
@[simp] theorem answer_d (s : State) (v : Word) : (answer s v).d = s.d := rfl
@[simp] theorem answer_lut (s : State) (v : Word) : (answer s v).lut = s.lut := rfl
@[simp] theorem answer_cm (s : State) (v : Word) : (answer s v).cm = s.cm := rfl
@[simp] theorem answer_dm (s : State) (v : Word) : (answer s v).dm = s.dm := rfl
@[simp] theorem answer_bs (s : State) (v : Word) : (answer s v).bs = s.bs := rfl
@[simp] theorem answer_input (s : State) (v : Word) : (answer s v).input = s.input := rfl
@[simp] theorem answer_hostData (s : State) (v : Word) : (answer s v).hostData = v := rfl
@[simp] theorem answer_free (s : State) (v : Word) : (answer s v).free = s.free := rfl

/-! accepted: an accepted command word. -/

@[simp] theorem accepted_cfg (s : State) (w : Word) : (accepted s w).cfg = s.cfg := rfl
@[simp] theorem accepted_ieDone (s : State) (w : Word) : (accepted s w).ieDone = s.ieDone := rfl
@[simp] theorem accepted_ieErr (s : State) (w : Word) : (accepted s w).ieErr = s.ieErr := rfl
@[simp] theorem accepted_running (s : State) (w : Word) : (accepted s w).running = some w := rfl
@[simp] theorem accepted_done (s : State) (w : Word) : (accepted s w).done = false := rfl
@[simp] theorem accepted_err (s : State) (w : Word) : (accepted s w).err = s.err := rfl
@[simp] theorem accepted_ovf (s : State) (w : Word) : (accepted s w).ovf = s.ovf := rfl
@[simp] theorem accepted_lutv (s : State) (w : Word) : (accepted s w).lutv = s.lutv := rfl
@[simp] theorem accepted_errcode (s : State) (w : Word) : (accepted s w).errcode = s.errcode := rfl
@[simp] theorem accepted_errinfo (s : State) (w : Word) : (accepted s w).errinfo = s.errinfo := rfl
@[simp] theorem accepted_quant (s : State) (w : Word) : (accepted s w).quant = s.quant := rfl
@[simp] theorem accepted_cbsel (s : State) (w : Word) : (accepted s w).cbsel = s.cbsel := rfl
@[simp] theorem accepted_bpc (s : State) (w : Word) : (accepted s w).bpc = s.bpc := rfl
@[simp] theorem accepted_bslen (s : State) (w : Word) : (accepted s w).bslen = s.bslen := rfl
@[simp] theorem accepted_bspos (s : State) (w : Word) : (accepted s w).bspos = s.bspos := rfl
@[simp] theorem accepted_arg (s : State) (w : Word) : (accepted s w).arg = s.arg := rfl
@[simp] theorem accepted_res (s : State) (w : Word) : (accepted s w).res = s.res := rfl
@[simp] theorem accepted_count (s : State) (w : Word) : (accepted s w).count = s.count := rfl
@[simp] theorem accepted_d (s : State) (w : Word) : (accepted s w).d = s.d := rfl
@[simp] theorem accepted_lut (s : State) (w : Word) : (accepted s w).lut = s.lut := rfl
@[simp] theorem accepted_cm (s : State) (w : Word) : (accepted s w).cm = s.cm := rfl
@[simp] theorem accepted_dm (s : State) (w : Word) : (accepted s w).dm = s.dm := rfl
@[simp] theorem accepted_bs (s : State) (w : Word) : (accepted s w).bs = s.bs := rfl
@[simp] theorem accepted_input (s : State) (w : Word) : (accepted s w).input = .wait :: s.input := rfl
@[simp] theorem accepted_hostData (s : State) (w : Word) : (accepted s w).hostData = s.hostData := rfl
@[simp] theorem accepted_free (s : State) (w : Word) : (accepted s w).free = s.free := rfl

/-! resetRegisters: reset of the registers (R43). -/

@[simp] theorem resetRegisters_cfg (s : State) : (resetRegisters s).cfg = s.cfg := rfl
@[simp] theorem resetRegisters_ieDone (s : State) : (resetRegisters s).ieDone = false := rfl
@[simp] theorem resetRegisters_ieErr (s : State) : (resetRegisters s).ieErr = false := rfl
@[simp] theorem resetRegisters_running (s : State) : (resetRegisters s).running = none := rfl
@[simp] theorem resetRegisters_done (s : State) : (resetRegisters s).done = false := rfl
@[simp] theorem resetRegisters_err (s : State) : (resetRegisters s).err = false := rfl
@[simp] theorem resetRegisters_ovf (s : State) : (resetRegisters s).ovf = false := rfl
@[simp] theorem resetRegisters_lutv (s : State) : (resetRegisters s).lutv = false := rfl
@[simp] theorem resetRegisters_errcode (s : State) : (resetRegisters s).errcode = 0 := rfl
@[simp] theorem resetRegisters_errinfo (s : State) : (resetRegisters s).errinfo = 0 := rfl
@[simp] theorem resetRegisters_quant (s : State) : (resetRegisters s).quant = 0 := rfl
@[simp] theorem resetRegisters_cbsel (s : State) : (resetRegisters s).cbsel = 0 := rfl
@[simp] theorem resetRegisters_bpc (s : State) : (resetRegisters s).bpc = 0 := rfl
@[simp] theorem resetRegisters_bslen (s : State) : (resetRegisters s).bslen = 0 := rfl
@[simp] theorem resetRegisters_bspos (s : State) : (resetRegisters s).bspos = 0 := rfl
@[simp] theorem resetRegisters_arg (s : State) : (resetRegisters s).arg = 0 := rfl
@[simp] theorem resetRegisters_res (s : State) : (resetRegisters s).res = 0 := rfl
@[simp] theorem resetRegisters_count (s : State) : (resetRegisters s).count = 0 := rfl
@[simp] theorem resetRegisters_d (s : State) : (resetRegisters s).d = Vector.replicate 8 Desc.zero := rfl
@[simp] theorem resetRegisters_lut (s : State) : (resetRegisters s).lut = s.lut := rfl
@[simp] theorem resetRegisters_cm (s : State) : (resetRegisters s).cm = s.cm := rfl
@[simp] theorem resetRegisters_dm (s : State) : (resetRegisters s).dm = s.dm := rfl
@[simp] theorem resetRegisters_bs (s : State) : (resetRegisters s).bs = s.bs := rfl
@[simp] theorem resetRegisters_input (s : State) : (resetRegisters s).input = s.input := rfl
@[simp] theorem resetRegisters_hostData (s : State) : (resetRegisters s).hostData = s.hostData := rfl
@[simp] theorem resetRegisters_free (s : State) : (resetRegisters s).free = s.free := rfl

/-! storeAll: `Store16` of each pair of a list. -/

/-- All that storing a list does: the words, and `OVF` when some value does not fit. -/
theorem storeAll_eq (s : State) (l : List (Nat × Int)) :
    storeAll s l = { s with cm := memPut s.cm l, ovf := s.ovf || l.any fun p => !fits16 p.2 } := by
  induction l generalizing s with
  | nil => simp [storeAll]
  | cons p l ih =>
    show storeAll (store16 s p.1 p.2) l = _
    rw [ih]
    simp [store16, Bool.or_assoc]

@[simp] theorem storeAll_cfg (s : State) (l : List (Nat × Int)) : (storeAll s l).cfg = s.cfg := by
  rw [storeAll_eq]
@[simp] theorem storeAll_ieDone (s : State) (l : List (Nat × Int)) : (storeAll s l).ieDone = s.ieDone := by
  rw [storeAll_eq]
@[simp] theorem storeAll_ieErr (s : State) (l : List (Nat × Int)) : (storeAll s l).ieErr = s.ieErr := by
  rw [storeAll_eq]
@[simp] theorem storeAll_running (s : State) (l : List (Nat × Int)) : (storeAll s l).running = s.running := by
  rw [storeAll_eq]
@[simp] theorem storeAll_done (s : State) (l : List (Nat × Int)) : (storeAll s l).done = s.done := by
  rw [storeAll_eq]
@[simp] theorem storeAll_err (s : State) (l : List (Nat × Int)) : (storeAll s l).err = s.err := by
  rw [storeAll_eq]
@[simp] theorem storeAll_ovf (s : State) (l : List (Nat × Int)) : (storeAll s l).ovf = (s.ovf || l.any fun p => !fits16 p.2) := by
  rw [storeAll_eq]
@[simp] theorem storeAll_lutv (s : State) (l : List (Nat × Int)) : (storeAll s l).lutv = s.lutv := by
  rw [storeAll_eq]
@[simp] theorem storeAll_errcode (s : State) (l : List (Nat × Int)) : (storeAll s l).errcode = s.errcode := by
  rw [storeAll_eq]
@[simp] theorem storeAll_errinfo (s : State) (l : List (Nat × Int)) : (storeAll s l).errinfo = s.errinfo := by
  rw [storeAll_eq]
@[simp] theorem storeAll_quant (s : State) (l : List (Nat × Int)) : (storeAll s l).quant = s.quant := by
  rw [storeAll_eq]
@[simp] theorem storeAll_cbsel (s : State) (l : List (Nat × Int)) : (storeAll s l).cbsel = s.cbsel := by
  rw [storeAll_eq]
@[simp] theorem storeAll_bpc (s : State) (l : List (Nat × Int)) : (storeAll s l).bpc = s.bpc := by
  rw [storeAll_eq]
@[simp] theorem storeAll_bslen (s : State) (l : List (Nat × Int)) : (storeAll s l).bslen = s.bslen := by
  rw [storeAll_eq]
@[simp] theorem storeAll_bspos (s : State) (l : List (Nat × Int)) : (storeAll s l).bspos = s.bspos := by
  rw [storeAll_eq]
@[simp] theorem storeAll_arg (s : State) (l : List (Nat × Int)) : (storeAll s l).arg = s.arg := by
  rw [storeAll_eq]
@[simp] theorem storeAll_res (s : State) (l : List (Nat × Int)) : (storeAll s l).res = s.res := by
  rw [storeAll_eq]
@[simp] theorem storeAll_count (s : State) (l : List (Nat × Int)) : (storeAll s l).count = s.count := by
  rw [storeAll_eq]
@[simp] theorem storeAll_d (s : State) (l : List (Nat × Int)) : (storeAll s l).d = s.d := by
  rw [storeAll_eq]
@[simp] theorem storeAll_lut (s : State) (l : List (Nat × Int)) : (storeAll s l).lut = s.lut := by
  rw [storeAll_eq]
@[simp] theorem storeAll_cm (s : State) (l : List (Nat × Int)) : (storeAll s l).cm = memPut s.cm l := by
  rw [storeAll_eq]
@[simp] theorem storeAll_dm (s : State) (l : List (Nat × Int)) : (storeAll s l).dm = s.dm := by
  rw [storeAll_eq]
@[simp] theorem storeAll_bs (s : State) (l : List (Nat × Int)) : (storeAll s l).bs = s.bs := by
  rw [storeAll_eq]
@[simp] theorem storeAll_input (s : State) (l : List (Nat × Int)) : (storeAll s l).input = s.input := by
  rw [storeAll_eq]
@[simp] theorem storeAll_hostData (s : State) (l : List (Nat × Int)) : (storeAll s l).hostData = s.hostData := by
  rw [storeAll_eq]
@[simp] theorem storeAll_free (s : State) (l : List (Nat × Int)) : (storeAll s l).free = s.free := by
  rw [storeAll_eq]

/-! The descriptors and the words read after an update. -/

@[simp] theorem desc_raiseError (e : Err) (w : Word) (s : State) (k : DescNum) : desc (raiseError e w s) k = desc s k := rfl
@[simp] theorem desc_complete (s : State) (k : DescNum) : desc (complete s) k = desc s k := rfl
@[simp] theorem desc_writeAll (s : State) (l : List (Nat × Int)) (k : DescNum) : desc (writeAll s l) k = desc s k := rfl
@[simp] theorem desc_writeImage (s : State) (l : List (Nat × Int)) (k : DescNum) : desc (writeImage s l) k = desc s k := rfl
@[simp] theorem desc_writeRes (s : State) (x : Int) (k : DescNum) : desc (writeRes s x) k = desc s k := rfl
@[simp] theorem desc_storeAll (s : State) (l : List (Nat × Int)) (k : DescNum) : desc (storeAll s l) k = desc s k := by
  simp [desc]

/-- Two states with the same `CM` read the same words. -/
theorem cmWord_congr {s t : State} (h : t.cm = s.cm) (a : Nat) : cmWord t a = cmWord s a := by simp [cmWord, h]

/-- Two states with the same `DM` read the same words. -/
theorem dmWord_congr {s t : State} (h : t.dm = s.dm) (a : Nat) : dmWord t a = dmWord s a := by simp [dmWord, h]

/-- A word of `CM` that no stored pair names reads as before. -/
theorem cmWord_put_frame {s t : State} {l : List (Nat × Int)} (h : t.cm = memPut s.cm l) {a : Nat}
    (ha : ∀ p ∈ l, a ≠ p.1) : cmWord t a = cmWord s a := by
  simp [cmWord, h, memGet?_memPut_frame l s.cm ha]

/-- A word of `CM` that exactly one stored pair names reads as that pair's wrapped value. -/
theorem cmWord_put_mem {s t : State} {l : List (Nat × Int)} (h : t.cm = memPut s.cm l)
    (hl : (l.map Prod.fst).Nodup) {a : Nat} {x : Int} (ha : (a, x) ∈ l) : cmWord t a = wrap16 x := by
  simp [cmWord, h, memGet?_memPut_mem l s.cm hl ha]

/-- A word of `DM` that no stored pair names reads as before. -/
theorem dmWord_put_frame {s t : State} {l : List (Nat × Int)} (h : t.dm = memPut s.dm l) {a : Nat}
    (ha : ∀ p ∈ l, a ≠ p.1) : dmWord t a = dmWord s a := by
  simp [dmWord, h, memGet?_memPut_frame l s.dm ha]

/-- A word of `DM` that exactly one stored pair names reads as that pair's wrapped value. -/
theorem dmWord_put_mem {s t : State} {l : List (Nat × Int)} (h : t.dm = memPut s.dm l)
    (hl : (l.map Prod.fst).Nodup) {a : Nat} {x : Int} (ha : (a, x) ∈ l) : dmWord t a = wrap16 x := by
  simp [dmWord, h, memGet?_memPut_mem l s.dm hl ha]

end Sys2Proof.Machine
end

