-- ==== Sys2Proof/Laws/Stores.lean ====
section
/-! SUPPORT. The addresses a command stores to: inside the rectangle they are meant for, each once, inside the footprint. -/

namespace Sys2Proof.Machine

theorem mem_rectangle {w h : Nat} {p : Nat × Nat} : p ∈ rectangle w h ↔ p.1 < h ∧ p.2 < w := by
  obtain ⟨r, c⟩ := p
  simp [rectangle]

/-- Two elements of a rectangle no wider than the pitch are the same word only if they are the same element. -/
theorem elemAddr_inj {k : Desc} {r c r' c' : Nat} (hc : c < strideOf k) (hc' : c' < strideOf k)
    (h : elemAddr k r c = elemAddr k r' c') : r = r' ∧ c = c' := by
  simp only [elemAddr] at h
  have h : r * strideOf k + c = r' * strideOf k + c' := by omega
  have hs : 0 < strideOf k := by omega
  have hr : r = r' := by
    have h1 := congrArg (· / strideOf k) h
    simpa [Nat.add_div_of_dvd_right, Nat.mul_add_div, mul_comm _ (strideOf k), Nat.div_eq_of_lt hc,
      Nat.div_eq_of_lt hc', hs] using h1
  subst hr
  exact ⟨rfl, by omega⟩

/-- An element inside the allocated extent lies in the footprint. -/
theorem elemAddr_lt_footprintEnd {k : Desc} {r c : Nat} (hr : r < aheightOf k) (hc : c < strideOf k) :
    elemAddr k r c < footprintEnd k := by
  have h : (r + 1) * strideOf k ≤ aheightOf k * strideOf k := Nat.mul_le_mul_right _ hr
  simp only [elemAddr, footprintEnd]
  rw [Nat.add_mul, Nat.one_mul] at h
  omega

theorem base_le_elemAddr (k : Desc) (r c : Nat) : k.base.toNat ≤ elemAddr k r c := by
  simp only [elemAddr]; omega

theorem mem_rectStores {k : Desc} {w h : Nat} {f : Nat → Nat → Int} {p : Nat × Int} :
    p ∈ rectStores k w h f ↔ ∃ r c, r < h ∧ c < w ∧ p = (elemAddr k r c, f r c) := by
  simp only [rectStores, List.mem_map, mem_rectangle]
  constructor
  · rintro ⟨⟨r, c⟩, ⟨hr, hc⟩, rfl⟩
    exact ⟨r, c, hr, hc, rfl⟩
  · rintro ⟨r, c, hr, hc, rfl⟩
    exact ⟨(r, c), ⟨hr, hc⟩, rfl⟩

theorem rectangle_nodup (w h : Nat) : (rectangle w h).Nodup := by
  rw [rectangle, List.nodup_flatMap]
  refine ⟨fun r _ => (List.nodup_range).map fun a b e => by simpa using e, ?_⟩
  refine List.nodup_range.imp ?_
  intro r r' hne p hp hp'
  simp only [List.mem_map, List.mem_range] at hp hp'
  obtain ⟨c, -, rfl⟩ := hp
  obtain ⟨c', -, e⟩ := hp'
  exact hne (by simpa using (congrArg Prod.fst e).symm)

/-- The addresses stored into a rectangle no wider than the pitch are distinct. -/
theorem rectStores_nodup {k : Desc} {w : Nat} (h : Nat) (f : Nat → Nat → Int) (hw : w ≤ strideOf k) :
    ((rectStores k w h f).map Prod.fst).Nodup := by
  rw [rectStores, List.map_map]
  refine List.Nodup.map_on ?_ (rectangle_nodup w h)
  intro p hp q hq e
  obtain ⟨-, hp⟩ := mem_rectangle.mp hp
  obtain ⟨-, hq⟩ := mem_rectangle.mp hq
  obtain ⟨h1, h2⟩ := elemAddr_inj (lt_of_lt_of_le hp hw) (lt_of_lt_of_le hq hw) e
  exact Prod.ext h1 h2

/-- What is stored into a rectangle inside the allocated extent lies in the footprint. -/
theorem rectStores_within {k : Desc} {w h : Nat} {f : Nat → Nat → Int} (hw : w ≤ strideOf k) (hh : h ≤ aheightOf k)
    {p : Nat × Int} (hp : p ∈ rectStores k w h f) : k.base.toNat ≤ p.1 ∧ p.1 < footprintEnd k := by
  obtain ⟨r, c, hr, hc, rfl⟩ := mem_rectStores.mp hp
  exact ⟨base_le_elemAddr k r c, elemAddr_lt_footprintEnd (by omega) (by omega)⟩

/-! Linear addresses. -/

theorem mem_linearStores {k : Desc} {vs : List Int} {p : Nat × Int} :
    p ∈ linearStores k vs ↔ ∃ n, ∃ h : n < vs.length, p = (linearAddr k n, vs[n]) := by
  simp only [linearStores, List.mem_map]
  constructor
  · rintro ⟨⟨v, n⟩, hq, rfl⟩
    obtain ⟨h, e⟩ := List.mem_zipIdx' hq
    exact ⟨n, h, by simp [e]⟩
  · rintro ⟨n, h, rfl⟩
    exact ⟨(vs[n], n), by rw [List.mk_mem_zipIdx_iff_getElem?]; simp, rfl⟩

theorem linearStores_nodup (k : Desc) (vs : List Int) : ((linearStores k vs).map Prod.fst).Nodup := by
  have : (linearStores k vs).map Prod.fst = (vs.zipIdx.map Prod.snd).map (linearAddr k) := by
    simp only [linearStores, List.map_map]
    rfl
  rw [this, List.zipIdx_map_snd]
  refine List.Nodup.map (fun a b e => ?_) List.nodup_range'
  simp only [linearAddr] at e
  omega

end Sys2Proof.Machine
end

