-- ==== Sys2Proof/Laws/Checks.lean ====
section
/-! SUPPORT. What the shared checks do: the first failing check is the one raised, and the check lists pass exactly under
the conditions of R24, R140, R172, R185. -/

namespace Sys2Proof.Machine

@[simp] theorem firstError_nil : firstError [] = none := rfl

theorem firstError_cons (ok : Bool) (e : Err) (cs : List (Bool × Err)) :
    firstError ((ok, e) :: cs) = if ok then firstError cs else some e := rfl

/-- Nothing is raised exactly when every check passes. -/
theorem firstError_eq_none {cs : List (Bool × Err)} : firstError cs = none ↔ ∀ c ∈ cs, c.1 = true := by
  induction cs with
  | nil => simp
  | cons c cs ih =>
    obtain ⟨ok, e⟩ := c
    cases ok <;> simp [firstError_cons, ih]

theorem firstError_append (cs ds : List (Bool × Err)) :
    firstError (cs ++ ds) = (firstError cs).orElse fun _ => firstError ds := by
  induction cs with
  | nil => simp
  | cons c cs ih =>
    obtain ⟨ok, e⟩ := c
    cases ok <;> simp [firstError_cons, ih]

/-- An error raised by a list of checks is one of the list's. -/
theorem firstError_mem {cs : List (Bool × Err)} {e : Err} (h : firstError cs = some e) : e ∈ cs.map Prod.snd := by
  induction cs with
  | nil => simp at h
  | cons c cs ih =>
    obtain ⟨ok, f⟩ := c
    cases ok
    · simp only [firstError_cons, Bool.false_eq_true, if_false, Option.some.injEq] at h
      simp [h]
    · simp only [firstError_cons, if_true] at h
      simpa using .inr (by simpa using ih h)

/-- A checked command whose checks pass ends successfully with its effect. -/
theorem checked_pass {i : Instr} {cs : List (Bool × Err)} {s body : State} (h : firstError cs = none) :
    checked i cs s body = .next (complete body) := by simp [checked, h, endOk]

/-- A checked command whose checks fail ends in the first failing check's error, from the state at acceptance. -/
theorem checked_fail {i : Instr} {cs : List (Bool × Err)} {s body : State} {e : Err} (h : firstError cs = some e) :
    checked i cs s body = .next (raiseError e (encode i) s) := by simp [checked, h, endWithError]

/-- All that a checked command can do. -/
theorem checked_cases {i : Instr} {cs : List (Bool × Err)} {s body t : State} (h : checked i cs s body = .next t) :
    (∃ e ∈ cs.map Prod.snd, firstError cs = some e ∧ t = raiseError e (encode i) s) ∨
      (firstError cs = none ∧ t = complete body) := by
  cases hc : firstError cs with
  | none =>
    rw [checked_pass hc] at h
    exact .inr ⟨rfl, by cases h; rfl⟩
  | some e =>
    rw [checked_fail hc] at h
    exact .inl ⟨e, firstError_mem hc, rfl, by cases h; rfl⟩

/-! The geometry the checks give. -/

theorem dimsOk_iff {k : Desc} : dimsOk k = true ↔
    2 ≤ widthOf k ∧ widthOf k ≤ awidthOf k ∧ awidthOf k ≤ strideOf k ∧ 2 ≤ heightOf k ∧ heightOf k ≤ aheightOf k := by
  simp [dimsOk, and_assoc]

theorem rangeOk_iff {k : Desc} {size : Nat} : rangeOk k size = true ↔ footprintEnd k ≤ size := by
  simp [rangeOk]

/-- The footprint of a valid descriptor is not empty. -/
theorem base_lt_footprintEnd {k : Desc} (h : dimsOk k = true) : k.base.toNat < footprintEnd k := by
  obtain ⟨h1, h2, h3, h4, h5⟩ := dimsOk_iff.mp h
  have : 0 < aheightOf k * strideOf k := Nat.mul_pos (by omega) (by omega)
  simp only [footprintEnd]
  omega

/-- For valid descriptors, footprints that do not meet are disjoint intervals. -/
theorem footprintsMeet_eq_false {j k : Desc} (hj : dimsOk j = true) (hk : dimsOk k = true) :
    footprintsMeet j k = false ↔ Disjoint j k := by
  have h1 := base_lt_footprintEnd hj
  have h2 := base_lt_footprintEnd hk
  simp only [footprintsMeet, decide_eq_false_iff_not, Disjoint]
  omega

theorem bandChecks_pass {s : State} {rd : DescNum} : firstError (bandChecks s rd) = none ↔ BandReady s rd := by
  simp [firstError_eq_none, bandChecks, BandReady]

/-- The positions a valid band has room for lie in `CM`, whatever `CAP_RULE` is (R78, R145). -/
theorem capacity_within {s : State} {rd : DescNum} (h : BandReady s rd) :
    (desc s rd).base.toNat + capacity s (desc s rd) ≤ s.cfg.cmWords := by
  obtain ⟨hd, hr⟩ := h
  have hr := rangeOk_iff.mp hr
  obtain ⟨-, -, -, -, hh⟩ := dimsOk_iff.mp hd
  have hm := Nat.mul_le_mul_right (strideOf (desc s rd)) hh
  simp only [footprintEnd] at hr
  unfold capacity
  cases s.cfg.capRule <;> simp only <;> omega

theorem windowOk_iff {s : State} : windowOk s = true ↔ WindowReady s := by simp [windowOk]

theorem vldChecks_pass {s : State} {rd : DescNum} :
    firstError (vldChecks s rd) = none ↔ BandReady s rd ∧ WindowReady s := by
  rw [← bandChecks_pass, ← windowOk_iff]
  simp [firstError_eq_none, vldChecks, or_imp, forall_and]

/-- R172 passes when its first five conditions hold and, with the destination in `CM`, its footprint meets neither
source's. -/
theorem synChecks_pass {s : State} {rd ra rb : DescNum} {len outW outH size : Nat} {same : Bool} :
    firstError (synChecks s rd ra rb len outW outH size same) = none ↔
      SynShape s rd ra rb len outW outH size ∧
        (same = true → Disjoint (desc s rd) (desc s ra) ∧ Disjoint (desc s rd) (desc s rb)) := by
  have hw : widthOf (desc s rb) = widthOf (desc s ra) ↔ (desc s rb).width = (desc s ra).width := BitVec.toNat_inj
  have hh : heightOf (desc s rb) = heightOf (desc s ra) ↔ (desc s rb).height = (desc s ra).height := BitVec.toNat_inj
  have hm : ∀ k, dimsOk (desc s rd) = true → dimsOk (desc s k) = true →
      (Disjoint (desc s rd) (desc s k) ↔ footprintsMeet (desc s rd) (desc s k) = false) :=
    fun k h1 h2 => (footprintsMeet_eq_false h1 h2).symm
  simp only [firstError_eq_none, synChecks, SynShape, List.forall_mem_cons, List.not_mem_nil, Bool.and_eq_true,
    decide_eq_true_eq, hw, hh, Bool.not_eq_true', Bool.and_eq_false_iff, Bool.or_eq_false_iff]
  constructor
  · rintro ⟨⟨⟨h1, h2⟩, h3⟩, ⟨h4, h5⟩, h6, ⟨h7, h8⟩, ⟨⟨h9, h10⟩, h11⟩, h12, -⟩
    refine ⟨⟨h1, h2, h3, h4, h5, h6, h7, h8, h9, h10, h11⟩, fun hs => ?_⟩
    rw [hm _ h1 h2, hm _ h1 h3]
    simpa [hs] using h12
  · rintro ⟨⟨h1, h2, h3, h4, h5, h6, h7, h8, h9, h10, h11⟩, h12⟩
    rw [hm _ h1 h2, hm _ h1 h3] at h12
    refine ⟨⟨⟨h1, h2⟩, h3⟩, ⟨h4, h5⟩, h6, ⟨h7, h8⟩, ⟨⟨h9, h10⟩, h11⟩, ?_, by simp⟩
    cases same
    · exact .inl rfl
    · exact .inr (h12 rfl)

/-- R185 passes when its first four conditions hold and no two footprints meet. -/
theorem anaChecks_pass {s : State} {rd ra rb : DescNum} {len outW outH : Nat} :
    firstError (anaChecks s rd ra rb len outW outH) = none ↔
      AnaShape s rd ra rb len outW outH ∧
        Disjoint (desc s rd) (desc s ra) ∧ Disjoint (desc s rd) (desc s rb) ∧ Disjoint (desc s ra) (desc s rb) := by
  have hm : ∀ j k, dimsOk (desc s j) = true → dimsOk (desc s k) = true →
      (Disjoint (desc s j) (desc s k) ↔ footprintsMeet (desc s j) (desc s k) = false) :=
    fun j k h1 h2 => (footprintsMeet_eq_false h1 h2).symm
  simp only [firstError_eq_none, anaChecks, AnaShape, List.forall_mem_cons, List.not_mem_nil, Bool.and_eq_true,
    decide_eq_true_eq, Bool.not_eq_true', Bool.or_eq_false_iff]
  constructor
  · rintro ⟨⟨⟨h1, h2⟩, h3⟩, ⟨h4, h5⟩, ⟨⟨h6, h7⟩, h8, h9⟩, ⟨⟨h10, h11⟩, h12⟩, ⟨⟨h13, h14⟩, h15⟩, -⟩
    rw [hm _ _ h1 h2, hm _ _ h1 h3, hm _ _ h2 h3]
    exact ⟨⟨h1, h2, h3, h4, h5, h6, h7, h8, h9, h10, h11, h12⟩, h13, h14, h15⟩
  · rintro ⟨⟨h1, h2, h3, h4, h5, h6, h7, h8, h9, h10, h11, h12⟩, h13⟩
    rw [hm _ _ h1 h2, hm _ _ h1 h3, hm _ _ h2 h3] at h13
    exact ⟨⟨⟨h1, h2⟩, h3⟩, ⟨h4, h5⟩, ⟨⟨h6, h7⟩, h8, h9⟩, ⟨⟨h10, h11⟩, h12⟩, ⟨⟨h13.1, h13.2.1⟩, h13.2.2⟩, by simp⟩

end Sys2Proof.Machine
end

