-- ==== Sys2Proof/Machine/Driver.lean ====
section
/-! DEFINITION. The host's side of the block, none of it a command or a state of the block: the directives and macros of
R100, the hand-over of a payload (R208, R213), the reading of a tag (R205), the frame driver of R225 with its abort, and
the block's part of an encoder, the forward stages and the quantizing of R187. The tag parser itself is left out
(R5): what it finds is given to the driver as a plan. Assumption 22. -/

namespace Sys2Proof.Machine

/-- The byte offset of a descriptor field inside its descriptor (R23). -/
def fieldOffset : DescField → Nat
  | .base => 0x00
  | .width => 0x04
  | .height => 0x08
  | .stride => 0x0C
  | .awidth => 0x10
  | .aheight => 0x14

/-- The byte offset of a register (R23, R25). -/
def regOffset : Reg → Nat
  | .ctrl => 0x00
  | .status => 0x04
  | .errcode => 0x08
  | .errinfo => 0x0C
  | .cmd => 0x10
  | .quant => 0x14
  | .cbsel => 0x18
  | .bpc => 0x1C
  | .bslen => 0x20
  | .bspos => 0x24
  | .arg => 0x28
  | .res => 0x2C
  | .count => 0x30
  | .field k f => 0x40 + 0x20 * k.val + fieldOffset f

/-- `WR REG, v` (R100). -/
def wr (r : Reg) (v : Word) : HostEvent := .regWrite 4 (regOffset r) v

/-- `SETD k, base, w, h, s, aw, ah` (R100). -/
def setd (k : DescNum) (base w h s aw ah : Nat) : List HostEvent :=
  [ wr (.field k .base) (BitVec.ofNat 32 base), wr (.field k .width) (BitVec.ofNat 32 w),
    wr (.field k .height) (BitVec.ofNat 32 h), wr (.field k .stride) (BitVec.ofNat 32 s),
    wr (.field k .awidth) (BitVec.ofNat 32 aw), wr (.field k .aheight) (BitVec.ofNat 32 ah) ]

/-- A command of a listing, with the `WAIT` that implicitly follows it (R100). -/
def issue (i : Instr) : List HostEvent := [wr .cmd (encode i), .wait]

/-- `RECON out, t0, t1, b0, b1, b2, b3` (R100, R169). -/
def recon (out t0 t1 b0 b1 b2 b3 : DescNum) : List HostEvent :=
  issue (.vsyn t0 b0 b2) ++ issue (.vsyn t1 b1 b3) ++ issue (.hsyn out t0 t1)

/-- `RECONC out, t0, t1, b0, b1, b2, b3` (R100, R169). -/
def reconc (out t0 t1 b0 b1 b2 b3 : DescNum) : List HostEvent :=
  issue (.vsyn t0 b0 b2) ++ issue (.vsyn t1 b1 b3) ++ issue (.hsync out t0 t1)

/-- `DECOMP b0, b1, b2, b3, t0, t1, in` (R100, R187). -/
def decomp (b0 b1 b2 b3 t0 t1 x : DescNum) : List HostEvent :=
  issue (.hana t0 x t1) ++ issue (.vana b0 t0 b2) ++ issue (.vana b1 t1 b3)

/-- `SETD` with the six fields of a descriptor: what `subbandBuffer` gives for a band (R212). -/
def setBand (k : DescNum) (b : Desc) : List HostEvent :=
  setd k b.base.toNat (widthOf b) (heightOf b) (strideOf b) (awidthOf b) (aheightOf b)

/-- The writes before the `LPLD` of a lowpass payload whose marker tag stands at byte `p`: the destination descriptor,
`BSPOS`, and `BSLEN` at the end of the packet (R208). -/
def lowpassWrites (p len : Nat) (k : DescNum) (b : Desc) : List HostEvent :=
  setBand k b ++ [wr .bspos (BitVec.ofNat 32 (p + 4)), wr .bslen (BitVec.ofNat 32 len)]

/-- The writes before the `VLD` of a highpass payload whose marker tag stands at byte `p`: the destination descriptor, the
quantization factor, the codebook flag, `BSPOS` and `BSLEN` (R208, R213). -/
def highpassWrites (p len : Nat) (quant cbsel : Word) (k : DescNum) (b : Desc) : List HostEvent :=
  setBand k b ++ [wr .quant quant, wr .cbsel cbsel, wr .bspos (BitVec.ofNat 32 (p + 4)), wr .bslen (BitVec.ofNat 32 len)]

/-- A lowpass payload handed to the block (R208). -/
def handLowpass (p len : Nat) (k : DescNum) (b : Desc) : List HostEvent := lowpassWrites p len k b ++ issue (.lpld k)

/-- A highpass payload handed to the block (R208, R213). -/
def handHighpass (p len : Nat) (quant cbsel : Word) (k : DescNum) (b : Desc) : List HostEvent :=
  highpassWrites p len quant cbsel k b ++ issue (.vld k)

/-! The host as an agent with decisions: it plays actions on the machine and looks at what its reads gave. -/

/-- `n` steps of the machine, up to the first stop. -/
def steps : Nat → State → Result
  | 0, s => .next s
  | n + 1, s =>
    match step s with
    | .next t => steps n t
    | .fault f => .fault f
    | .refused r => .refused r

/-- The machine after the host has played a list of actions to its end: an action takes one step, and a command that it
starts one more. -/
def play (es : List HostEvent) (s : State) : Result := steps (2 * es.length) { s with input := es }

/-- `readTag` at byte `p` (R205): identifier and value. -/
def readTag (s : State) (p : Nat) : Int × Nat := ((bsHalf s p).toInt, (bsHalf s (p + 2)).toNat)

/-- The four bytes of a tag unit, as the host reads them. -/
def tagReads (p : Nat) : List HostEvent := [.bsRead p, .bsRead (p + 1), .bsRead (p + 2), .bsRead (p + 3)]

/-- The start of a raw lowpass block: `tag=4, value=0x0F0F` (R207). -/
def isLowpassMarker (t : Int × Nat) : Bool := decide (t.1 = 4) && decide (t.2 = 0x0F0F)

/-- The start of a highpass chunk: `tag=55` with a value other than 255 (R207). -/
def isHighpassMarker (t : Int × Nat) : Bool := decide (t.1 = 55) && decide (t.2 ≠ 255)

/-- One thing the driver does. -/
inductive DriverStep where
  /-- Register writes. -/
  | write (es : List HostEvent)
  /-- A command and its `WAIT`; when `STATUS` then shows `ERR` the frame is aborted (R216, R225). -/
  | command (i : Instr)
  /-- `expect (4, 0x0F0F)` at byte `p`. -/
  | expectLowpass (p : Nat)
  /-- `expect (55, ≠255)` at byte `p`. -/
  | expectHighpass (p : Nat)
  /-- A check of the host's own, with the error it found, if any (R215). -/
  | check (e : Option Err)
deriving DecidableEq, Repr

/-- Why a frame was aborted. -/
inductive Abort where
  /-- A command ended in error: the `ERRCODE` the host has read. -/
  | block (code : BitVec 8)
  /-- An error of the host's own (R215). -/
  | host (e : Err)
  /-- The tag met is not the one expected. -/
  | unexpectedTag
  /-- The machine stopped at an action of the host. -/
  | stopped
deriving DecidableEq, Repr

/-- The report of an aborted frame: the host reads `ERRCODE` (R225). -/
def reportError (s : State) : State × Option Abort :=
  match play [.regRead 4 (regOffset .errcode)] s with
  | .next t => (t, some (.block (t.hostData.setWidth 8)))
  | .fault _ => (s, some .stopped)
  | .refused _ => (s, some .stopped)

/-- The host reads a tag and goes on when it is the one expected; a tag beyond the buffer is a malformed header (R215). -/
def expectTag (p : Nat) (ok : Int × Nat → Bool) (s : State) (go : State → State × Option Abort) : State × Option Abort :=
  match play (tagReads p) s with
  | .next t => if ok (readTag t p) then go t else (t, some .unexpectedTag)
  | .fault _ => (s, some (.host .malformedHeader))
  | .refused _ => (s, some .stopped)

/-- The driver's steps in order, up to the first abort: "none are retried internally" (R216). -/
def runDriver : List DriverStep → State → State × Option Abort
  | [], s => (s, none)
  | .write es :: k, s =>
    match play es s with
    | .next t => runDriver k t
    | .fault _ => (s, some .stopped)
    | .refused _ => (s, some .stopped)
  | .command i :: k, s =>
    match play (issue i) s with
    | .next t => if t.hostData.getLsbD 2 then reportError t else runDriver k t
    | .fault _ => (s, some .stopped)
    | .refused _ => (s, some .stopped)
  | .expectLowpass p :: k, s => expectTag p isLowpassMarker s (runDriver k)
  | .expectHighpass p :: k, s => expectTag p isHighpassMarker s (runDriver k)
  | .check e :: k, s =>
    match e with
    | some e => (s, some (.host e))
    | none => runDriver k s

/-! The frame of R225. -/

/-- What the tags before a highpass chunk gave, the byte of its marker, and the slice the host chose for it. -/
structure BandPlan where
  band  : Desc
  tag   : Nat
  quant : Word
  cbsel : Word
deriving DecidableEq, Repr

/-- A declared extent, as the host sets it. -/
structure Extent where
  width  : Half
  height : Half
deriving DecidableEq, Repr

/-- The band of descriptor `b` with another declared extent: the same words of `CM`, at the same pitch and with the same
allocated extent (R276). -/
def declare (b : Desc) (e : Extent) : Desc := { b with width := e.width, height := e.height }

/-- One level of a plane: the declared extent of the low band its stage reads, its three highpass bands by
orientation, the intermediates of its stage, and the band the stage produces (in `CM`; at the last level the
destination rectangle stands in `FramePlan.dests` instead). The low band itself is the one that was loaded, or the
output of the stage before (R225); only its extent is the plan's own, since how a stage's output relates to a next
level of smaller declared extent is left open (R171, N16). -/
structure LevelPlan where
  low : Extent
  o1  : BandPlan
  o2  : BandPlan
  o3  : BandPlan
  t0  : Desc
  t1  : Desc
  out : Desc
deriving DecidableEq, Repr

/-- One plane: the lowpass band as loaded, the byte of its marker, and the levels 0, 1, 2. -/
structure PlanePlan where
  low    : Desc
  lowTag : Nat
  l0     : LevelPlan
  l1     : LevelPlan
  l2     : LevelPlan
deriving DecidableEq, Repr

/-- Where a stage has `SHL2`: on its two intermediates, on its output. -/
structure StageShift where
  onIntermediates : Bool
  onOutput        : Bool
deriving DecidableEq, Repr

/-- `SHIFT_POLICY` (R8, R170): the host's parameter, left OPEN. The last stage has no output in `CM` to shift. -/
structure ShiftPolicy where
  stage1 : StageShift
  stage2 : StageShift
  stage3 : Bool
deriving DecidableEq, Repr

/-- Reading A of R170. -/
def readingA (bpc : Nat) : ShiftPolicy :=
  { stage1 := ⟨false, decide (bpc = 12)⟩, stage2 := ⟨false, true⟩, stage3 := false }

/-- Reading B of R170, its intermediates shifted for bit depth 12, or always. -/
def readingB (always : Bool) (bpc : Nat) : ShiftPolicy :=
  { stage1 := ⟨false, false⟩, stage2 := ⟨false, false⟩, stage3 := always || decide (bpc = 12) }

/-- One frame as the driver meets it. What comes of the tags whose numbers the source does not give stands here: the
outcome of the header (R209, R215), the end of the packet, the bit depth, the chunks, the check of R214. -/
structure FramePlan where
  header     : Option Err
  packetEnd  : Nat
  bpc        : Word
  shift      : ShiftPolicy
  planes     : List PlanePlan
  /-- The rectangles of `DM`, by index of the destination plane (R219). -/
  dests      : List Desc
  /-- The destination index of the green channel, for planar RGB-family formats (R218). -/
  green      : Option Nat
  reassigned : Bool
deriving DecidableEq, Repr

/-- `plane'`: green and plane 0 swapped (R218). -/
def destPlane (green : Option Nat) (n : Nat) : Nat :=
  match green with
  | none => n
  | some g => if n = g then 0 else if n = 0 then g else n

/-- The lowpass line of R225. -/
def loadLow (f : FramePlan) (x : PlanePlan) : List DriverStep :=
  [.expectLowpass x.lowTag, .write (lowpassWrites x.lowTag f.packetEnd 0 x.low), .command (.lpld 0)]

/-- The highpass line of R225, for orientation `o`. -/
def loadHigh (f : FramePlan) (o : DescNum) (b : BandPlan) : List DriverStep :=
  [.expectHighpass b.tag, .write (highpassWrites b.tag f.packetEnd b.quant b.cbsel o b.band), .command (.vld o)]

/-- The three chunks of a level. -/
def loadLevel (f : FramePlan) (l : LevelPlan) : List DriverStep :=
  loadHigh f 1 l.o1 ++ loadHigh f 2 l.o2 ++ loadHigh f 3 l.o3

/-- The payloads of a plane, in stream order (R210). -/
def loadPlane (f : FramePlan) (x : PlanePlan) : List DriverStep :=
  loadLow f x ++ loadLevel f x.l0 ++ loadLevel f x.l1 ++ loadLevel f x.l2

/-- `SHL2` on descriptor `k`, if the policy says so. -/
def shiftIf (b : Bool) (k : DescNum) : List DriverStep := if b then [.command (.shl2 k)] else []

/-- The seven descriptors of a stage on the low band `low`: bands in 0 to 3, intermediates in 4 and 5, the output in `out`. -/
def stageDescs (low : Desc) (l : LevelPlan) (out : DescNum) (o : Desc) : DriverStep :=
  .write (setBand 0 (declare low l.low) ++ setBand 1 l.o1.band ++ setBand 2 l.o2.band ++ setBand 3 l.o3.band ++
    setBand 4 l.t0 ++ setBand 5 l.t1 ++ setBand out o)

/-- The two vertical passes of a stage, and the shift of their results (R169, R170). -/
def verticalPasses (shift : Bool) : List DriverStep :=
  [.command (.vsyn 4 0 2), .command (.vsyn 5 1 3)] ++ shiftIf shift 4 ++ shiftIf shift 5

/-- `RECON` of stages 1 and 2 with its shifts (R225). -/
def stage (sh : StageShift) (low : Desc) (l : LevelPlan) : List DriverStep :=
  stageDescs low l 6 l.out :: (verticalPasses sh.onIntermediates ++ [.command (.hsyn 6 4 5)] ++ shiftIf sh.onOutput 6)

/-- `WR BPC` and `RECONC` of stage 3, into the destination rectangle `dest` (R225). -/
def lastStage (sh : Bool) (bpc : Word) (low : Desc) (l : LevelPlan) (dest : Desc) : List DriverStep :=
  stageDescs low l 7 dest :: .write [wr .bpc bpc] :: (verticalPasses sh ++ [.command (.hsync 7 4 5)])

/-- The three stages of plane `n`, each on the band the one before produced (R171, R225). -/
def reconstructPlane (f : FramePlan) (x : PlanePlan) (n : Nat) : List DriverStep :=
  stage f.shift.stage1 x.low x.l0 ++ stage f.shift.stage2 x.l0.out x.l1 ++
    lastStage f.shift.stage3 f.bpc x.l1.out x.l2 (f.dests.getD (destPlane f.green n) Desc.zero)

/-- The driver of R225: soft reset, header, all payloads of all planes, the check of the dimensions, then all
reconstruction. -/
def frameSteps (f : FramePlan) : List DriverStep :=
  [.write [wr .ctrl 1], .check f.header] ++ f.planes.flatMap (loadPlane f) ++
    [.check (if f.reassigned then some .dimensionReassignedMidstream else none)] ++
    f.planes.zipIdx.flatMap fun p => reconstructPlane f p.1 p.2

/-- One frame decoded (R225). -/
def decodeFrame (f : FramePlan) (s : State) : State × Option Abort := runDriver (frameSteps f) s

/-! The forward stages of R187. The image of a plane stands in `CM` before they begin; the entropy encoder that takes up
after them is left out (R5, R152). -/

/-- A highpass band to quantize, with the factor the host chose for it (R126, R220). -/
structure QuantBand where
  band  : Desc
  quant : Word
deriving DecidableEq, Repr

/-- One forward stage: the declared extent of the band it analyses, its two intermediates, its low band and its highpass
bands by orientation. The band itself is the image or the low band of the stage before (R187); only its extent is the
plan's own (N16). -/
structure ForwardPlan where
  input : Extent
  t0    : Desc
  t1    : Desc
  low   : Desc
  o1    : QuantBand
  o2    : QuantBand
  o3    : QuantBand
deriving DecidableEq, Repr

/-- One plane: its image in `CM`, and its forward stages by level index: stage 3 is that of level 2. -/
structure ForwardPlane where
  image : Desc
  l0 : ForwardPlan
  l1 : ForwardPlan
  l2 : ForwardPlan
deriving DecidableEq, Repr

/-- What the block does for one encoded frame. -/
structure EncodePlan where
  shift  : ShiftPolicy
  planes : List ForwardPlane
deriving DecidableEq, Repr

/-- `DIV4` on descriptor `k`, if the policy has the decoder's `SHL2` there (R187). -/
def divideIf (b : Bool) (k : DescNum) : List DriverStep := if b then [.command (.div4 k)] else []

/-- `DECOMP` on the band `x` with its `DIV4`: on the band that is the output of the decoder's stage, before the stage,
and on the two intermediates, between its passes (R187). -/
def forwardStage (sh : StageShift) (x : Desc) (l : ForwardPlan) : List DriverStep :=
  .write (setBand 0 l.low ++ setBand 1 l.o1.band ++ setBand 2 l.o2.band ++ setBand 3 l.o3.band ++ setBand 4 l.t0 ++
      setBand 5 l.t1 ++ setBand 6 (declare x l.input)) ::
    (divideIf sh.onOutput 6 ++ [.command (.hana 4 6 5)] ++ divideIf sh.onIntermediates 4 ++
      divideIf sh.onIntermediates 5 ++ [.command (.vana 0 4 2), .command (.vana 1 5 3)])

/-- `QNTB` of the highpass band of orientation `o` (R126, R187). -/
def quantizeBand (o : DescNum) (b : QuantBand) : List DriverStep :=
  [.write (setBand o b.band ++ [wr .quant b.quant]), .command (.qntb o)]

/-- The highpass bands of a level. -/
def quantizeLevel (l : ForwardPlan) : List DriverStep :=
  quantizeBand 1 l.o1 ++ quantizeBand 2 l.o2 ++ quantizeBand 3 l.o3

/-- One plane: "in reverse level order (finest to coarsest)", stage 3 on the image, stages 2 and 1 on the
low band `b0` of the stage before; after the last
stage every highpass band is quantized (R187). -/
def forwardPlane (sh : ShiftPolicy) (x : ForwardPlane) : List DriverStep :=
  forwardStage ⟨sh.stage3, false⟩ x.image x.l2 ++ forwardStage sh.stage2 x.l2.low x.l1 ++
    forwardStage sh.stage1 x.l1.low x.l0 ++ quantizeLevel x.l0 ++ quantizeLevel x.l1 ++ quantizeLevel x.l2

/-- One frame up to the entropy encoder: a soft reset (R216), then the planes. -/
def encodeSteps (f : EncodePlan) : List DriverStep :=
  .write [wr .ctrl 1] :: f.planes.flatMap (forwardPlane f.shift)

/-- The transform and quantizer part of one encoded frame (R187, R220). -/
def encodeFrame (f : EncodePlan) (s : State) : State × Option Abort := runDriver (encodeSteps f) s

end Sys2Proof.Machine
end

