-- ==== Sys2Proof/Laws/Driver.lean ====
section
/-! SUPPORT. What playing a command does, and how the driver ends: an abort stops it, and without one it goes on. -/

namespace Sys2Proof.Machine

@[simp] theorem steps_zero (s : State) : steps 0 s = .next s := rfl

theorem steps_succ {n : Nat} {s t : State} (h : step s = .next t) : steps (n + 1) s = steps n t := by simp [steps, h]

/-- With nothing running and no action left, steps change nothing. -/
theorem steps_idle {s : State} (hr : s.running = none) (hi : s.input = []) (n : Nat) : steps n s = .next s := by
  induction n with
  | zero => rfl
  | succ n ih => rw [steps_succ (t := s) (by simp [step, move, hr, hi]), ih]

/-- A command the host issues while `ERR = 1` is ignored; the host has read `STATUS` (R30, R100, R237). -/
theorem play_issue_ignored {s : State} (hr : s.running = none) (he : s.err = true) (i : Instr) :
    play (issue i) s = .next { s with input := [], hostData := statusWord s } := by
  have h1 : step { s with input := issue i } = .next { s with input := [.wait] } := by
    simp [step, move, hr, issue, wr, regOffset, hostIdle, hostWrite, regOf, regAt, setReg, acceptCommand, busy, he]
  have h2 : step { s with input := [.wait] } = .next { s with input := [], hostData := statusWord s } := by
    simp [step, move, hr, hostIdle, answer, statusWord, busy]
  show steps 4 _ = _
  rw [steps_succ h1, steps_succ h2]
  exact steps_idle (s := { s with input := [], hostData := statusWord s }) hr rfl 2

/-- A command the host issues to an idle block without an error runs to its end, and the host has read `STATUS`
(R30, R100, R197). -/
theorem play_issue {s t : State} {i : Instr} (hr : s.running = none) (he : s.err = false)
    (hd : decode (encode i) = .ok i)
    (ht : exec i { s with running := some (encode i), done := false, input := [.wait] } = .next t)
    (htr : t.running = none) (hti : t.input = [.wait]) :
    play (issue i) s = .next { t with input := [], hostData := statusWord t } := by
  have h1 : step { s with input := issue i } =
      .next { s with running := some (encode i), done := false, input := [.wait] } := by
    simp [step, move, hr, issue, wr, regOffset, hostIdle, hostWrite, regOf, regAt, setReg, acceptCommand, busy, he]
  have h2 : step { s with running := some (encode i), done := false, input := [.wait] } = .next t := by
    simpa [step, move, runCommand, hd] using ht
  have h3 : step t = .next { t with input := [], hostData := statusWord t } := by
    simp [step, move, htr, hti, hostIdle, answer, statusWord, busy]
  show steps 4 _ = _
  rw [steps_succ h1, steps_succ h2, steps_succ h3]
  exact steps_idle (s := { t with input := [], hostData := statusWord t }) htr rfl 1

@[simp] theorem runDriver_nil (s : State) : runDriver [] s = (s, none) := rfl

/-- A command after which `STATUS` shows `ERR` ends the frame with the report of `ERRCODE`, whatever comes after it. -/
theorem runDriver_command_abort {s t : State} {i : Instr} {k : List DriverStep} (h : play (issue i) s = .next t)
    (he : t.hostData.getLsbD 2 = true) : runDriver (.command i :: k) s = reportError t := by
  simp [runDriver, h, he]

/-- A command after which `STATUS` shows no `ERR` lets the driver go on. -/
theorem runDriver_command_go {s t : State} {i : Instr} {k : List DriverStep} (h : play (issue i) s = .next t)
    (he : t.hostData.getLsbD 2 = false) : runDriver (.command i :: k) s = runDriver k t := by
  simp only [runDriver, h, he, Bool.false_eq_true, if_false]

/-- The actions of the commands among some driver steps. -/
def issued (ds : List DriverStep) : List HostEvent :=
  ds.flatMap fun d => match d with | .command i => issue i | _ => []

/-- The commands of an unshifted stage are the macro `RECON` of R100. -/
theorem stage_recon (low : Desc) (l : LevelPlan) : issued (stage ⟨false, false⟩ low l) = recon 6 4 5 0 1 2 3 := rfl

/-- The commands of an unshifted last stage are the macro `RECONC` of R100. -/
theorem lastStage_reconc (bpc : Word) (low : Desc) (l : LevelPlan) (dest : Desc) :
    issued (lastStage false bpc low l dest) = reconc 7 4 5 0 1 2 3 := rfl

/-- The commands of an undivided forward stage are the macro `DECOMP` of R100. -/
theorem forwardStage_decomp (x : Desc) (l : ForwardPlan) :
    issued (forwardStage ⟨false, false⟩ x l) = decomp 0 1 2 3 4 5 6 := rfl

/-- A band with another declared extent has its elements where it had them. -/
@[simp] theorem elemAddr_declare (b : Desc) (e : Extent) (r c : Nat) : elemAddr (declare b e) r c = elemAddr b r c := rfl

/-- A band with another declared extent has the same footprint. -/
@[simp] theorem footprintEnd_declare (b : Desc) (e : Extent) : footprintEnd (declare b e) = footprintEnd b := rfl

end Sys2Proof.Machine
end

