-- ==== Sys2Proof/Laws/PerInstr.lean ====
section
/-! SUPPORT. A statement about every command as syntax, one lemma per constructor: the word of a command selects, by mask
and pattern, a row of R93 with its mnemonic. -/

namespace Sys2Proof.Laws.EncodeTable

open Sys2Proof

/-- The word of `i` matches a row of the table of R93 whose mnemonic is that of `i`. -/
def Statement (i : Instr) : Prop :=
  ∃ r ∈ opcodeRows, r.mnemonic = i.mnemonic ∧ encode i &&& r.mask = r.pattern

/-- The row at a position of the table serves, if it is the one. -/
theorem of_row {i : Instr} (n : Fin opcodeRows.length)
    (h : opcodeRows[n].mnemonic = i.mnemonic ∧ encode i &&& opcodeRows[n].mask = opcodeRows[n].pattern) :
    Statement i :=
  ⟨opcodeRows[n], List.getElem_mem _, h⟩

theorem nop : Statement .nop := of_row ⟨0, by decide⟩ (by decide)
theorem deq : Statement .deq := of_row ⟨1, by decide⟩ (by decide)
theorem qnt : Statement .qnt := of_row ⟨2, by decide⟩ (by decide)
theorem lutb : Statement .lutb := of_row ⟨3, by decide⟩ (by decide)
theorem lutr : Statement .lutr := of_row ⟨4, by decide⟩ (by decide)
theorem qntb (rd : DescNum) : Statement (.qntb rd) := of_row ⟨5, by decide⟩ (by revert rd; decide)
theorem lpld (rd : DescNum) : Statement (.lpld rd) := of_row ⟨6, by decide⟩ (by revert rd; decide)
theorem vld (rd : DescNum) : Statement (.vld rd) := of_row ⟨7, by decide⟩ (by revert rd; decide)
theorem vsyn (rd ra rb : DescNum) : Statement (.vsyn rd ra rb) :=
  of_row ⟨8, by decide⟩ (by revert rd ra rb; decide +kernel)
theorem hsyn (rd ra rb : DescNum) : Statement (.hsyn rd ra rb) :=
  of_row ⟨9, by decide⟩ (by revert rd ra rb; decide +kernel)
theorem hsync (rd ra rb : DescNum) : Statement (.hsync rd ra rb) :=
  of_row ⟨10, by decide⟩ (by revert rd ra rb; decide +kernel)
theorem shl2 (rd : DescNum) : Statement (.shl2 rd) := of_row ⟨11, by decide⟩ (by revert rd; decide)
theorem vana (rd ra rb : DescNum) : Statement (.vana rd ra rb) :=
  of_row ⟨12, by decide⟩ (by revert rd ra rb; decide +kernel)
theorem hana (rd ra rb : DescNum) : Statement (.hana rd ra rb) :=
  of_row ⟨13, by decide⟩ (by revert rd ra rb; decide +kernel)
theorem div4 (rd : DescNum) : Statement (.div4 rd) := of_row ⟨14, by decide⟩ (by revert rd; decide)

end Sys2Proof.Laws.EncodeTable
end

