-- ==== Sys2Proof/Tests/Slice0.lean ====
section
/-! SUPPORT. Tests: ill-formed terms that each check refuses, command words written out from R91 and R93, one or two steps
of every command against 95_test_vectors.md, and for every statement with hypotheses a state and operands that meet
them. -/

namespace Sys2Proof.Tests

open Sys2Proof.Machine

/-! ## The setting of 95_test_vectors.md sections 3 and 6 -/

/-- The table `TOY` of 95_test_vectors.md section 3. -/
def toy : List CodeEntry :=
  [⟨1, 0b0, 0, 1, false⟩, ⟨3, 0b100, 1, 1, false⟩, ⟨3, 0b101, -1, 1, false⟩, ⟨4, 0b1100, 0, 4, false⟩,
   ⟨5, 0b11010, 2, 1, false⟩, ⟨5, 0b11011, -2, 1, false⟩, ⟨5, 0b11100, 10, 1, false⟩, ⟨5, 0b11101, -10, 1, false⟩,
   ⟨5, 0b11110, 0, 16, false⟩, ⟨5, 0b11111, 0, 0, true⟩]

/-- The parameters of program B. -/
def toyParams : Config.Params :=
  { cmWords := 160, dmWords := 48, bsBytes := 32, codebook0 := toy, codebook1 := toy, cbMaxLen := 5, div4 := .floor,
    capRule := .heightStride, qclip := .tenBit }

/-- The descriptors of programs B and C. -/
def bands : Vector Desc 8 :=
  #v[⟨0, 3, 3, 4, 4, 4⟩, ⟨16, 3, 3, 4, 4, 4⟩, ⟨32, 3, 3, 4, 4, 4⟩, ⟨48, 3, 3, 4, 4, 4⟩, ⟨64, 3, 6, 4, 4, 6⟩,
     ⟨88, 3, 6, 4, 4, 6⟩, ⟨112, 6, 6, 8, 8, 6⟩, ⟨0, 6, 6, 8, 8, 6⟩]

/-- The 32 bytes of program B. -/
def stream : List Host.Cell :=
  ([0x01, 0x90, 0x01, 0xA4, 0x01, 0xB8, 0x01, 0x9A, 0x01, 0xAE, 0x01, 0xC2, 0x01, 0x7C, 0x01, 0x90, 0x01, 0xA4, 0x00,
    0x00, 0x8A, 0xCD, 0x0F, 0x80, 0xCE, 0x74, 0xCF, 0x80, 0xCC, 0x6E, 0x3E, 0x00] : List Byte).zipIdx.map
      fun p => (p.2, p.1)

/-- Consecutive words from address `a`. -/
def cells (a : Nat) (vs : List Int) : Memory 16 := vs.zipIdx.map fun p => (a + p.2, wrap16 p.1)

/-- The machine after reset with the parameters of program B. -/
def fresh : State := { State.reset with cfg := toyParams }

/-- The block of program B before its first command, the stream at byte `pos`. -/
def ready (pos len : Nat) : State :=
  { fresh with d := bands, bs := stream, bspos := BitVec.ofNat 32 pos, bslen := BitVec.ofNat 32 len, quant := 8 }

/-- A block whose `CM` lists the words `vs` from address `a`. -/
def holding (a : Nat) (vs : List Int) : State := { ready 20 32 with cm := cells a vs }

/-- A command's state at its end. -/
def after (i : Instr) (s : State) : State :=
  match exec i s with
  | .next t => t
  | .fault _ => s
  | .refused _ => s

/-- The state after one step. -/
def stepped (s : State) : State :=
  match step s with
  | .next t => t
  | .fault _ => s
  | .refused _ => s

/-- Words of `CM`, signed. -/
def words (s : State) (as : List Nat) : List Int := as.map (cmInt s)

/-! ## Ill-formed terms, each refused by its check -/

theorem test_word_unassigned : commandWordOk 0x06000000 = false := by decide
theorem test_word_low_bits : commandWordOk 0x20814000 = false := by decide
theorem test_entry_empty : entryBitsOk 5 ⟨0, 0, 0, 1, false⟩ = false := by decide
theorem test_entry_too_long : entryBitsOk 5 ⟨6, 0, 0, 1, false⟩ = false := by decide
theorem test_entry_pattern_too_wide : entryBitsOk 5 ⟨2, 4, 0, 1, false⟩ = false := by decide
theorem test_prefix_clash : prefixFree [⟨1, 1, 0, 1, false⟩, ⟨3, 0b101, 1, 1, false⟩] = false := by decide
theorem test_prefix_duplicate : prefixFree [⟨2, 1, 0, 1, false⟩, ⟨2, 1, 1, 1, false⟩] = false := by decide
theorem test_incomplete : kraftComplete 5 (toy.drop 1) = false := by decide
theorem test_no_escape : hasEscape (toy.take 9) = false := by decide
theorem test_pair_no_run : entryPairOk ⟨3, 4, 1, 0, false⟩ = false := by decide
theorem test_pair_level_too_large : entryPairOk ⟨3, 4, 256, 1, false⟩ = false := by decide
theorem test_sizes_cm_empty : Config.sizesOk { toyParams with cmWords := 0 } = false := by decide
theorem test_sizes_bs_too_large : Config.sizesOk { toyParams with bsBytes := 2 ^ 32 - 3 } = false := by decide
theorem test_codebook_maxlen : Config.codebooksOk { toyParams with cbMaxLen := 33 } = false := by decide
theorem test_params_toy : toyParams.wf = true := by decide

/-! ## Command words, written out from R91 and R93 -/

theorem test_decode_nop : decode 0b00000000_000_000_000_000000000000000 = .ok .nop := by decide
theorem test_decode_deq : decode 0b00000001_000_000_000_000000000000000 = .ok .deq := by decide
theorem test_decode_qnt : decode 0b00000010_000_000_000_000000000000000 = .ok .qnt := by decide
theorem test_decode_lutb : decode 0b00000011_000_000_000_000000000000000 = .ok .lutb := by decide
theorem test_decode_lutr : decode 0b00000100_000_000_000_000000000000000 = .ok .lutr := by decide
theorem test_decode_qntb : decode 0b00000101_111_000_000_000000000000000 = .ok (.qntb 7) := by decide
theorem test_decode_lpld : decode 0b00010000_010_000_000_000000000000000 = .ok (.lpld 2) := by decide
theorem test_decode_vld : decode 0b00010001_001_000_000_000000000000000 = .ok (.vld 1) := by decide
theorem test_decode_vsyn : decode 0b00100000_100_000_010_000000000000000 = .ok (.vsyn 4 0 2) := by decide
theorem test_decode_hsyn : decode 0b00100001_110_100_101_000000000000000 = .ok (.hsyn 6 4 5) := by decide
theorem test_decode_hsync : decode 0b00100010_111_100_101_000000000000000 = .ok (.hsync 7 4 5) := by decide
theorem test_decode_shl2 : decode 0b00100011_110_000_000_000000000000000 = .ok (.shl2 6) := by decide
theorem test_decode_vana : decode 0b00101000_000_100_010_000000000000000 = .ok (.vana 0 4 2) := by decide
theorem test_decode_hana : decode 0b00101001_100_110_101_000000000000000 = .ok (.hana 4 6 5) := by decide
theorem test_decode_div4 : decode 0b00101010_110_000_000_000000000000000 = .ok (.div4 6) := by decide
theorem test_decode_form_n : decode 0x00200000 = .error .nonzeroN := by decide
theorem test_decode_form_d : decode 0x11240000 = .error .nonzeroD := by decide
theorem test_decode_form_t : decode 0x20814000 = .error .nonzeroT := by decide
theorem test_decode_unassigned : decode 0x2B000000 = .error .unassignedOpcode := by decide
theorem test_table_word : decodeTableWord 32 0x299A8000 = some (.hana 4 6 5) := by decide

/-! ## One step of each command -/

/-- V124. -/
theorem test_nop : statusWord (stepped (fresh.withFetchWord 32 0)) = 0x2 := by decide

/-- V101: `STATUS = 0x4`, `ERRCODE = 8`, `ERRINFO` the word. -/
theorem test_illegal :
    let t := stepped (fresh.withFetchWord 32 0x00000001)
    statusWord t = 0x4 ∧ t.errcode = 8 ∧ t.errinfo = 1 := by decide

/-- V7. -/
theorem test_deq : (after .deq { fresh with arg := -100, quant := 4 }).res = -584 := by decide
/-- V11. -/
theorem test_deq_largest : (after .deq { fresh with arg := 255, quant := 65535 }).res = 67042305 := by decide
/-- V33. -/
theorem test_qnt : (after .qnt { fresh with arg := -7, quant := 2 }).res = -4 := by decide
/-- V39. -/
theorem test_qnt_zero :
    let t := after .qnt { fresh with arg := 5, res := 9 }
    t.errcode = 12 ∧ t.res = 9 := by decide
/-- V40 to V44. -/
theorem test_lutb : ([28, 29, 146, 511, 512, 513, 1023].map fun i => lutTable.getD i 0) =
    [27, 28, 100, 190, 190, 191, 255] := by decide +kernel
/-- V42 on a table of one entry. -/
theorem test_lutr : (after .lutr { fresh with arg := 146, lutv := true, lut := [(146, 100)] }).res = 100 := by decide
/-- V45. -/
theorem test_lutr_outside : (after .lutr { fresh with arg := 1024, lutv := true }).errcode = 9 := by decide

/-- Program E, and `CM[51]` untouched. -/
theorem test_qntb :
    words (after (.qntb 3) { holding 48 [-6, 3, -8, 77, 3, 19, 3, 77, -8, 3, -6] with quant := 3 })
      [48, 49, 50, 51, 52, 53, 54, 56, 57, 58] = [-2, 1, -3, 77, 1, 6, 1, -3, 1, -2] := by decide
/-- V120. -/
theorem test_qntb_zero : (after (.qntb 1) fresh).errcode = 12 := by decide
/-- V47. -/
theorem test_lpld :
    let t := after (.lpld 0) (ready 0 32)
    words t [0, 1, 2, 4, 5, 6, 8, 9, 10, 12, 13, 14] = [400, 420, 440, 410, 430, 450, 380, 400, 420, 380, 400, 420] ∧
      t.bspos = 20 ∧ t.count = 9 ∧ statusWord t = 0x2 := by decide
/-- V49. -/
theorem test_lpld_overread :
    let t := after (.lpld 0) (ready 0 19)
    t.errcode = 4 ∧ t.bspos = 0 ∧ t.cm = [] := by decide
/-- V50. -/
theorem test_vld :
    let t := after (.vld 1) (ready 20 32)
    words t [16, 17, 18, 19, 20, 21, 22, 23, 24, 25, 26, 27] = [8, 0, -8, 0, 0, 0, 0, 0, 16, 0, 0, 0] ∧
      t.bspos = 24 ∧ t.count = 12 ∧ statusWord t = 0x2 := by decide +kernel
/-- V52. -/
theorem test_vld_overread :
    let t := after (.vld 1) (ready 20 21)
    words t [16, 17, 18, 19] = [8, 0, -8, 0] ∧ t.count = 4 ∧ t.bspos = 20 ∧ t.errcode = 4 ∧
      t.errinfo = 0x11200000 := by decide +kernel
/-- V64 down the first column. -/
theorem test_vsyn :
    words (after (.vsyn 4 0 2) { fresh with
        d := bands,
        cm := cells 0 [10, 0, 0, 0, 20, 0, 0, 0, 30, 0, 0, 0] ++ cells 32 [1, 0, 0, 0, -2, 0, 0, 0, 3, 0, 0, 0] })
      [64, 68, 72, 76, 80, 84] = [4, 6, 8, 12, 15, 15] := by
  decide +kernel
/-- V98. -/
theorem test_vsyn_overlap :
    (after (.vsyn 4 0 2) { fresh with d := bands.set 4 ⟨8, 3, 6, 4, 4, 6⟩ }).errcode = 10 := by decide
/-- The first two rows of variant B2, before the shift. -/
theorem test_hsyn :
    words (after (.hsyn 6 4 5) { fresh with
        d := (bands.set 4 ⟨64, 3, 2, 4, 4, 2⟩).set 5 ⟨88, 3, 2, 4, 4, 2⟩,
        cm := cells 64 [196, 206, 216, 0, 204, 214, 224] ++ cells 88 [6, 0, -6, 0, 1, 0, -3] })
      [112, 113, 114, 115, 116, 117, 120, 125] = [100, 96, 102, 104, 104, 112, 101, 115] := by decide +kernel
/-- V99 with valid descriptors. -/
theorem test_hsyn_same : (after (.hsyn 6 6 6) { fresh with d := bands.set 6 ⟨112, 3, 2, 6, 6, 2⟩ }).errcode = 10 := by
  decide
/-- V75's clip low: the row 0, 0, 0 with 8, 8, 8 (V65) gives 4, 0, 4, 0, 4, 0 in `DM`. -/
theorem test_hsync :
    let t := after (.hsync 7 4 5) { fresh with
      bpc := 10,
      d := (bands.set 4 ⟨64, 3, 2, 4, 4, 2⟩).set 5 ⟨88, 3, 2, 4, 4, 2⟩,
      cm := cells 64 [0, 0, 0, 0, 0, 0, 0] ++ cells 88 [8, 8, 8, 0, 8, 8, 8] }
    [0, 1, 2, 3, 4, 5].map (dmWord t) = [4, 0, 4, 0, 4, 0] ∧ t.ovf = false := by decide +kernel
/-- V77. -/
theorem test_hsync_depth : (after (.hsync 7 4 5) { fresh with bpc := 11 }).errcode = 7 := by decide
/-- V78. -/
theorem test_shl2 :
    let t := after (.shl2 0) (holding 0 [100, -3, 8191, 0, 8192, -8192, -8193, 0, 1, 2, 3])
    words t [0, 1, 2, 4, 5, 6] = [400, -12, 32764, -32768, -32768, 32764] ∧ t.ovf = true := by decide
/-- V91. -/
theorem test_shl2_dims : (after (.shl2 1) { fresh with d := bands.set 1 ⟨16, 1, 3, 4, 4, 4⟩ }).errcode = 2 := by decide
/-- V70 and V74 down the first two columns. -/
theorem test_vana :
    let t := after (.vana 0 4 2) { fresh with
      d := bands,
      cm := cells 64 [1, -5, 0, 0, 2, 3, 0, 0, 3, 0, 0, 0, 4, 0, 0, 0, 5, 9, 0, 0, 6, -9, 0, 0] }
    words t [0, 4, 8, 32, 36, 40] = [3, 7, 11, 0, 0, 0] ∧ words t [1, 5, 9, 33, 37, 41] = [-2, 0, 0, -7, 0, 18] := by
  decide +kernel
/-- Program C, rows 0 and 1 of the image. -/
theorem test_hana :
    let t := after (.hana 4 6 5) { fresh with
      d := bands.set 6 ⟨112, 6, 2, 8, 8, 2⟩,
      cm := cells 112 [0, 11, 44, 99, 176, 275, 0, 0, 37, 51, 87, 145, 225, 312] }
    words t [64, 65, 66, 68, 69, 70] = [11, 143, 451, 88, 232, 537] ∧
      words t [88, 89, 90, 92, 93, 94] = [0, 0, 0, 2, -2, 9] := by decide +kernel
/-- V79, with the parameter `x >> 2`. -/
theorem test_div4 :
    words (after (.div4 0) (holding 0 [400, -12, 0, 0, 4, 5, -5, 0, 1, 2, 3])) [0, 1, 2, 4, 5, 6] =
      [100, -3, 0, 1, 1, -2] := by decide
/-- The same image with `trunc`. -/
theorem test_div4_trunc : div4Value .trunc (-5) = -1 ∧ div4Value .nearest (-5) = -1 := by decide

/-- V24 and V26 with the alternative clip range of 95_test_vectors.md 2.3. -/
theorem test_qclip : (qntValue .elevenBit 512 1 = 512 ∧ qntValue .elevenBit (-513) 1 = -513) ∧
    qntValue .tenBit 512 1 = 511 ∧ qntValue .tenBit (-513) 1 = -512 := by decide

/-- R145: a band of 3 columns and 2 rows at pitch 4 has 8 positions, or 12 by the alternative. -/
theorem test_capacity :
    let s := { fresh with cfg := { toyParams with capRule := .widthStride } }
    capacity fresh ⟨16, 3, 2, 4, 4, 4⟩ = 8 ∧ capacity s ⟨16, 3, 2, 4, 4, 4⟩ = 12 := by decide

/-- R100: after `WAIT` the host has read `STATUS`. -/
theorem test_wait : (stepped { fresh with done := true, input := [.wait] }).hostData = 0x2 := by decide

/-- R225: a command that ends in error aborts the frame; what follows is not issued. -/
theorem test_driver_abort :
    let r := runDriver [.command .qnt, .write [wr .quant 5]] fresh
    r.2 = some (.block 12) ∧ r.1.quant = 0 := by decide

/-- R187: `DIV4` stands on the bands the decoder's `SHL2` of reading A stands on, here the output of stage 2 (`d6`). -/
theorem test_forward_divides (x : Desc) (l : ForwardPlan) :
    (forwardStage (readingA 10).stage2 x l).tail =
      [.command (.div4 6), .command (.hana 4 6 5), .command (.vana 0 4 2), .command (.vana 1 5 3)] := rfl

/-- R187: stage 2 runs on the low band of stage 3, with the extent the host declares for it. -/
theorem test_forward_chain (sh : ShiftPolicy) (x : ForwardPlane) :
    (forwardStage sh.stage2 x.l2.low x.l1).Sublist (forwardPlane sh x) := by
  simp only [forwardPlane, List.append_assoc]
  exact ((List.sublist_append_left _ _).trans (List.sublist_append_right _ _))

/-- R205, R207: a tag unit read from `BS`. -/
theorem test_read_tag :
    isLowpassMarker (readTag { fresh with bs := [(0, 0x00), (1, 0x04), (2, 0x0F), (3, 0x0F)] } 0) = true := by decide

/-- R208: the writes of a highpass payload start with the destination descriptor. -/
theorem test_hand_highpass :
    (handHighpass 16 32 8 0 1 ⟨16, 3, 3, 4, 4, 4⟩) =
      setd 1 16 3 3 4 4 4 ++ [wr .quant 8, wr .cbsel 0, wr .bspos 20, wr .bslen 32] ++ issue (.vld 1) := by decide

/-- V126: the line is high after an enabled error. -/
theorem test_irq : irq (after .qnt { fresh with ieErr := true }) = true := by decide
/-- R262: a soft reset keeps `CM`. -/
theorem test_soft_reset :
    let t := stepped { holding 0 [5] with err := true, errcode := 4, input := [wr .ctrl 1] }
    t.cm = cells 0 [5] ∧ t.err = false ∧ t.quant = 0 ∧ desc t 3 = Desc.zero := by decide
/-- H1, assumption 12. -/
theorem test_host_memory_busy :
    step { fresh with running := some 0, input := [.cmRead 0] } = .refused .hostMemoryWhileBusy := rfl
/-- Assumption 14. -/
theorem test_host_no_address : step { fresh with input := [.cmRead 160] } = .fault .noSuchAddress := rfl

/-! ## For every statement with hypotheses, a state and operands that meet them

Each theorem is named after its statement in Certificates/Slice0/Obligations.lean; a statement of several clauses has a
witness for each, at the edge of its range. -/

theorem test_meets_IllegalWordRaisesIllcmd :
    let s := { fresh with running := some 0x11240000 }
    s.running = some 0x11240000 ∧ s.input = [] ∧ commandWordOk 0x11240000 = false := by decide

theorem test_meets_StepRunsDecodedCommand :
    let s := { ready 20 32 with running := some 0x11200000, input := [.wait] }
    s.running = some 0x11200000 ∧ s.input.head? = some .wait ∧ decode 0x11200000 = .ok (.vld 1) := by decide

theorem test_meets_CommandWriteIsAccepted :
    let s := { ready 20 32 with input := [.regWrite 4 0x10 0x11200000, .wait] }
    s.running = none ∧ s.err = false ∧ s.input = [.regWrite 4 0x10 0x11200000, .wait] ∧
      decode 0x11200000 = .ok (.vld 1) := by decide

theorem test_meets_IgnoredWritesChangeNothing :
    let s := { fresh with err := true, errcode := 12, input := [.regWrite 4 0x10 0] }
    let u := { fresh with running := some 0, input := [.regWrite 4 0x14 7] }
    (s.input = [.regWrite 4 0x10 0] ∧ s.running = none ∧ s.err = true) ∧
      (u.input = [.regWrite 4 0x14 7] ∧ u.running = some 0) := by decide

theorem test_meets_NopLifeCycle :
    let s := { fresh with input := [.regWrite 4 0x10 0, .wait] }
    (s.input = [.regWrite 4 0x10 0, .wait] ∧ s.running = none ∧ s.err = false) ∧
      (let u := { s with err := true }
       u.input = [.regWrite 4 0x10 0, .wait] ∧ u.running = none ∧ u.err = true) ∧
      (let u := { s with running := some 0x01000000 }
       u.input = [.regWrite 4 0x10 0, .wait] ∧ u.running = some 0x01000000) ∧
      opcOf 0 = 0 ∧ decode 0 = .ok .nop := by decide

/-- `NOP` meets the premises of every clause but the last one's other names. -/
theorem test_meets_CommandRegisterFrame :
    exec .nop fresh = .next (after .nop fresh) ∧ (∀ rd, Instr.nop ≠ .lpld rd ∧ Instr.nop ≠ .vld rd) ∧
      Instr.nop ≠ .deq ∧ Instr.nop ≠ .qnt ∧ Instr.nop ≠ .lutr ∧ Instr.nop ≠ .lutb :=
  ⟨rfl, by decide⟩

theorem test_meets_ImageWrittenOnlyBySuccessfulHsync :
    exec .qnt fresh = .next (after .qnt fresh) ∧ (∀ rd ra rb, Instr.qnt ≠ .hsync rd ra rb) ∧ fresh.err = false ∧
      (after .qnt fresh).err = true := by
  refine ⟨rfl, ?_, rfl, rfl⟩
  intro rd ra rb h
  cases h

theorem test_meets_CommandErrorsAsRuled :
    (fresh.err = false ∧ exec .qnt fresh = .next (after .qnt fresh) ∧ (after .qnt fresh).err = true ∧
      ∀ rd, Instr.qnt ≠ .vld rd) ∧
      (exec (.vld 1) (ready 20 21) = .next (after (.vld 1) (ready 20 21)) ∧ (ready 20 21).err = false ∧
        (after (.vld 1) (ready 20 21)).err = true ∧ (after (.vld 1) (ready 20 21)).errcode ≠ 2 ∧
        (after (.vld 1) (ready 20 21)).errcode ≠ 9) :=
  ⟨⟨rfl, rfl, rfl, by decide⟩, rfl, by decide⟩

/-- A state that meets the invariant with a command running and all memories listed. -/
def busyState : State := { holding 0 [400, -3] with running := some 0x11200000, input := [.wait], dm := [(47, 1023)] }

theorem test_meets_StepKeepsMachineInvariant : step busyState = .next (stepped busyState) ∧ Inv busyState :=
  ⟨rfl,
   { cmForm := by decide, dmForm := by decide, bsForm := by decide, lutForm := by decide, cmWithin := by decide,
     dmWithin := by decide, bsWithin := by decide, lutWithin := by decide, errClear := by decide, errKnown := by decide,
     runClean := fun _ _ => ⟨rfl, rfl⟩, lutBuilt := by decide }⟩

theorem test_meets_IdleResetClearsRegisters :
    let s := { holding 0 [5] with err := true, input := [.hardReset] }
    let u := { holding 0 [5] with err := true, input := [.regWrite 4 0 0x1] }
    (s.running = none ∧ s.input = [.hardReset] ∧ isReset .hardReset = true) ∧
      (u.running = none ∧ u.input = [.regWrite 4 0 0x1] ∧ isReset (.regWrite 4 0 0x1) = true) := by decide

theorem test_meets_HardResetAbandonsCommand :
    let s := { busyState with input := [.hardReset] }
    s.running = some 0x11200000 ∧ decode 0x11200000 = .ok (.vld 1) ∧ s.input = [.hardReset] ∧
      Instr.vld 1 ≠ .lutb := by decide

theorem test_meets_FirstCommandsAfterReset :
    (∀ r : Reg, r ≠ .status → getReg fresh r = 0) ∧ fresh.lutv = false ∧ fresh.err = false := by
  refine ⟨fun r _ => ?_, rfl, rfl⟩
  cases r with
  | field k f => revert k; cases f <;> decide
  | _ => rfl

theorem test_meets_PlainRegisterReadsBack :
    let s := { fresh with input := [.regWrite 4 0x134 0xFFFFFFFF] }
    plainReg (.field 7 .aheight) = true ∧ regOf 4 0x134 = some (.field 7 .aheight) ∧ s.running = none ∧
      s.input = [.regWrite 4 0x134 0xFFFFFFFF] := by decide

/-- Offsets at the edges of the gaps of the map of R25. -/
theorem test_meets_ReservedBitsInert :
    (regAt 0x34 = none ∧ regAt 0x3C = none ∧ regAt 0x58 = none ∧ regAt 0x13C = none ∧ regAt 0x140 = none) ∧
      (let s := { fresh with input := [.regRead 4 0x1C] }
       regOf 4 0x1C = some .bpc ∧ s.running = none ∧ s.input = [.regRead 4 0x1C]) ∧
      (let s := { fresh with input := [.regWrite 4 0x1C 0xFFFFFFFF] }
       s.running = none ∧ s.input = [.regWrite 4 0x1C 0xFFFFFFFF]) ∧
      ({ fresh with input := [.regWrite 4 0x140 5] } : State).input = [.regWrite 4 0x140 5] ∧
      ({ fresh with running := some 0, input := [.regRead 4 0x140] } : State).input = [.regRead 4 0x140] := by decide

theorem test_meets_NarrowOrUnalignedAccessInert :
    let s := { fresh with input := [.regWrite 2 0x14 5] }
    let u := { fresh with input := [.regRead 4 0x16] }
    ((2 ≠ 4 ∨ 0x14 % 4 ≠ 0) ∧ s.input = [.regWrite 2 0x14 5]) ∧
      ((4 ≠ 4 ∨ 0x16 % 4 ≠ 0) ∧ u.input = [.regRead 4 0x16]) := by decide

theorem test_meets_HostActionsWhileBusy :
    let s := fun e => { fresh with running := some 0, input := [e] }
    ((s (.regRead 4 0x04)).running = some 0 ∧ (s (.regRead 4 0x04)).input = [.regRead 4 0x04] ∧
        regOf 4 0x04 = some .status) ∧
      ((s (.cmRead 0)).running = some 0 ∧ (s (.cmRead 0)).input = [.cmRead 0]) := by decide

/-- The last unit of each memory. -/
theorem test_meets_HostAccessesWhileIdle :
    (∀ e ∈ ([.regRead 4 0x14, .wait, .cmRead 159, .cmWrite 159 7, .dmRead 47, .dmWrite 47 7, .bsRead 31, .bsWrite 31 7] :
        List HostEvent), ({ fresh with input := [e] } : State).running = none ∧
          ({ fresh with input := [e] } : State).input = [e]) ∧
      regOf 4 0x14 = some .quant ∧ 159 < fresh.cfg.cmWords ∧ 47 < fresh.cfg.dmWords ∧ 31 < fresh.cfg.bsBytes := by
  decide

theorem test_meets_AcknowledgeClearsDone :
    let s := { fresh with done := true, input := [.regWrite 4 0x04 0x2] }
    let u := { fresh with done := true, input := [.regWrite 4 0x10 0] }
    (s.running = none ∧ s.input = [.regWrite 4 0x04 0x2]) ∧
      (u.running = none ∧ u.err = false ∧ u.input = [.regWrite 4 0x10 0]) := by decide

theorem test_meets_InterruptLine :
    (let s := { fresh with input := [.regWrite 4 0x00 0x6] }
     s.running = none ∧ (0x6 : Word).getLsbD 0 = false ∧ s.input = [.regWrite 4 0x00 0x6]) ∧
      fresh.done = false ∧ fresh.err = false ∧ exec .nop fresh = .next (after .nop fresh) :=
  ⟨by decide, rfl, rfl, rfl⟩

theorem test_meets_StickyUntilReset :
    let s := { fresh with ovf := true, lutv := true, err := true, errcode := 3, input := [.regWrite 4 0x10 0] }
    resetsNext s = false ∧ step s = .next (stepped s) ∧ s.ovf = true ∧ s.lutv = true ∧ s.err = true ∧
      s.running = none :=
  ⟨rfl, rfl, rfl, rfl, rfl, rfl⟩

theorem test_meets_DeqOddAndMonotone :
    (1 ≤ 1 ∧ (-1 : Int) < 0) ∧ (|(-255 : Int)| ≤ 255 ∧ 65535 ≤ 65535) := by decide

theorem test_meets_QntResult :
    ({ fresh with quant := 0xFFFFFFFF } : State).quant ≠ 0 ∧ fresh.quant = 0 := by decide

theorem test_meets_QntIdentityAtOne : 32768 < 32769 := by decide

theorem test_meets_LutrReadsEntry :
    (let s := { fresh with lutv := true, arg := 1023 }
     s.lutv = true ∧ 0 ≤ s.arg.toInt ∧ s.arg.toInt ≤ 1023) ∧
      fresh.lutv = false ∧
      (let s := { fresh with lutv := true, arg := 1024 }
       s.lutv = true ∧ (s.arg.toInt < 0 ∨ 1023 < s.arg.toInt)) ∧
      (let s := { fresh with lutv := true, arg := -1 }
       s.lutv = true ∧ (s.arg.toInt < 0 ∨ 1023 < s.arg.toInt)) := by decide

theorem test_meets_CompanderRoundTrip :
    exec .lutb fresh = .next (after .lutb fresh) ∧ 255 ≤ 255 ∧ (15 ≤ 15 ∧ 190 ≤ 190) ∧ 132 < 133 :=
  ⟨rfl, by decide⟩

theorem test_meets_QntbResult : (ready 20 32).quant ≠ 0 ∧ BandReady (ready 20 32) 6 := by decide

theorem test_meets_ShlResult : BandReady (ready 20 32) 6 := by decide

theorem test_meets_QuarterResult : BandReady (ready 20 32) 6 := by decide

/-- A block whose band `d0` is listed in full. -/
def smallBand : State := holding 0 [100, -3, 8191, 0, -8192, 5, 6, 0, 1, 2, 3]

theorem test_meets_QuarterUndoesShl :
    let t := after (.shl2 0) smallBand
    exec (.shl2 0) smallBand = .next t ∧ t.err = false ∧ t.ovf = false ∧
      exec (.div4 0) t = .next (after (.div4 0) t) :=
  ⟨rfl, by decide, by decide, rfl⟩

/-- Each clause, the footprint one word too long. -/
theorem test_meets_BandCommandTraps :
    fresh.quant = 0 ∧
      ((ready 20 32).quant ≠ 0 ∧
        dimsOk (desc ({ ready 20 32 with d := bands.set 1 ⟨16, 1, 3, 4, 4, 4⟩ } : State) 1) = false) ∧
      (let s := { ready 20 32 with d := bands.set 1 ⟨145, 3, 3, 4, 4, 4⟩ }
       s.quant ≠ 0 ∧ dimsOk (desc s 1) = true ∧ s.cfg.cmWords < footprintEnd (desc s 1)) := by decide

/-- The block of V47 with the least window. -/
theorem test_meets_LpldResult :
    let s := ready 0 20
    BandReady s 0 ∧ WindowReady s ∧ heightOf (desc s 0) % 2 = 1 ∧
      heightOf (desc s 0) + 1 ≤ aheightOf (desc s 0) ∧
      align4 (s.bspos.toNat + 2 * (widthOf (desc s 0) * heightOf (desc s 0))) ≤ s.bslen.toNat := by decide

/-- V48, V61, V49. -/
theorem test_meets_LpldTraps :
    (let s := { ready 0 32 with d := bands.set 0 ⟨0, 3, 3, 4, 4, 3⟩ }
     heightOf (desc s 0) % 2 = 1 ∧ aheightOf (desc s 0) = heightOf (desc s 0)) ∧
      (let s := ready 40 32
       dimsOk (desc s 0) = true ∧ aheightOf (desc s 0) ≠ heightOf (desc s 0) ∧ ¬WindowReady s) ∧
      (let s := ready 0 19
       dimsOk (desc s 0) = true ∧ aheightOf (desc s 0) ≠ heightOf (desc s 0) ∧
         footprintEnd (desc s 0) ≤ s.cfg.cmWords ∧ WindowReady s ∧
         s.bslen.toNat < align4 (s.bspos.toNat + 2 * (widthOf (desc s 0) * heightOf (desc s 0)))) := by decide

/-- The pairs of V50. -/
def v50 : List CodeEntry :=
  [⟨3, 0b100, 1, 1, false⟩, ⟨1, 0, 0, 1, false⟩, ⟨3, 0b101, -1, 1, false⟩, ⟨1, 0, 0, 1, false⟩,
   ⟨4, 0b1100, 0, 4, false⟩, ⟨5, 0b11010, 2, 1, false⟩, ⟨1, 0, 0, 1, false⟩, ⟨1, 0, 0, 1, false⟩,
   ⟨1, 0, 0, 1, false⟩]

/-- V51: the chunk ends exactly at the bound, and fills the capacity. -/
theorem test_meets_VldDecodesChunk :
    let s := ready 20 24
    let stop : CodeEntry := ⟨5, 0b11111, 0, 0, true⟩
    s.cfg.wf = true ∧ BandReady s 1 ∧ WindowReady s ∧ ChunkBegins s (v50 ++ [stop]) ∧
      (∀ e ∈ v50, e.esc = false) ∧ stop.esc = true ∧
      (v50.map CodeEntry.run).sum ≤ capacityRule s (desc s 1) ∧
      align4 (s.bspos.toNat + ceil8 (codewordBits (v50 ++ [stop])).length) ≤ s.bslen.toNat := by decide

/-- V55: after 8 positions the next pair would make 9. -/
theorem test_meets_VldRefusesToExceedCapacity :
    let s := { ready 20 24 with d := bands.set 1 ⟨16, 3, 2, 4, 4, 4⟩ }
    let e : CodeEntry := ⟨5, 0b11010, 2, 1, false⟩
    s.cfg.wf = true ∧ BandReady s 1 ∧ WindowReady s ∧ ChunkBegins s (v50.take 5 ++ [e]) ∧
      (∀ f ∈ v50.take 5, f.esc = false) ∧ e.esc = false ∧
      ((v50.take 5).map CodeEntry.run).sum ≤ capacityRule s (desc s 1) ∧
      capacityRule s (desc s 1) < ((v50.take 5).map CodeEntry.run).sum + e.run ∧
      (codewordBits (v50.take 5 ++ [e])).length ≤ 8 * (s.bslen.toNat - s.bspos.toNat) := by decide

/-- V60, V61 and a footprint one word too long; V52, whose window ends between two codewords; V62, whose padding is cut. -/
theorem test_meets_VldTraps :
    dimsOk (desc ({ ready 20 32 with d := bands.set 1 ⟨16, 5, 3, 4, 4, 4⟩ } : State) 1) = false ∧
      (dimsOk (desc (ready 40 32) 1) = true ∧ ¬WindowReady (ready 40 32)) ∧
      (let s := { ready 20 32 with d := bands.set 1 ⟨145, 3, 3, 4, 4, 4⟩ }
       dimsOk (desc s 1) = true ∧ ¬(footprintEnd (desc s 1) ≤ s.cfg.cmWords)) ∧
      (let s := ready 20 21
       s.cfg.wf = true ∧ BandReady s 1 ∧ WindowReady s ∧ (∀ e ∈ v50.take 4, e.esc = false) ∧
         ChunkBegins s (v50.take 4) ∧
         (codewordBits (v50.take 4)).length ≤ 8 * (s.bslen.toNat - s.bspos.toNat) ∧
         ((v50.take 4).map CodeEntry.run).sum ≤ capacityRule s (desc s 1) ∧
         ∀ e ∈ codebook s, ChunkBegins s (v50.take 4 ++ [e]) →
           8 * (s.bslen.toNat - s.bspos.toNat) < (codewordBits (v50.take 4 ++ [e])).length) ∧
      (let s := ready 28 31
       let pairs : List CodeEntry := [⟨4, 0b1100, 0, 4, false⟩, ⟨4, 0b1100, 0, 4, false⟩, ⟨1, 0, 0, 1, false⟩,
         ⟨5, 0b11011, -2, 1, false⟩, ⟨3, 0b100, 1, 1, false⟩, ⟨1, 0, 0, 1, false⟩]
       let stop : CodeEntry := ⟨5, 0b11111, 0, 0, true⟩
       s.cfg.wf = true ∧ BandReady s 3 ∧ WindowReady s ∧ (∀ e ∈ pairs, e.esc = false) ∧ ChunkBegins s pairs ∧
         (codewordBits pairs).length ≤ 8 * (s.bslen.toNat - s.bspos.toNat) ∧
         (pairs.map CodeEntry.run).sum ≤ capacityRule s (desc s 3) ∧ stop.esc = true ∧
         ChunkBegins s (pairs ++ [stop]) ∧
         (codewordBits (pairs ++ [stop])).length ≤ 8 * (s.bslen.toNat - s.bspos.toNat) ∧
         s.bslen.toNat < align4 (s.bspos.toNat + ceil8 (codewordBits (pairs ++ [stop])).length)) := by decide

/-- V54's cut, one byte before the end. -/
theorem test_meets_VldTruncatedChunkOverreads :
    let s := ready 20 24
    let t := after (.vld 1) s
    exec (.vld 1) s = .next t ∧ t.err = false ∧ s.bspos.toNat ≤ (23 : Word).toNat ∧ (23 : Word).toNat < t.bspos.toNat :=
  ⟨rfl, by decide⟩

theorem test_meets_CompleteTableNeverBadcode :
    let s := ready 20 21
    let t := after (.vld 1) s
    s.cfg.wf = true ∧ s.err = false ∧ exec (.vld 1) s = .next t ∧ t.err = true :=
  ⟨by decide, rfl, rfl, by decide⟩

theorem test_meets_VldStaysInBand :
    let s := ready 20 32
    s.err = false ∧ exec (.vld 1) s = .next (after (.vld 1) s) :=
  ⟨rfl, rfl⟩

theorem test_meets_PredictorsMirrorAndSum : 3 ≤ 3 ∧ 2 < 3 := by decide

/-- A constant line, and a line at the bound of the second clause. -/
theorem test_meets_SynthesisKernelFacts :
    3 ≤ 3 ∧ ((∀ i < 3, (fun _ => 7 : Nat → Int) i = 7) ∧ ∀ i < 3, (fun _ => 0 : Nat → Int) i = 0) ∧
      (∀ i < 3, |(fun _ => 21844 : Nat → Int) i| ≤ (21844 : Nat) ∧ |(fun _ => -21844 : Nat → Int) i| ≤ (21844 : Nat)) ∧
      21844 ≤ 21844 := by decide

theorem test_meets_SynthesisInvertsAnalysis : 3 ≤ 3 ∧ 5 < 2 * 3 := by decide

theorem test_meets_AnalysisKernelFacts :
    3 ≤ 3 ∧ (∀ j < 2 * 3, (fun _ => 7 : Nat → Int) j = 7) ∧ ∀ j < 2 * 3, |(fun _ => -7 : Nat → Int) j| ≤ (7 : Nat) := by
  decide

theorem test_meets_VsynResult :
    let s := ready 20 32
    SynShape s 4 0 2 (heightOf (desc s 0)) (widthOf (desc s 0)) (2 * heightOf (desc s 0)) s.cfg.cmWords ∧
      Disjoint (desc s 4) (desc s 0) ∧ Disjoint (desc s 4) (desc s 2) := by decide

theorem test_meets_HsynResult :
    let s := ready 20 32
    SynShape s 6 4 5 (widthOf (desc s 4)) (2 * widthOf (desc s 4)) (heightOf (desc s 4)) s.cfg.cmWords ∧
      Disjoint (desc s 6) (desc s 4) ∧ Disjoint (desc s 6) (desc s 5) := by decide

/-- The destination fills `DM`. -/
theorem test_meets_HsyncResult :
    let s := { ready 20 32 with bpc := 12 }
    (s.bpc = 10 ∨ s.bpc = 12) ∧
      SynShape s 7 4 5 (widthOf (desc s 4)) (2 * widthOf (desc s 4)) (heightOf (desc s 4)) s.cfg.dmWords := by decide

theorem test_meets_VanaResult :
    let s := ready 20 32
    AnaShape s 0 4 2 (heightOf (desc s 4)) (widthOf (desc s 4)) (heightOf (desc s 4) / 2) ∧
      Disjoint (desc s 0) (desc s 4) ∧ Disjoint (desc s 0) (desc s 2) ∧ Disjoint (desc s 4) (desc s 2) := by decide

theorem test_meets_HanaResult :
    let s := ready 20 32
    AnaShape s 4 6 5 (widthOf (desc s 6)) (widthOf (desc s 6) / 2) (heightOf (desc s 6)) ∧
      Disjoint (desc s 4) (desc s 6) ∧ Disjoint (desc s 4) (desc s 5) ∧ Disjoint (desc s 6) (desc s 5) := by decide

/-- A block whose band `d4` is listed in full. -/
def tallBand : State :=
  { fresh with
    d := bands
    cm := cells 64 [1, -5, 9, 0, 2, 3, 9, 0, 3, 0, 9, 0, 4, 0, 9, 0, 5, 9, 9, 0, 6, -9, 9, 0] }

theorem test_meets_VsynUndoesVana :
    let t := after (.vana 0 4 2) tallBand
    let u := after (.vsyn 5 0 2) t
    (exec (.vana 0 4 2) tallBand = .next t ∧ exec (.vsyn 5 0 2) t = .next u) ∧
      t.err = false ∧ t.ovf = false ∧ u.err = false ∧
      ∀ k : DescNum, k = 0 ∨ k = 2 →
        (desc t k).base = (desc tallBand k).base ∧ (desc t k).stride = (desc tallBand k).stride ∧
          widthOf (desc t k) = widthOf (desc tallBand 4) ∧ heightOf (desc t k) = heightOf (desc tallBand 4) / 2 :=
  ⟨⟨rfl, rfl⟩, by decide +kernel⟩

/-- A block whose two-row band `d6` is listed in full, with two-row bands `d4`, `d5`. -/
def wideBand : State :=
  { fresh with
    d := ((bands.set 4 ⟨64, 3, 2, 4, 4, 2⟩).set 5 ⟨88, 3, 2, 4, 4, 2⟩).set 6 ⟨112, 6, 2, 8, 8, 2⟩
    cm := cells 112 [0, 11, 44, 99, 176, 275, 0, 0, 37, 51, 87, 145, 225, 312, 0, 0] }

theorem test_meets_HsynUndoesHana :
    let t := after (.hana 4 6 5) wideBand
    let u := after (.hsyn 6 4 5) t
    (exec (.hana 4 6 5) wideBand = .next t ∧ exec (.hsyn 6 4 5) t = .next u) ∧
      t.err = false ∧ t.ovf = false ∧ u.err = false ∧
      ∀ k : DescNum, k = 4 ∨ k = 5 →
        (desc t k).base = (desc wideBand k).base ∧ (desc t k).stride = (desc wideBand k).stride ∧
          widthOf (desc t k) = widthOf (desc wideBand 6) / 2 ∧ heightOf (desc t k) = heightOf (desc wideBand 6) :=
  ⟨⟨rfl, rfl⟩, by decide +kernel⟩

/-- V77, V94, V97, V98: a witness for each clause, for `HSYNC` and `VSYN`. -/
theorem test_meets_SynthesisTraps :
    (¬((ready 20 32).bpc = 10 ∨ (ready 20 32).bpc = 12)) ∧
      (let s := { ready 20 32 with d := (bands.set 0 ⟨0, 3, 2, 4, 4, 4⟩).set 2 ⟨32, 3, 2, 4, 4, 4⟩ }
       ¬(3 ≤ heightOf (desc s 0))) ∧
      (let s := { ready 20 32 with d := bands.set 4 ⟨137, 3, 6, 4, 4, 6⟩ }
       dimsOk (desc s 4) = true ∧ dimsOk (desc s 0) = true ∧ dimsOk (desc s 2) = true ∧
         (desc s 2).width = (desc s 0).width ∧ (desc s 2).height = (desc s 0).height ∧ 3 ≤ heightOf (desc s 0) ∧
         widthOf (desc s 0) ≤ awidthOf (desc s 4) ∧ 2 * heightOf (desc s 0) ≤ aheightOf (desc s 4) ∧
         ¬(footprintEnd (desc s 4) ≤ s.cfg.cmWords)) ∧
      (let s := { ready 20 32 with d := bands.set 4 ⟨15, 3, 6, 4, 4, 6⟩ }
       SynShape s 4 0 2 (heightOf (desc s 0)) (widthOf (desc s 0)) (2 * heightOf (desc s 0)) s.cfg.cmWords ∧
         ¬Disjoint (desc s 4) (desc s 0)) := by decide

/-- An odd length, a footprint one word too long, footprints that share one word. -/
theorem test_meets_AnalysisTraps :
    (let s := { ready 20 32 with d := bands.set 4 ⟨64, 3, 7, 4, 4, 8⟩ }
     ¬(heightOf (desc s 4) % 2 = 0)) ∧
      (let s := { ready 20 32 with d := bands.set 2 ⟨145, 3, 3, 4, 4, 4⟩ }
       dimsOk (desc s 0) = true ∧ dimsOk (desc s 4) = true ∧ dimsOk (desc s 2) = true ∧
         heightOf (desc s 4) % 2 = 0 ∧ 6 ≤ heightOf (desc s 4) ∧ widthOf (desc s 4) ≤ awidthOf (desc s 0) ∧
         heightOf (desc s 4) / 2 ≤ aheightOf (desc s 0) ∧ widthOf (desc s 4) ≤ awidthOf (desc s 2) ∧
         heightOf (desc s 4) / 2 ≤ aheightOf (desc s 2) ∧ ¬(footprintEnd (desc s 2) ≤ s.cfg.cmWords)) ∧
      (let s := { ready 20 32 with d := bands.set 2 ⟨15, 3, 3, 4, 4, 4⟩ }
       AnaShape s 0 4 2 (heightOf (desc s 4)) (widthOf (desc s 4)) (heightOf (desc s 4) / 2) ∧
         ¬Disjoint (desc s 0) (desc s 2)) := by decide

/-- `VSYN d4, d4, d0` with a source that is also wide enough a destination; `VANA d4, d4, d0`. -/
theorem test_meets_SameDescriptorOverlaps :
    (let s := { ready 20 32 with d := (bands.set 4 ⟨64, 3, 3, 4, 4, 6⟩) }
     s.err = false ∧ exec (.vsyn 4 4 0) s = .next (after (.vsyn 4 4 0) s) ∧
       SynShape s 4 4 0 (heightOf (desc s 4)) (widthOf (desc s 4)) (2 * heightOf (desc s 4)) s.cfg.cmWords) ∧
      (let s := ready 20 32
       s.err = false ∧ exec (.vana 4 4 0) s = .next (after (.vana 4 4 0) s) ∧
         AnaShape s 4 4 0 (heightOf (desc s 4)) (widthOf (desc s 4)) (heightOf (desc s 4) / 2)) :=
  ⟨⟨rfl, rfl, by decide⟩, rfl, rfl, by decide⟩

end Sys2Proof.Tests
end

namespace Sys2Proof.Machine

/-! ## The step, one rule per kind of move

What a step does by who moves next: the block (a command runs and the host waits), the host with `BUSY = 1`, the host
with `BUSY = 0`. `step_cases` says that there is nothing else. -/

/-- With a command running and the host waiting or idle, the block runs it (R197). -/
theorem step_runCommand {s : State} {w : Word} (hr : s.running = some w)
    (hi : s.input = [] ∨ s.input.head? = some .wait) : step s = runCommand w s := by
  rcases hi with hi | hi
  · simp [step, move, hr, hi]
  · obtain ⟨rest, hi⟩ := List.head?_eq_some_iff.mp hi
    simp [step, move, hr, hi]

/-- A host action other than a wait, while a command runs (R75). -/
theorem step_hostBusy {s : State} {w : Word} {e : HostEvent} {rest : List HostEvent} (hr : s.running = some w)
    (hi : s.input = e :: rest) (he : e ≠ .wait) : step s = hostBusy w e { s with input := rest } := by
  cases e with
  | wait => exact absurd rfl he
  | _ => simp [step, move, hr, hi]

/-- A host action with `BUSY = 0` (R75). -/
theorem step_hostIdle {s : State} {e : HostEvent} {rest : List HostEvent} (hr : s.running = none)
    (hi : s.input = e :: rest) : step s = hostIdle e { s with input := rest } := by
  simp [step, move, hr, hi]

/-- With `BUSY = 0` and no host action the block waits (R244). -/
theorem step_nothing {s : State} (hr : s.running = none) (hi : s.input = []) : step s = .next s := by
  simp [step, move, hr, hi]

/-- All that a step can do. -/
theorem step_cases {s t : State} (h : step s = .next t) :
    (∃ w, s.running = some w ∧ (s.input = [] ∨ s.input.head? = some .wait) ∧ runCommand w s = .next t) ∨
      (∃ w e rest, s.running = some w ∧ s.input = e :: rest ∧ e ≠ .wait ∧
        hostBusy w e { s with input := rest } = .next t) ∨
      (s.running = none ∧ s.input = [] ∧ t = s) ∨
      (∃ e rest, s.running = none ∧ s.input = e :: rest ∧ hostIdle e { s with input := rest } = .next t) := by
  obtain hr | ⟨w, hr⟩ := Option.eq_none_or_eq_some s.running
  · cases hi : s.input with
    | nil =>
      rw [step_nothing hr hi] at h
      exact .inr (.inr (.inl ⟨hr, rfl, (Host.Outcome.next.inj h).symm⟩))
    | cons e rest =>
      rw [step_hostIdle hr hi] at h
      exact .inr (.inr (.inr ⟨e, rest, hr, rfl, h⟩))
  · by_cases hw : s.input = [] ∨ s.input.head? = some .wait
    · rw [step_runCommand hr hw] at h
      exact .inl ⟨w, hr, hw, h⟩
    · obtain ⟨hne, hnw⟩ := not_or.mp hw
      obtain ⟨e, rest, hi⟩ := List.exists_cons_of_ne_nil hne
      have he : e ≠ .wait := fun he => hnw (by simp [hi, he])
      rw [step_hostBusy hr hi he] at h
      exact .inr (.inl ⟨w, e, rest, hr, hi, he, h⟩)

/-! ## Register accesses, by what they reach -/

theorem regOf_eq_none_of_regAt {off : Nat} (h : regAt off = none) (bytes : Nat) : regOf bytes off = none := by
  simp [regOf, h]

/-- Only offset 0 is `CTRL` (R25). -/
theorem regAt_eq_ctrl {off : Nat} (h : regAt off = some .ctrl) : off = 0 := by
  unfold regAt at h
  split at h <;> simp_all

/-- Only an aligned 32-bit access at offset 0 reaches `CTRL` (R25, R73). -/
theorem regOf_eq_ctrl {bytes off : Nat} (h : regOf bytes off = some .ctrl) : bytes = 4 ∧ off = 0 := by
  unfold regOf at h
  split at h
  case isTrue hacc => exact ⟨hacc.1, regAt_eq_ctrl h⟩
  case isFalse => cases h

theorem hostWrite_of_regOf {bytes off : Nat} {r : Reg} (h : regOf bytes off = some r) (s : State) (v : Word) :
    hostWrite s bytes off v = setReg s v r := by simp [hostWrite, h]

theorem hostWrite_of_unreached {bytes off : Nat} (h : regOf bytes off = none) (s : State) (v : Word) :
    hostWrite s bytes off v = s := by simp [hostWrite, h]

theorem hostRead_of_regOf {bytes off : Nat} {r : Reg} (h : regOf bytes off = some r) (s : State) :
    hostRead s bytes off = getReg s r := by simp [hostRead, h]

theorem hostRead_of_unreached {bytes off : Nat} (h : regOf bytes off = none) (s : State) :
    hostRead s bytes off = 0 := by simp [hostRead, h]

section Access

variable {s : State} {bytes off : Nat} {v : Word} {r : Reg} {rest : List HostEvent}

/-- While a command runs a register write is ignored (R198, R272). -/
theorem step_regWrite_busy {w : Word} (hr : s.running = some w) (hi : s.input = .regWrite bytes off v :: rest) :
    step s = .next { s with input := rest } := step_hostBusy hr hi nofun

/-- A write that reaches register `r` of an idle block. -/
theorem step_regWrite_idle (hr : s.running = none) (hreg : regOf bytes off = some r)
    (hi : s.input = .regWrite bytes off v :: rest) : step s = .next (setReg { s with input := rest } v r) := by
  rw [step_hostIdle hr hi, ← hostWrite_of_regOf hreg]
  rfl

/-- A read that reaches register `r` of an idle block. -/
theorem step_regRead_idle (hr : s.running = none) (hreg : regOf bytes off = some r)
    (hi : s.input = .regRead bytes off :: rest) :
    step s = .next (answer { s with input := rest } (getReg { s with input := rest } r)) := by
  rw [step_hostIdle hr hi, ← hostRead_of_regOf hreg]
  rfl

/-- A write that reaches no register is ignored, busy or not (R44, R73). -/
theorem step_regWrite_unreached (hreg : regOf bytes off = none) (hi : s.input = .regWrite bytes off v :: rest) :
    step s = .next { s with input := rest } := by
  obtain hr | ⟨w, hr⟩ := Option.eq_none_or_eq_some s.running
  · simp only [step_hostIdle hr hi, hostIdle, hostWrite_of_unreached hreg]
  · exact step_regWrite_busy hr hi

/-- A read that reaches no register answers 0, busy or not (R44, R73). -/
theorem step_regRead_unreached (hreg : regOf bytes off = none) (hi : s.input = .regRead bytes off :: rest) :
    step s = .next { s with input := rest, hostData := 0 } := by
  obtain hr | ⟨w, hr⟩ := Option.eq_none_or_eq_some s.running
  · simp only [step_hostIdle hr hi, hostIdle, hostRead_of_unreached hreg, answer]
  · simp only [step_hostBusy hr hi nofun, hostBusy, busyRead, hreg, answer]

end Access

/-! ## Which bits a register keeps

A field of `n` bits reads as the written word under the mask `2^n - 1`. -/

/-- A word cut to its low `n` bits is the word under the mask of these bits. -/
theorem setWidth_setWidth_eq_and_mask {n : Nat} (hn : n ≤ 32) (v : Word) :
    (v.setWidth n).setWidth 32 = v &&& BitVec.ofNat 32 (2 ^ n - 1) := by
  have hmask : 2 ^ n - 1 < 2 ^ 32 :=
    lt_of_lt_of_le (Nat.sub_lt (by positivity) one_pos) (Nat.pow_le_pow_right two_pos hn)
  have hlow : v.toNat % 2 ^ n < 2 ^ 32 := lt_of_le_of_lt (Nat.mod_le _ _) v.isLt
  apply BitVec.eq_of_toNat_eq
  simp only [BitVec.toNat_setWidth, BitVec.toNat_and, BitVec.toNat_ofNat, Nat.mod_eq_of_lt hmask,
    Nat.and_two_pow_sub_one_eq_mod, Nat.mod_eq_of_lt hlow]

/-- Masking a word to its low `n` bits does not change what a field of `n` bits takes from it. -/
theorem setWidth_and_mask {n : Nat} (hn : n ≤ 32) (v : Word) :
    (v &&& BitVec.ofNat 32 (2 ^ n - 1)).setWidth n = v.setWidth n := by
  rw [← setWidth_setWidth_eq_and_mask hn, BitVec.setWidth_setWidth (w := n) (v := 32) (by omega), BitVec.setWidth_eq]

/-- A field of `n` bits reads 0 in the bits above it. -/
theorem setWidth_and_not_mask {n : Nat} (hn : n ≤ 32) (x : BitVec n) :
    x.setWidth 32 &&& ~~~BitVec.ofNat 32 (2 ^ n - 1) = 0 := by
  have hx : x.setWidth 32 = x.setWidth 32 &&& BitVec.ofNat 32 (2 ^ n - 1) := by
    rw [← setWidth_setWidth_eq_and_mask hn, BitVec.setWidth_setWidth (w := n) (v := 32) (by omega), BitVec.setWidth_eq]
  rw [hx, BitVec.and_assoc, BitVec.and_not_self]
  exact BitVec.and_zero

/-- The mask of a whole register is no restriction. -/
theorem and_full_mask (v : Word) : v &&& 0xFFFFFFFF = v := BitVec.and_allOnes

@[simp] theorem flagBit_false (b : Nat) : flagBit false b = 0 := rfl

/-- A flag at bit `b` is invisible under a mask without that bit. -/
theorem flagBit_and_of_clear {b : Nat} {m : Word} (h : BitVec.twoPow 32 b &&& m = 0) (f : Bool) :
    flagBit f b &&& m = 0 := by
  cases f with
  | false => exact BitVec.zero_and
  | true => exact h

/-! ## Registers: what a read answers -/

/-- What the host has still to do is in no register. -/
@[simp] theorem getReg_input (s : State) (es : List HostEvent) (r : Reg) :
    getReg { s with input := es } r = getReg s r := by cases r <;> rfl

/-- The reserved bits of a descriptor field read 0 (R23). -/
theorem getField_reserved (k : Desc) (n : DescNum) (f : DescField) :
    getField k f &&& ~~~readableBits (.field n f) = 0 := by
  cases f with
  | base => exact setWidth_and_not_mask (n := 32) le_rfl k.base
  | width | height | stride | awidth | aheight => exact setWidth_and_not_mask (n := 16) (by decide) _

/-- `CTRL` shows its two enables only (R26). -/
theorem ctrlWord_reserved (s : State) : ctrlWord s &&& ~~~0x6 = 0 := by
  simp only [ctrlWord, BitVec.and_or_distrib_right,
    flagBit_and_of_clear (b := 1) (m := ~~~0x6) (by decide), flagBit_and_of_clear (b := 2) (m := ~~~0x6) (by decide)]
  rfl

/-- `STATUS` shows its five flags only (R27). -/
theorem statusWord_reserved (s : State) : statusWord s &&& ~~~0x1F = 0 := by
  have clear {b : Nat} (hb : BitVec.twoPow 32 b &&& ~~~0x1F = 0) (f : Bool) := flagBit_and_of_clear hb f
  simp only [statusWord, BitVec.and_or_distrib_right, clear (b := 0) (by decide), clear (b := 1) (by decide),
    clear (b := 2) (by decide), clear (b := 3) (by decide), clear (b := 4) (by decide)]
  rfl

/-- Reserved bits of every register read 0 (R44). -/
theorem getReg_reserved (s : State) (r : Reg) : getReg s r &&& ~~~readableBits r = 0 := by
  cases r with
  | ctrl => exact ctrlWord_reserved s
  | status => exact statusWord_reserved s
  | errcode => exact setWidth_and_not_mask (by decide) s.errcode
  | cmd => exact BitVec.zero_and
  | cbsel => exact setWidth_and_not_mask (by decide) s.cbsel
  | bpc => exact setWidth_and_not_mask (by decide) s.bpc
  | field k f => exact getField_reserved (desc s k) k f
  | errinfo | quant | bslen | bspos | arg | res | count => exact BitVec.and_zero

/-! ## Registers: what a write changes -/

/-- A descriptor field reads back the written word in the bits it keeps (R23). -/
theorem getField_setField (k : Desc) (v : Word) (n : DescNum) (f : DescField) :
    getField (setField k v f) f = v &&& readableBits (.field n f) := by
  cases f with
  | base => exact (and_full_mask v).symm
  | width | height | stride | awidth | aheight => exact setWidth_setWidth_eq_and_mask (n := 16) (by decide) v

/-- A write of one field leaves the others of its descriptor. -/
theorem getField_setField_other (k : Desc) (v : Word) {f g : DescField} (h : g ≠ f) :
    getField (setField k v f) g = getField k g := by
  cases f <;> cases g <;> trivial

/-- What the descriptors are after a write of descriptor `k`. -/
theorem desc_set (s : State) (k j : DescNum) (x : Desc) :
    desc { s with d := s.d.set k x } j = if k = j then x else desc s j := by
  simp [desc, Vector.getElem_set, Fin.ext_iff]

/-- A plain register reads back the written word in the bits it keeps (R25). -/
theorem getReg_setReg_same {r : Reg} (hr : plainReg r = true) (s : State) (v : Word) :
    getReg (setReg s v r) r = v &&& readableBits r := by
  cases r with
  | quant | bslen | bspos | arg => exact (and_full_mask v).symm
  | cbsel => exact setWidth_setWidth_eq_and_mask (n := 1) (by decide) v
  | bpc => exact setWidth_setWidth_eq_and_mask (n := 5) (by decide) v
  | field k f =>
    simp only [setReg, getReg, desc_set, if_true]
    exact getField_setField (desc s k) v k f
  | ctrl | status | errcode | errinfo | cmd | res | count => nomatch hr

/-- A write of a descriptor field leaves every other register. -/
theorem getReg_setReg_field_other {k : DescNum} {f : DescField} {q : Reg} (hq : q ≠ .field k f) (s : State)
    (v : Word) : getReg (setReg s v (.field k f)) q = getReg s q := by
  cases q with
  | field j g =>
    simp only [setReg, getReg, desc_set]
    split
    case isTrue hkj =>
      subst hkj
      exact getField_setField_other _ v fun hg => hq (by rw [hg])
    case isFalse => rfl
  | _ => rfl

/-- A write of a plain register leaves every other register. -/
theorem getReg_setReg_other {r q : Reg} (hr : plainReg r = true) (hq : q ≠ r) (s : State) (v : Word) :
    getReg (setReg s v r) q = getReg s q := by
  cases r with
  | field k f => exact getReg_setReg_field_other hq s v
  | quant | cbsel | bpc | bslen | bspos | arg => cases q <;> trivial
  | ctrl | status | errcode | errinfo | cmd | res | count => nomatch hr

/-- No register write touches the memories, the words of the `LUT`, the parameters or what is the host's, the soft reset
included (R25, R262). -/
theorem setReg_frame (s : State) (v : Word) (r : Reg) :
    (setReg s v r).cm = s.cm ∧ (setReg s v r).dm = s.dm ∧ (setReg s v r).bs = s.bs ∧ (setReg s v r).lut = s.lut ∧
      (setReg s v r).cfg = s.cfg ∧ (setReg s v r).input = s.input ∧ (setReg s v r).hostData = s.hostData ∧
      (setReg s v r).free = s.free := by
  cases r with
  | ctrl => simp only [setReg, writeCtrl]; split <;> simp
  | status => simp only [setReg, writeStatus]; split <;> simp
  | cmd => simp only [setReg, acceptCommand]; split <;> simp
  | _ => simp [setReg]

/-- A descriptor field ignores reserved bits (R23). -/
theorem setField_writable (k : Desc) (v : Word) (n : DescNum) (f : DescField) :
    setField k (v &&& writableBits (.field n f)) f = setField k v f := by
  have low : (v &&& 0xFFFF).setWidth 16 = v.setWidth 16 := setWidth_and_mask (by decide) v
  cases f with
  | base => simp only [setField, writableBits, readableBits, and_full_mask]
  | width | height | stride | awidth | aheight => simp only [setField, writableBits, readableBits, low]

/-- Every register ignores writes to its reserved bits (R44). -/
theorem setReg_writable (s : State) (v : Word) (r : Reg) : setReg s (v &&& writableBits r) r = setReg s v r := by
  cases r with
  | ctrl => simp [setReg, writeCtrl, writableBits]
  | status => simp [setReg, writeStatus, writableBits]
  | cbsel => exact congrArg (fun u => { s with cbsel := u }) (setWidth_and_mask (n := 1) (by decide) v)
  | bpc => exact congrArg (fun u => { s with bpc := u }) (setWidth_and_mask (n := 5) (by decide) v)
  | field k f => simp only [setReg, setField_writable]
  | cmd | quant | bslen | bspos | arg => exact congrArg (fun u => setReg s u _) (and_full_mask v)
  | errcode | errinfo | res | count => rfl

/-! ## Acceptance of a command word (R30) -/

theorem acceptCommand_idle {s : State} (hr : s.running = none) (he : s.err = false) (w : Word) :
    acceptCommand s w = { s with running := some w, done := false } := by simp [acceptCommand, busy, hr, he]

theorem acceptCommand_of_err {s : State} (he : s.err = true) (w : Word) : acceptCommand s w = s := by
  simp [acceptCommand, he]

theorem runCommand_of_decode {w : Word} {i : Instr} (h : decode w = .ok i) (s : State) :
    runCommand w s = exec i s := by
  simp [runCommand, h]

/-! ## Reset -/

/-- Reset puts every register and descriptor to 0 (R43, R260). -/
@[simp] theorem getReg_resetRegisters (s : State) (r : Reg) : getReg (resetRegisters s) r = 0 := by
  cases r with
  | ctrl => simp [getReg, ctrlWord]
  | status => simp [getReg, statusWord, busy]
  | field k f =>
    have hd : desc (resetRegisters s) k = Desc.zero := by simp [desc]
    cases f <;> simp [getReg, hd, getField, Desc.zero]
  | _ => rfl

/-- The least decode table R37 admits is one, whatever longest codeword is allowed. -/
theorem codebookOk_leastCodebook {maxLen : Nat} (h : 1 ≤ maxLen) :
    codebookOk maxLen Config.leastCodebook = true := by
  have hkraft : 2 ^ (maxLen - 1) + 2 ^ (maxLen - 1) = 2 ^ maxLen := by
    rw [← Nat.two_mul, ← Nat.pow_succ', Nat.succ_eq_add_one, Nat.sub_add_cancel h]
  have hfree : prefixFree Config.leastCodebook = true := by decide
  simp only [codebookOk, Bool.and_eq_true]
  exact ⟨⟨⟨⟨by simp [Config.leastCodebook, entryBitsOk, h], hfree⟩,
    by simp [kraftComplete, Config.leastCodebook, hkraft]⟩, by decide⟩, by decide⟩

theorem sizesOk_iff {p : Config.Params} : Config.sizesOk p = true ↔
    (1 ≤ p.cmWords ∧ p.cmWords ≤ 2 ^ 32) ∧ (1 ≤ p.dmWords ∧ p.dmWords ≤ 2 ^ 32) ∧
      1 ≤ p.bsBytes ∧ p.bsBytes ≤ 2 ^ 32 - 4 := by
  simp [Config.sizesOk, and_assoc]

/-- A remainder brought into `1 .. n`, as the opaque sizes are. -/
theorem one_add_mod_bounds (k : Nat) {n : Nat} (hn : 0 < n) : 1 ≤ 1 + k % n ∧ 1 + k % n ≤ n :=
  ⟨Nat.le_add_right 1 _, Nat.one_add_le_iff.mpr (Nat.mod_lt k hn)⟩

theorem sizesOk_params : Config.sizesOk Config.params = true :=
  sizesOk_iff.mpr
    ⟨one_add_mod_bounds _ (by decide), one_add_mod_bounds _ (by decide), one_add_mod_bounds _ (by decide)⟩

theorem cbMaxLen_bounds : 1 ≤ Config.cbMaxLen ∧ Config.cbMaxLen ≤ 32 := one_add_mod_bounds _ (by decide)

/-- An opaque list, brought into the range of R37, is a decode table. -/
theorem codebookOk_admitted (cb : List CodeEntry) : codebookOk Config.cbMaxLen (Config.admitted cb) = true := by
  unfold Config.admitted
  cases h : codebookOk Config.cbMaxLen cb with
  | false => exact codebookOk_leastCodebook cbMaxLen_bounds.1
  | true => exact h

/-- The parameters of the machine at reset are admissible, whatever the free values are (R8, R37). -/
theorem params_wf : Config.params.wf = true := by
  have hbooks : Config.codebooksOk Config.params = true := by
    simp [Config.codebooksOk, Config.params, codebookOk_admitted, cbMaxLen_bounds]
  simp [Config.Params.wf, sizesOk_params, hbooks]

/-- Nothing is written, running or in error after reset. -/
theorem inv_reset : Inv State.reset where
  cmForm := List.Pairwise.nil
  dmForm := List.Pairwise.nil
  bsForm := List.Pairwise.nil
  lutForm := List.Pairwise.nil
  cmWithin := nofun
  dmWithin := nofun
  bsWithin := nofun
  lutWithin := nofun
  errClear := fun _ => ⟨rfl, rfl⟩
  errKnown := nofun
  runClean := nofun
  lutBuilt := nofun

/-! ## What every move but a reset keeps of the sticky flags -/

/-- The sticky flags that are set in `s` are set in `t` (R27). -/
structure KeepsFlags (s t : State) : Prop where
  ovf  : s.ovf = true → t.ovf = true
  lutv : s.lutv = true → t.lutv = true
  err  : s.err = true → t.err = true

/-- With `ERR = 1` in `s`, the error and `BUSY` are the same in `t` (R237). -/
structure KeepsFirstError (s t : State) : Prop where
  errcode : s.err = true → t.errcode = s.errcode
  errinfo : s.err = true → t.errinfo = s.errinfo
  running : s.err = true → t.running = s.running

theorem KeepsFlags.of_eq {s t : State} (ho : t.ovf = s.ovf) (hl : t.lutv = s.lutv) (he : t.err = s.err) :
    KeepsFlags s t := ⟨ho ▸ id, hl ▸ id, he ▸ id⟩

theorem KeepsFirstError.of_eq {s t : State} (hc : t.errcode = s.errcode) (hi : t.errinfo = s.errinfo)
    (hr : t.running = s.running) : KeepsFirstError s t := ⟨fun _ => hc, fun _ => hi, fun _ => hr⟩

theorem KeepsFlags.raiseError {s t : State} (h : KeepsFlags s t) (e : Err) (w : Word) :
    KeepsFlags s (raiseError e w t) := ⟨h.ovf, h.lutv, fun _ => rfl⟩

theorem KeepsFlags.complete {s t : State} (h : KeepsFlags s t) : KeepsFlags s (complete t) := ⟨h.ovf, h.lutv, h.err⟩

theorem keepsFlags_storeAll (s : State) (l : List (Nat × Int)) : KeepsFlags s (storeAll s l) :=
  ⟨fun h => by simp [h], by simp, by simp⟩

/-- A command whose errors precede its effect keeps the flags when its effect does. -/
theorem checked_keepsFlags {i : Instr} {cs : List (Bool × Err)} {s body t : State}
    (h : checked i cs s body = .next t) (hb : KeepsFlags s body) : KeepsFlags s t := by
  obtain ⟨e, -, -, rfl⟩ | ⟨-, rfl⟩ := checked_cases h
  · exact KeepsFlags.raiseError (.of_eq rfl rfl rfl) e (encode i)
  · exact hb.complete

theorem lpldDuplicate_flags (s : State) (k : Desc) :
    (lpldDuplicate s k).ovf = s.ovf ∧ (lpldDuplicate s k).lutv = s.lutv ∧ (lpldDuplicate s k).err = s.err := by
  unfold lpldDuplicate
  split <;> simp

/-- All that `VLD` can do: an error of its checks from the state at acceptance, an error of the chunk after the stores
of its pairs, or completion after them (R146, R235). -/
theorem execVld_cases {rd : DescNum} {s t : State} (h : execVld rd s = .next t) :
    (∃ e, firstError (vldChecks s rd) = some e ∧ t = raiseError e (encode (.vld rd)) s) ∨
      (firstError (vldChecks s rd) = none ∧
        let p := vldChunk s (desc s rd)
        let u := vldStore s (desc s rd) p
        (∃ e, p.stop = some e ∧ t = raiseError e (encode (.vld rd)) u) ∨
          (p.stop = none ∧ s.bslen.toNat < vldEnd s p.bits ∧
            t = raiseError .bitstreamOverread (encode (.vld rd)) u) ∨
          (p.stop = none ∧ vldEnd s p.bits ≤ s.bslen.toNat ∧
            t = complete { u with bspos := BitVec.ofNat 32 (vldEnd s p.bits) })) := by
  unfold execVld at h
  split at h
  case h_1 e hc => exact .inl ⟨e, hc, (Host.Outcome.next.inj h).symm⟩
  case h_2 hc =>
    refine .inr ⟨hc, ?_⟩
    simp only at h
    split at h
    case h_1 e hs => exact .inl ⟨e, hs, (Host.Outcome.next.inj h).symm⟩
    case h_2 hs =>
      split at h
      case isTrue hlen => exact .inr (.inl ⟨hs, hlen, (Host.Outcome.next.inj h).symm⟩)
      case isFalse hlen => exact .inr (.inr ⟨hs, Nat.le_of_not_lt hlen, (Host.Outcome.next.inj h).symm⟩)

theorem keepsFlags_vldStore (s : State) (k : Desc) (p : VldParse) : KeepsFlags s (vldStore s k p) := by
  obtain ⟨ho, hl, he⟩ := keepsFlags_storeAll s (linearStores k (vldValues s.quant.toNat p.pairs))
  exact ⟨ho, hl, he⟩

theorem execVld_keepsFlags {rd : DescNum} {s t : State} (h : execVld rd s = .next t) : KeepsFlags s t := by
  have hstore := keepsFlags_vldStore s (desc s rd) (vldChunk s (desc s rd))
  obtain ⟨e, -, rfl⟩ | ⟨-, ⟨e, -, rfl⟩ | ⟨-, -, rfl⟩ | ⟨-, -, rfl⟩⟩ := execVld_cases h
  · exact KeepsFlags.raiseError (.of_eq rfl rfl rfl) e _
  · exact hstore.raiseError e _
  · exact hstore.raiseError _ _
  · exact ⟨hstore.ovf, hstore.lutv, hstore.err⟩

/-- No command clears `OVF`, `LUTV` or `ERR` (R27). -/
theorem exec_keepsFlags {i : Instr} {s t : State} (h : exec i s = .next t) : KeepsFlags s t := by
  cases i with
  | nop => exact Host.Outcome.next.inj h ▸ KeepsFlags.complete (.of_eq rfl rfl rfl)
  | deq =>
    have hres (x : Int) : KeepsFlags s (writeRes s x) := ⟨fun ho => by simp [writeRes, ho], id, id⟩
    exact Host.Outcome.next.inj h ▸ (hres _).complete
  | lutb => exact Host.Outcome.next.inj h ▸ ⟨id, fun _ => rfl, id⟩
  | qnt | lutr | qntb _ | hsync _ _ _ | div4 _ => exact checked_keepsFlags h (.of_eq rfl rfl rfl)
  | vsyn _ _ _ | hsyn _ _ _ | shl2 _ | vana _ _ _ | hana _ _ _ => exact checked_keepsFlags h (keepsFlags_storeAll s _)
  | lpld rd =>
    obtain ⟨ho, hl, he⟩ := lpldDuplicate_flags (lpldLoad s (desc s rd)) (desc s rd)
    exact checked_keepsFlags h (.of_eq ho hl he)
  | vld rd => exact execVld_keepsFlags h

/-- Running an accepted word, legal or not, clears none of the sticky flags. -/
theorem runCommand_keepsFlags {w : Word} {s t : State} (h : runCommand w s = .next t) : KeepsFlags s t := by
  unfold runCommand at h
  split at h
  case h_1 => exact exec_keepsFlags h
  case h_2 => exact Host.Outcome.next.inj h ▸ KeepsFlags.raiseError (.of_eq rfl rfl rfl) _ _

/-- A register write without `SRST` keeps the sticky flags and, with `ERR = 1`, the first error; it starts no command
then (R26, R27, R237). -/
theorem setReg_keeps {s : State} {v : Word} {r : Reg} (hc : r = .ctrl → v.getLsbD 0 = false) :
    KeepsFlags s (setReg s v r) ∧ KeepsFirstError s (setReg s v r) := by
  cases r with
  | ctrl =>
    simp only [setReg, writeCtrl, hc rfl]
    exact ⟨.of_eq rfl rfl rfl, .of_eq rfl rfl rfl⟩
  | status =>
    simp only [setReg, writeStatus]
    split <;> exact ⟨.of_eq rfl rfl rfl, .of_eq rfl rfl rfl⟩
  | cmd =>
    cases he : s.err with
    | true =>
      simp only [setReg, acceptCommand_of_err he]
      exact ⟨.of_eq rfl rfl rfl, .of_eq rfl rfl rfl⟩
    | false =>
      refine ⟨?_, by simp [he], by simp [he], by simp [he]⟩
      simp only [setReg, acceptCommand]
      split <;> exact .of_eq rfl rfl rfl
  | _ => exact ⟨.of_eq rfl rfl rfl, .of_eq rfl rfl rfl⟩

theorem hostWrite_keeps {s : State} {bytes off : Nat} {v : Word} (hc : isReset (.regWrite bytes off v) = false) :
    KeepsFlags s (hostWrite s bytes off v) ∧ KeepsFirstError s (hostWrite s bytes off v) := by
  cases hreg : regOf bytes off with
  | none =>
    rw [hostWrite_of_unreached hreg]
    exact ⟨.of_eq rfl rfl rfl, .of_eq rfl rfl rfl⟩
  | some r =>
    rw [hostWrite_of_regOf hreg]
    refine setReg_keeps fun hr => ?_
    simpa [isReset, regOf_eq_ctrl (hr ▸ hreg)] using hc

/-- A host access to a memory goes through exactly where the address exists (R41). -/
theorem inMemory_eq_next {a size : Nat} {t u : State} : inMemory a size t = .next u ↔ a < size ∧ t = u := by
  unfold inMemory
  split <;> simp_all

/-- A host action of an idle block, but for a reset, keeps the sticky flags and the first error. -/
theorem hostIdle_keeps {e : HostEvent} {s t : State} (hc : isReset e = false) (h : hostIdle e s = .next t) :
    KeepsFlags s t ∧ KeepsFirstError s t := by
  cases e with
  | wait | regRead _ _ =>
    exact Host.Outcome.next.inj h ▸ ⟨.of_eq rfl rfl rfl, .of_eq rfl rfl rfl⟩
  | regWrite bytes off v => exact Host.Outcome.next.inj h ▸ hostWrite_keeps hc
  | cmWrite _ _ | cmRead _ | dmWrite _ _ | dmRead _ | bsWrite _ _ | bsRead _ =>
    obtain ⟨-, rfl⟩ := inMemory_eq_next.mp h
    exact ⟨.of_eq rfl rfl rfl, .of_eq rfl rfl rfl⟩
  | hardReset => nomatch hc

/-- A register read while a command runs gives the host an answer and draws at most one free value (R75, U8). -/
theorem busyRead_eq (s : State) (bytes off : Nat) :
    ∃ v n, busyRead s bytes off = { s with hostData := v, free := n } := by
  unfold busyRead
  split <;> exact ⟨_, _, rfl⟩

/-- A host action while a command runs, but for a hard reset, keeps the sticky flags. -/
theorem hostBusy_keepsFlags {w : Word} {e : HostEvent} {s t : State} (hc : e ≠ .hardReset)
    (h : hostBusy w e s = .next t) : KeepsFlags s t := by
  cases e with
  | wait => exact runCommand_keepsFlags h
  | regWrite _ _ _ => exact Host.Outcome.next.inj h ▸ .of_eq rfl rfl rfl
  | regRead bytes off =>
    obtain ⟨v, n, hread⟩ := busyRead_eq s bytes off
    exact Host.Outcome.next.inj h ▸ hread ▸ .of_eq rfl rfl rfl
  | cmWrite _ _ | cmRead _ | dmWrite _ _ | dmRead _ | bsWrite _ _ | bsRead _ => nomatch h
  | hardReset => exact absurd rfl hc

/-- With `BUSY = 0` the next step is a reset exactly when the next host action is one. -/
theorem resetsNext_idle {s : State} {e : HostEvent} {rest : List HostEvent} (hr : s.running = none)
    (hi : s.input = e :: rest) : resetsNext s = isReset e := by
  cases e <;> simp [resetsNext, hi, hr, isReset]

/-- The reset input is a reset, busy or not (R260, R261). -/
theorem resetsNext_hardReset {s : State} {rest : List HostEvent} (hi : s.input = .hardReset :: rest) :
    resetsNext s = true := by
  simp [resetsNext, hi]

/-- A step of the idle block, but for a reset, keeps the sticky flags and the first error. -/
theorem step_keeps_of_idle {s t : State} (hr : s.running = none) (hc : resetsNext s = false) (h : step s = .next t) :
    KeepsFlags s t ∧ KeepsFirstError s t := by
  cases hi : s.input with
  | nil =>
    rw [step_nothing hr hi] at h
    exact Host.Outcome.next.inj h ▸ ⟨.of_eq rfl rfl rfl, .of_eq rfl rfl rfl⟩
  | cons e rest =>
    rw [step_hostIdle hr hi] at h
    obtain ⟨⟨ho, hl, he⟩, hcode, hinfo, hrun⟩ := hostIdle_keeps (resetsNext_idle hr hi ▸ hc) h
    exact ⟨⟨ho, hl, he⟩, hcode, hinfo, hrun⟩

/-- No step but a reset clears `OVF`, `LUTV` or `ERR` (R27, R278). -/
theorem step_keepsFlags {s t : State} (hc : resetsNext s = false) (h : step s = .next t) : KeepsFlags s t := by
  obtain ⟨w, -, -, hrun⟩ | ⟨w, e, rest, -, hi, -, hbusy⟩ | ⟨hr, -⟩ | ⟨e, rest, hr, -⟩ := step_cases h
  · exact runCommand_keepsFlags hrun
  · have he : e ≠ .hardReset := by
      rintro rfl
      exact Bool.false_ne_true (hc.symm.trans (resetsNext_hardReset hi))
    obtain ⟨ho, hl, he⟩ := hostBusy_keepsFlags he hbusy
    exact ⟨ho, hl, he⟩
  · exact (step_keeps_of_idle hr hc h).1
  · exact (step_keeps_of_idle hr hc h).1

/-! ## The obligations -/

/-- Settles O19: the plain registers have no side effect (those of `CTRL`, `STATUS` and `CMD` do), so a write changes
the register it reaches and nothing else. -/
theorem plainRegisterReadsBack : Obligations.PlainRegisterReadsBack := by
  intro s r off v rest hp hreg hr hi
  obtain ⟨hcm, hdm, hbs, hlut, -, hin, -⟩ := setReg_frame { s with input := rest } v r
  refine ⟨_, step_regWrite_idle hr hreg hi, getReg_setReg_same hp _ v, fun q hq => ?_, hcm, hdm, hbs, hlut, hin⟩
  rw [getReg_setReg_other hp hq, getReg_input]

/-- Settles O26: every move but a reset keeps the sticky flags, and every move of the idle block but a reset keeps the
first error and starts no command while `ERR = 1`. -/
theorem stickyUntilReset : Obligations.StickyUntilReset := by
  intro s t hc h
  have flags := step_keepsFlags hc h
  refine ⟨flags.ovf, flags.lutv, flags.err, fun he hr => ?_⟩
  have first := (step_keeps_of_idle hr hc h).2
  exact ⟨first.errcode he, first.errinfo he, (first.running he).trans hr⟩

/-- Settles O6: the write to `CMD` reaches an idle block without an error, and the step after it is the command's. -/
theorem commandWriteIsAccepted : Obligations.CommandWriteIsAccepted := by
  intro s w rest hr he hi
  refine ⟨?_, fun i hd => ?_⟩
  · rw [step_regWrite_idle (r := .cmd) hr rfl hi]
    exact congrArg _ (acceptCommand_idle (s := { s with input := .wait :: rest }) hr he w)
  · rw [step_runCommand rfl (.inr rfl), runCommand_of_decode hd]

/-- Settles O7: the idle block in error does not accept the word, the busy one takes no register write at all. -/
theorem ignoredWritesChangeNothing : Obligations.IgnoredWritesChangeNothing := by
  intro s bytes off v rest hi
  refine ⟨?_, fun w hr => step_regWrite_busy hr hi⟩
  rintro hr he rfl rfl
  rw [step_regWrite_idle (r := .cmd) hr rfl hi]
  exact congrArg _ (acceptCommand_of_err (s := { s with input := rest }) he v)

/-- Settles O14, for every value of the opaque parameters. -/
theorem resetMeetsMachineInvariant : Obligations.ResetMeetsMachineInvariant :=
  ⟨inv_reset, params_wf, rfl, rfl⟩

/-- Settles O15: the machine at power-up is its own reset. -/
theorem resetStateIsTheTable : Obligations.ResetStateIsTheTable :=
  ⟨getReg_resetRegisters State.reset, rfl, rfl, rfl, rfl, rfl⟩

/-- Settles O20: of a register only its own bits are read and written, and an unmapped offset reaches none. -/
theorem reservedBitsInert : Obligations.ReservedBitsInert := by
  refine ⟨fun s r off v rest hreg hr => ⟨fun hi => ?_, fun hi => ?_⟩, fun s off v rest hat => ?_⟩
  · exact ⟨_, step_regRead_idle hr hreg hi, getReg_reserved _ r⟩
  · have hmasked :=
      step_regWrite_idle (s := { s with input := .regWrite 4 off (v &&& writableBits r) :: rest }) hr hreg rfl
    rw [step_regWrite_idle hr hreg hi, hmasked, setReg_writable]
  · have hreg := regOf_eq_none_of_regAt hat 4
    exact ⟨step_regWrite_unreached hreg, step_regRead_unreached hreg⟩

end Sys2Proof.Machine

namespace Sys2Proof.Machine

/-! ## Host accesses (R71, R73, R75) -/

/-- Only an aligned 32-bit access reaches a register (R73). -/
theorem regOf_eq_none_of_narrow {bytes off : Nat} (h : bytes ≠ 4 ∨ off % 4 ≠ 0) : regOf bytes off = none :=
  if_neg fun ⟨hbytes, hoff⟩ => h.elim (absurd hbytes) (absurd hoff)

theorem flagBit_getLsbD (f : Bool) {b n : Nat} (hb : b < 32) : (flagBit f b).getLsbD n = (f && decide (b = n)) := by
  cases f with
  | false => simp
  | true => simp [flagBit, BitVec.getLsbD_twoPow, hb]

/-- Bit 0 of `STATUS` is `BUSY` (R27). -/
theorem statusWord_bit0 (s : State) : (statusWord s).getLsbD 0 = s.running.isSome := by
  simp (disch := decide) only [statusWord, BitVec.getLsbD_or, flagBit_getLsbD]
  simp [busy]

section Words

variable {s : State} {a b : Nat}

theorem cmWord_set_same (v : Half) : cmWord { s with cm := memSet s.cm a v } a = v := by simp [cmWord]

theorem cmWord_set_other (v : Half) (h : b ≠ a) : cmWord { s with cm := memSet s.cm a v } b = cmWord s b := by
  simp [cmWord, h]

theorem dmWord_set_same (v : Half) : dmWord { s with dm := memSet s.dm a v } a = v := by simp [dmWord]

theorem dmWord_set_other (v : Half) (h : b ≠ a) : dmWord { s with dm := memSet s.dm a v } b = dmWord s b := by
  simp [dmWord, h]

theorem bsByte_set_same (v : Byte) : bsByte { s with bs := memSet s.bs a v } a = v := by simp [bsByte]

theorem bsByte_set_other (v : Byte) (h : b ≠ a) : bsByte { s with bs := memSet s.bs a v } b = bsByte s b := by
  simp [bsByte, h]

end Words

/-- A read of `STATUS` while a command runs answers its word and draws no free value (R75). -/
theorem busyRead_status {bytes off : Nat} (h : regOf bytes off = some .status) (s : State) :
    busyRead s bytes off = answer s (statusWord s) := by
  simp [busyRead, h]

/-- An access to a memory by the host while a command runs has no move (R75, H1). -/
theorem step_memory_busy {s : State} {w : Word} {e : HostEvent} {rest : List HostEvent} (hr : s.running = some w)
    (hi : s.input = e :: rest)
    (he : ∃ a x y, e = .cmWrite a x ∨ e = .cmRead a ∨ e = .dmWrite a x ∨ e = .dmRead a ∨ e = .bsWrite a y ∨
      e = .bsRead a) : step s = .refused .hostMemoryWhileBusy := by
  obtain ⟨a, x, y, rfl | rfl | rfl | rfl | rfl | rfl⟩ := he
  all_goals exact step_hostBusy hr hi nofun

/-- An access of the host to an existing unit of a memory of an idle block goes through. -/
theorem step_memory_idle {s t : State} {e : HostEvent} {rest : List HostEvent} {a size : Nat} (hr : s.running = none)
    (hi : s.input = e :: rest) (he : hostIdle e { s with input := rest } = inMemory a size t) (ha : a < size) :
    step s = .next t :=
  (step_hostIdle hr hi).trans (he.trans (inMemory_eq_next.mpr ⟨ha, rfl⟩))

/-! ## What a command has done when it ends

`exec_ends` says for every command what it has written, and that it then ends in completion or in an error of the block.
The frame of the commands and the invariant both follow from it. -/

/-- The nine commands that write `CM` (R60). -/
def writesCm : Instr → Bool
  | .lpld _ | .vld _ | .qntb _ | .vsyn _ _ _ | .hsyn _ _ _ | .shl2 _ | .vana _ _ _ | .hana _ _ _ | .div4 _ => true
  | .nop | .deq | .qnt | .lutb | .lutr | .hsync _ _ _ => false

/-- The commands that read the bitstream, and so move `BSPOS` and count values (R35, R38). -/
def readsStream : Instr → Bool
  | .lpld _ | .vld _ => true
  | _ => false

/-- What command `i`, run from `s`, has written when it ends, `BUSY`, `DONE` and the error aside (R60, R276). Every word
it stores into `CM` or `DM` lies in that memory (R78). -/
inductive Wrote (s : State) (i : Instr) : State → Prop
  /-- Nothing: `NOP`, and every error that precedes all writes (R235). -/
  | nothing : Wrote s i s
  /-- A scalar result (R122). -/
  | result (hi : i = .deq ∨ i = .qnt ∨ i = .lutr) (r : Word) (o : Bool) : Wrote s i { s with res := r, ovf := o }
  /-- The table of R127. -/
  | table (hi : i = .lutb) : Wrote s i { s with lut := lutMemory, lutv := true }
  /-- Words of `CM`. -/
  | band (hi : writesCm i = true) (l : List (Nat × Int)) (hl : ∀ p ∈ l, p.1 < s.cfg.cmWords) (o : Bool) :
      Wrote s i { s with cm := memPut s.cm l, ovf := o }
  /-- Words of `CM` taken from the bitstream, with `BSPOS` and `COUNT`. -/
  | stream (hi : writesCm i = true) (hs : readsStream i = true) (l : List (Nat × Int))
      (hl : ∀ p ∈ l, p.1 < s.cfg.cmWords) (o : Bool) (b c : Word) :
      Wrote s i { s with cm := memPut s.cm l, ovf := o, bspos := b, count := c }
  /-- Words of `DM` (R167). -/
  | image (hi : ∃ rd ra rb, i = .hsync rd ra rb) (l : List (Nat × Int)) (hl : ∀ p ∈ l, p.1 < s.cfg.dmWords) :
      Wrote s i { s with dm := memPut s.dm l }

/-- Command `i` has run from `s` to its end in `t`: in completion, or in an error whose code is one of the block's. -/
def Ends (i : Instr) (s t : State) : Prop :=
  ∃ u, Wrote s i u ∧
    (t = complete u ∨ ∃ e, (errCode e).toNat ∈ blockCodes ∧ t = raiseError e (encode i) u)

theorem Wrote.completes {i : Instr} {s u : State} (hw : Wrote s i u) : Ends i s (complete u) := ⟨u, hw, .inl rfl⟩

theorem Wrote.fails {i : Instr} {s u : State} {e : Err} (hw : Wrote s i u) (he : (errCode e).toNat ∈ blockCodes) :
    Ends i s (raiseError e (encode i) u) := ⟨u, hw, .inr ⟨e, he, rfl⟩⟩

/-- The codes of the errors that a list of checks can raise are the block's (U13). -/
def BlockErrors (cs : List (Bool × Err)) : Prop := ∀ e ∈ cs.map Prod.snd, (errCode e).toNat ∈ blockCodes

theorem BlockErrors.cons {ok : Bool} {e : Err} {cs : List (Bool × Err)} (he : (errCode e).toNat ∈ blockCodes)
    (hcs : BlockErrors cs) : BlockErrors ((ok, e) :: cs) :=
  List.forall_mem_cons.mpr ⟨he, hcs⟩

theorem bandChecks_blockErrors {s : State} {rd : DescNum} : BlockErrors (bandChecks s rd) := by
  simp [BlockErrors, bandChecks, errCode, blockCodes]

theorem lpldChecks_blockErrors {s : State} {rd : DescNum} : BlockErrors (lpldChecks s rd) := by
  simp [BlockErrors, lpldChecks, errCode, blockCodes]

theorem vldChecks_blockErrors {s : State} {rd : DescNum} : BlockErrors (vldChecks s rd) := by
  simp [BlockErrors, vldChecks, bandChecks, errCode, blockCodes]

theorem synChecks_blockErrors {s : State} {rd ra rb : DescNum} {len outW outH size : Nat} {same : Bool} :
    BlockErrors (synChecks s rd ra rb len outW outH size same) := by
  simp [BlockErrors, synChecks, errCode, blockCodes]

theorem anaChecks_blockErrors {s : State} {rd ra rb : DescNum} {len outW outH : Nat} :
    BlockErrors (anaChecks s rd ra rb len outW outH) := by
  simp [BlockErrors, anaChecks, errCode, blockCodes]

/-- A command whose errors precede its effect. -/
theorem checked_ends {i : Instr} {cs : List (Bool × Err)} {s body t : State} (h : checked i cs s body = .next t)
    (hcodes : BlockErrors cs) (hbody : firstError cs = none → Wrote s i body) : Ends i s t := by
  obtain ⟨e, he, -, rfl⟩ | ⟨hc, rfl⟩ := checked_cases h
  · exact Wrote.nothing.fails (hcodes e he)
  · exact (hbody hc).completes

/-- A list of checks passes only if it passes without its first one. -/
theorem firstError_tail_eq_none {c : Bool × Err} {cs : List (Bool × Err)} (h : firstError (c :: cs) = none) :
    firstError cs = none :=
  firstError_eq_none.mpr (List.forall_mem_cons.mp (firstError_eq_none.mp h)).2

/-- An error of a chunk of codewords is one of the block's (R146, R147, R151). -/
theorem vldChunk_stop_code {s : State} {k : Desc} {e : Err} (h : (vldChunk s k).stop = some e) :
    (errCode e).toNat ∈ blockCodes := by
  obtain hstop | hstop | hstop | ⟨b, f, hfetch, hstop⟩ :=
    vldParse_stop (vldNext s) (capacity s k) (vldAvail s + 1) 0 0
  all_goals have hse := hstop.symm.trans h
  · cases hse
  · cases hse; decide
  · cases hse; decide
  · cases hse
    obtain ⟨_, _, hentry, -⟩ | hover | hbad :=
      fetchEntry_cases (codebook s) (bsBit s s.bspos.toNat) (vldAvail s) s.cfg.cbMaxLen b 0 0
    · cases hfetch.symm.trans hentry
    · cases hfetch.symm.trans hover; decide
    · cases hfetch.symm.trans hbad; decide

/-! No store leaves its memory (R78). -/

/-- What is stored into a rectangle inside the allocated extent of a valid descriptor in range. -/
theorem rectStores_in_memory {k : Desc} {w h size : Nat} (hd : dimsOk k = true) (hr : rangeOk k size = true)
    (hw : w ≤ awidthOf k) (hh : h ≤ aheightOf k) (f : Nat → Nat → Int) : ∀ p ∈ rectStores k w h f, p.1 < size := by
  intro p hp
  obtain ⟨-, -, hstride, -, -⟩ := dimsOk_iff.mp hd
  exact lt_of_lt_of_le (rectStores_within (hw.trans hstride) hh hp).2 (rangeOk_iff.mp hr)

/-- What is stored into the declared extent of a valid descriptor in range. -/
theorem declared_in_memory {k : Desc} {size : Nat} (hd : dimsOk k = true) (hr : rangeOk k size = true)
    (f : Nat → Nat → Int) : ∀ p ∈ rectStores k (widthOf k) (heightOf k) f, p.1 < size := by
  obtain ⟨-, hw, -, -, hh⟩ := dimsOk_iff.mp hd
  exact rectStores_in_memory hd hr hw hh f

theorem bandMap_in_memory {s : State} {rd : DescNum} (h : firstError (bandChecks s rd) = none) (f : Int → Int) :
    ∀ p ∈ bandMap s (desc s rd) f, p.1 < s.cfg.cmWords := by
  obtain ⟨hd, hr⟩ := bandChecks_pass.mp h
  exact declared_in_memory hd hr _

/-- What the checks of `LPLD` give: a valid band in range, with room for the duplicated row of an odd height (R142). -/
theorem lpldChecks_pass {s : State} {rd : DescNum} (h : firstError (lpldChecks s rd) = none) :
    BandReady s rd ∧ (heightOf (desc s rd) % 2 = 1 → heightOf (desc s rd) + 1 ≤ aheightOf (desc s rd)) := by
  simp only [firstError_eq_none, lpldChecks, List.forall_mem_cons] at h
  obtain ⟨hd, hodd, hr, -⟩ := h
  refine ⟨⟨hd, hr⟩, fun ho => ?_⟩
  simpa [ho] using hodd

/-- All that `LPLD` stores: the band, and for an odd height the row after it (R142). -/
theorem lpldDuplicate_eq {s : State} {k : Desc} (hd : dimsOk k = true) {size : Nat} (hr : rangeOk k size = true)
    (hodd : heightOf k % 2 = 1 → heightOf k + 1 ≤ aheightOf k) :
    ∃ l, lpldDuplicate (lpldLoad s k) k = writeAll s l ∧ ∀ p ∈ l, p.1 < size := by
  have hload := declared_in_memory hd hr fun r c => (bsHalf s (s.bspos.toNat + 2 * (r * widthOf k + c))).toInt
  unfold lpldDuplicate
  split
  case isFalse => exact ⟨_, rfl, hload⟩
  case isTrue ho =>
    refine ⟨_, congrArg (fun m => { s with cm := m }) (memPut_append s.cm _ _).symm, fun p hp => ?_⟩
    obtain hp | hp := List.mem_append.mp hp
    · exact hload p hp
    · obtain ⟨c, hc, rfl⟩ := List.mem_map.mp hp
      obtain ⟨-, hw, hstride, -, -⟩ := dimsOk_iff.mp hd
      have hcol : c < strideOf k := (List.mem_range.mp hc).trans_le (hw.trans hstride)
      exact (elemAddr_lt_footprintEnd (hodd ho) hcol).trans_le (rangeOk_iff.mp hr)

theorem lpld_wrote {s : State} {rd : DescNum} (h : firstError (lpldChecks s rd) = none) (b c : Word) :
    Wrote s (.lpld rd) { lpldDuplicate (lpldLoad s (desc s rd)) (desc s rd) with bspos := b, count := c } := by
  obtain ⟨⟨hd, hr⟩, hodd⟩ := lpldChecks_pass h
  obtain ⟨l, heq, hl⟩ := lpldDuplicate_eq (s := s) hd hr hodd
  rw [heq]
  exact .stream rfl rfl l hl s.ovf b c

/-- The values of a chunk fit the capacity of its band, so they lie in `CM` (R145, R146). -/
theorem vldStores_in_memory {s : State} {rd : DescNum} (h : firstError (vldChecks s rd) = none) (quant : Nat) :
    ∀ p ∈ linearStores (desc s rd) (vldValues quant (vldChunk s (desc s rd)).pairs), p.1 < s.cfg.cmWords := by
  intro p hp
  obtain ⟨n, hn, rfl⟩ := mem_linearStores.mp hp
  have hfits := (vldParse_fits (vldNext s) (capacity s (desc s rd)) (vldAvail s + 1) 0 0 (Nat.zero_le _)).1
  have hcap := capacity_within (vldChecks_pass.mp h).1
  rw [vldValues_length] at hn
  simp only [linearAddr, vldChunk] at hn ⊢
  omega

/-- All that the stores of a chunk do (R146). -/
theorem vldStore_eq (s : State) (k : Desc) (p : VldParse) :
    vldStore s k p =
      { s with
        cm := memPut s.cm (linearStores k (vldValues s.quant.toNat p.pairs))
        ovf := s.ovf || (linearStores k (vldValues s.quant.toNat p.pairs)).any fun q => !fits16 q.2
        count := BitVec.ofNat 32 (vldValues s.quant.toNat p.pairs).length } := by
  simp only [vldStore, storeAll_eq]

/-- `VLD` ends after the stores of its chunk, with `BSPOS` moved on only in completion (R146, R235). -/
theorem execVld_ends {rd : DescNum} {s t : State} (h : execVld rd s = .next t) : Ends (.vld rd) s t := by
  obtain ⟨e, he, rfl⟩ | ⟨hc, hend⟩ := execVld_cases h
  · exact Wrote.nothing.fails (vldChecks_blockErrors e (firstError_mem he))
  · simp only [vldStore_eq] at hend
    have hwrote := Wrote.stream (i := .vld rd) rfl rfl _ (vldStores_in_memory hc s.quant.toNat)
    obtain ⟨e, he, rfl⟩ | ⟨-, -, rfl⟩ | ⟨-, -, rfl⟩ := hend
    · exact (hwrote _ s.bspos _).fails (vldChunk_stop_code he)
    · exact (hwrote _ s.bspos _).fails (e := .bitstreamOverread) (by decide)
    · exact (hwrote _ _ _).completes

theorem storeAll_wrote {s : State} {i : Instr} (hi : writesCm i = true) {l : List (Nat × Int)}
    (hl : ∀ p ∈ l, p.1 < s.cfg.cmWords) : Wrote s i (storeAll s l) :=
  storeAll_eq s l ▸ .band hi l hl _

theorem writeAll_wrote {s : State} {i : Instr} (hi : writesCm i = true) {l : List (Nat × Int)}
    (hl : ∀ p ∈ l, p.1 < s.cfg.cmWords) : Wrote s i (writeAll s l) :=
  .band hi l hl s.ovf

/-- What a synthesis pass stores (R172). -/
theorem synStores_in_memory {s : State} {rd ra rb : DescNum} {len outW outH size : Nat} {same : Bool}
    (h : firstError (synChecks s rd ra rb len outW outH size same) = none) (f : Nat → Nat → Int) :
    ∀ p ∈ rectStores (desc s rd) outW outH f, p.1 < size := by
  obtain ⟨⟨hd, -, -, -, -, -, hw, hh, -, -, hr⟩, -⟩ := synChecks_pass.mp h
  exact rectStores_in_memory hd hr hw hh f

/-- What an analysis pass stores, the low band and the high band (R185). -/
theorem anaStores_in_memory {s : State} {rd ra rb : DescNum} {len outW outH : Nat}
    (h : firstError (anaChecks s rd ra rb len outW outH) = none) (f g : Nat → Nat → Int) :
    ∀ p ∈ rectStores (desc s rd) outW outH f ++ rectStores (desc s rb) outW outH g, p.1 < s.cfg.cmWords := by
  obtain ⟨⟨hd, -, hb, -, -, hdw, hdh, hbw, hbh, -, hdr, hbr⟩, -⟩ := anaChecks_pass.mp h
  exact List.forall_mem_append.mpr ⟨rectStores_in_memory hd hdr hdw hdh f, rectStores_in_memory hb hbr hbw hbh g⟩

/-- Every command has, when it ends, written what its kind can write, inside its memory, and ends in completion or in an
error of the block (R60, R78, R197, R236). -/
theorem exec_ends {i : Instr} {s t : State} (h : exec i s = .next t) : Ends i s t := by
  cases i with
  | nop => exact Host.Outcome.next.inj h ▸ Wrote.nothing.completes
  | deq => exact Host.Outcome.next.inj h ▸ (Wrote.result (.inl rfl) _ _).completes
  | lutb => exact Host.Outcome.next.inj h ▸ (Wrote.table rfl).completes
  | qnt => exact checked_ends h (.cons (by decide) nofun) fun _ => .result (.inr (.inl rfl)) _ s.ovf
  | lutr =>
    exact checked_ends h (.cons (by decide) (.cons (by decide) nofun)) fun _ =>
      .result (.inr (.inr rfl)) _ s.ovf
  | qntb rd =>
    exact checked_ends h (.cons (by decide) bandChecks_blockErrors) fun hc =>
      writeAll_wrote rfl (bandMap_in_memory (firstError_tail_eq_none hc) _)
  | lpld rd => exact checked_ends h lpldChecks_blockErrors fun hc => lpld_wrote hc _ _
  | vld rd => exact execVld_ends h
  | vsyn rd ra rb | hsyn rd ra rb =>
    exact checked_ends h (synChecks_blockErrors) fun hc => storeAll_wrote rfl (synStores_in_memory hc _)
  | hsync rd ra rb =>
    exact checked_ends h (.cons (by decide) (synChecks_blockErrors)) fun hc =>
      .image ⟨rd, ra, rb, rfl⟩ _ (synStores_in_memory (firstError_tail_eq_none hc) _)
  | shl2 rd =>
    exact checked_ends h bandChecks_blockErrors fun hc => storeAll_wrote rfl (bandMap_in_memory hc _)
  | vana rd ra rb | hana rd ra rb =>
    exact checked_ends h (anaChecks_blockErrors) fun hc => storeAll_wrote rfl (anaStores_in_memory hc _ _)
  | div4 rd =>
    exact checked_ends h bandChecks_blockErrors fun hc => writeAll_wrote rfl (bandMap_in_memory hc _)

/-! ## The frame of a command -/

section Frame

variable {i : Instr} {s u : State}

/-- No command writes a descriptor, a host register, `BS`, the parameters or what is the host's (R276). -/
theorem Wrote.unwritten (h : Wrote s i u) :
    u.d = s.d ∧ u.quant = s.quant ∧ u.cbsel = s.cbsel ∧ u.bpc = s.bpc ∧ u.bslen = s.bslen ∧ u.arg = s.arg ∧
      u.ieDone = s.ieDone ∧ u.ieErr = s.ieErr ∧ u.bs = s.bs ∧ u.cfg = s.cfg ∧ u.input = s.input ∧
      u.hostData = s.hostData ∧ u.free = s.free := by
  cases h <;> trivial

/-- No command writes `BUSY`, `DONE` or the error before it ends (R197, R236). -/
theorem Wrote.runs_on (h : Wrote s i u) :
    u.running = s.running ∧ u.done = s.done ∧ u.err = s.err ∧ u.errcode = s.errcode ∧ u.errinfo = s.errinfo := by
  cases h <;> trivial

theorem Wrote.cursor_eq (h : Wrote s i u) (hi : readsStream i = false) : u.bspos = s.bspos ∧ u.count = s.count := by
  cases h with
  | stream _ hs => cases hi.symm.trans hs
  | _ => exact ⟨rfl, rfl⟩

theorem Wrote.res_eq (h : Wrote s i u) (hdeq : i ≠ .deq) (hqnt : i ≠ .qnt) (hlutr : i ≠ .lutr) : u.res = s.res := by
  cases h with
  | result hi => exact absurd hi (not_or.mpr ⟨hdeq, not_or.mpr ⟨hqnt, hlutr⟩⟩)
  | _ => rfl

theorem Wrote.lut_eq (h : Wrote s i u) (hi : i ≠ .lutb) : u.lut = s.lut ∧ u.lutv = s.lutv := by
  cases h with
  | table hlutb => exact absurd hlutb hi
  | _ => exact ⟨rfl, rfl⟩

theorem Wrote.cm_eq (h : Wrote s i u) (hi : writesCm i = false) : u.cm = s.cm := by
  cases h with
  | band hcm | stream hcm => cases hi.symm.trans hcm
  | _ => rfl

end Frame

theorem readsStream_eq_false {i : Instr} (h : ∀ rd, i ≠ .lpld rd ∧ i ≠ .vld rd) : readsStream i = false := by
  cases i with
  | lpld rd => exact absurd rfl (h rd).1
  | vld rd => exact absurd rfl (h rd).2
  | _ => rfl

theorem writesCm_eq_false {i : Instr}
    (h : i = .nop ∨ i = .deq ∨ i = .qnt ∨ i = .lutb ∨ i = .lutr ∨ ∃ rd ra rb, i = .hsync rd ra rb) :
    writesCm i = false := by
  obtain rfl | rfl | rfl | rfl | rfl | ⟨rd, ra, rb, rfl⟩ := h <;> rfl

/-! ## The invariant

Every kind of move keeps it: a command through what it has written and how it ends, a host access through the one
register or unit it writes, a reset through the registers it clears. -/

/-- Going from `s` to `t` leaves the parameters alone and keeps the invariant. -/
structure KeepsInv (s t : State) : Prop where
  cfg : t.cfg = s.cfg
  inv : Inv s → Inv t

theorem KeepsInv.trans {s t u : State} (h : KeepsInv s t) (k : KeepsInv t u) : KeepsInv s u :=
  ⟨k.cfg.trans h.cfg, fun hs => k.inv (h.inv hs)⟩

/-! The table of R127 is a well-formed memory of 1024 entries (R39). -/

theorem lutFill_length (last : Nat) (l : List Nat) : (lutFill last l).length = l.length := by
  induction l generalizing last with
  | nil => rfl
  | cons v l ih =>
    unfold lutFill
    split <;> simp [ih]

/-- Writing list elements one after another does not change the length. -/
theorem foldl_set_length {α : Type} (f : α → Nat) (g : α → Nat) (xs : List α) (l : List Nat) :
    (xs.foldl (fun l x => l.set (f x) (g x)) l).length = l.length := by
  induction xs generalizing l with
  | nil => rfl
  | cons x xs ih => rw [List.foldl_cons, ih, List.length_set]

theorem lutTable_length : lutTable.length = 1024 := by
  rw [lutTable, lutFill_length, lutScatter, foldl_set_length, List.length_replicate]

theorem lutMemory_addresses : lutMemory.map Prod.fst = List.range 1024 := by
  have hfst : (Prod.fst ∘ fun p : Nat × Nat => (p.2, BitVec.ofNat 16 p.1)) = Prod.snd := rfl
  rw [lutMemory, List.map_map, hfst, List.zipIdx_map_snd, lutTable_length, List.range_eq_range']

theorem lutMemory_wf : Memory.wf lutMemory := by
  rw [Memory.wf, lutMemory_addresses]
  exact List.pairwise_lt_range

theorem lutMemory_within : ∀ p ∈ lutMemory, p.1 < 1024 := fun _ hp =>
  List.mem_range.mp (lutMemory_addresses ▸ List.mem_map_of_mem hp)

/-! Commands. -/

theorem Inv.withTable {s : State} (hs : Inv s) {m : Memory 16} (hform : Memory.wf m) (hwithin : ∀ p ∈ m, p.1 < 1024)
    (hbuilt : m = lutMemory) : Inv { s with lut := m, lutv := true } :=
  { hs with lutForm := hform, lutWithin := hwithin, lutBuilt := fun _ => hbuilt }

/-- What a command writes keeps the invariant: its stores lie in their memory, its table is that of R127. -/
theorem Wrote.keepsInv {i : Instr} {s u : State} (h : Wrote s i u) : KeepsInv s u := by
  cases h with
  | nothing => exact ⟨rfl, id⟩
  | result => exact ⟨rfl, fun hs => { hs with }⟩
  | table => exact ⟨rfl, fun hs => hs.withTable lutMemory_wf lutMemory_within rfl⟩
  | band _ l hl | stream _ _ l hl =>
    exact ⟨rfl, fun hs => { hs with cmForm := memPut_wf l hs.cmForm, cmWithin := memPut_within l hs.cmWithin hl }⟩
  | image _ l hl =>
    exact ⟨rfl, fun hs => { hs with dmForm := memPut_wf l hs.dmForm, dmWithin := memPut_within l hs.dmWithin hl }⟩

/-- A running command can complete: it runs with `ERR = 0` (R30, R241). -/
theorem complete_keepsInv {s : State} {w : Word} (hr : s.running = some w) : KeepsInv s (complete s) where
  cfg := rfl
  inv hs :=
    { hs with
      errKnown := fun he => nomatch (hs.runClean w hr).1.symm.trans he
      runClean := nofun }

/-- A running command can raise an error of the block: it runs with `DONE = 0` (R30, R236). -/
theorem raiseError_keepsInv {s : State} {w : Word} (hr : s.running = some w) {e : Err}
    (he : (errCode e).toNat ∈ blockCodes) (info : Word) : KeepsInv s (raiseError e info s) where
  cfg := rfl
  inv hs :=
    { hs with
      errClear := nofun
      errKnown := fun _ => ⟨he, (hs.runClean w hr).2⟩
      runClean := nofun }

/-- Running the accepted word, legal or not, keeps the invariant. -/
theorem runCommand_keepsInv {s t : State} {w v : Word} (hr : s.running = some w) (h : runCommand v s = .next t) :
    KeepsInv s t := by
  unfold runCommand at h
  split at h
  case h_2 => exact Host.Outcome.next.inj h ▸ raiseError_keepsInv hr (by decide) v
  case h_1 i _ =>
    obtain ⟨u, hw, hend⟩ := exec_ends h
    have hru : u.running = some w := hw.runs_on.1.trans hr
    refine hw.keepsInv.trans ?_
    obtain rfl | ⟨e, he, rfl⟩ := hend
    · exact complete_keepsInv hru
    · exact raiseError_keepsInv hru he _

/-! Resets. -/

theorem resetRegisters_keepsInv (s : State) : KeepsInv s (resetRegisters s) where
  cfg := rfl
  inv hs :=
    { hs with
      errClear := fun _ => ⟨rfl, rfl⟩
      errKnown := nofun
      runClean := nofun
      lutBuilt := nofun }

/-- A hard reset of a running command leaves words of the memories before it and after it, no others (R261). -/
theorem abandon_keepsInv {s t : State} (h : KeepsInv s t) (w : Word) : KeepsInv s (abandon w s t) where
  cfg := rfl
  inv hs :=
    have ht := h.inv hs
    have hcm : ∀ p ∈ t.cm, p.1 < s.cfg.cmWords := h.cfg ▸ ht.cmWithin
    have hdm : ∀ p ∈ t.dm, p.1 < s.cfg.dmWords := h.cfg ▸ ht.dmWithin
    have hlut : Memory.wf (abandon w s t).lut ∧ ∀ p ∈ (abandon w s t).lut, p.1 < 1024 := by
      unfold abandon
      split
      · exact ⟨List.Pairwise.nil, nofun⟩
      · exact ⟨hs.lutForm, hs.lutWithin⟩
    { (resetRegisters_keepsInv s).inv hs with
      cmForm := mixMemory_wf s.cm _ ht.cmForm
      dmForm := mixMemory_wf s.dm _ ht.dmForm
      cmWithin := mixMemory_within hcm
      dmWithin := mixMemory_within hdm
      lutForm := hlut.1
      lutWithin := hlut.2
      lutBuilt := nofun }

/-! Host accesses. -/

/-- What the host has to do next, what it last read and the free values drawn are no part of the invariant. -/
theorem hostSide_keepsInv (s : State) (input : List HostEvent) (data : Word) (n : Nat) :
    KeepsInv s { s with input := input, hostData := data, free := n } := ⟨rfl, fun hs => { hs with }⟩

/-- A register write keeps the invariant: a reset, an acknowledged `DONE`, a command accepted with `ERR = 0`, or a
register the invariant does not speak of (R26, R27, R30). -/
theorem setReg_keepsInv (s : State) (v : Word) (r : Reg) : KeepsInv s (setReg s v r) := by
  cases r with
  | ctrl =>
    simp only [setReg, writeCtrl]
    split
    · exact resetRegisters_keepsInv s
    · exact ⟨rfl, fun hs => { hs with }⟩
  | status =>
    simp only [setReg, writeStatus]
    split
    · exact ⟨rfl, fun hs => { hs with
        errKnown := fun he => ⟨(hs.errKnown he).1, rfl⟩
        runClean := fun w hr => ⟨(hs.runClean w hr).1, rfl⟩ }⟩
    · exact ⟨rfl, id⟩
  | cmd =>
    simp only [setReg, acceptCommand]
    split
    case isTrue => exact ⟨rfl, id⟩
    case isFalse hidle =>
      have herr : s.err = false := by simpa using (not_or.mp (mt Bool.or_eq_true_iff.mpr hidle)).2
      exact ⟨rfl, fun hs => { hs with
        errKnown := fun he => nomatch herr.symm.trans he
        runClean := fun _ _ => ⟨herr, rfl⟩ }⟩
  | _ => exact ⟨rfl, fun hs => { hs with }⟩

theorem hostWrite_keepsInv (s : State) (bytes off : Nat) (v : Word) : KeepsInv s (hostWrite s bytes off v) := by
  cases hreg : regOf bytes off with
  | none =>
    rw [hostWrite_of_unreached hreg]
    exact ⟨rfl, id⟩
  | some r =>
    rw [hostWrite_of_regOf hreg]
    exact setReg_keepsInv s v r

/-- A host action of an idle block keeps the invariant (R75). -/
theorem hostIdle_keepsInv {e : HostEvent} {s t : State} (h : hostIdle e s = .next t) : KeepsInv s t := by
  cases e with
  | wait | regRead _ _ => exact Host.Outcome.next.inj h ▸ hostSide_keepsInv s s.input _ s.free
  | regWrite bytes off v => exact Host.Outcome.next.inj h ▸ hostWrite_keepsInv s bytes off v
  | hardReset => exact Host.Outcome.next.inj h ▸ resetRegisters_keepsInv s
  | cmRead _ | dmRead _ | bsRead _ =>
    obtain ⟨-, rfl⟩ := inMemory_eq_next.mp h
    exact hostSide_keepsInv s s.input _ s.free
  | cmWrite a v =>
    obtain ⟨ha, rfl⟩ := inMemory_eq_next.mp h
    exact ⟨rfl, fun hs => { hs with cmForm := memSet_wf hs.cmForm a v, cmWithin := memSet_within hs.cmWithin ha v }⟩
  | dmWrite a v =>
    obtain ⟨ha, rfl⟩ := inMemory_eq_next.mp h
    exact ⟨rfl, fun hs => { hs with dmForm := memSet_wf hs.dmForm a v, dmWithin := memSet_within hs.dmWithin ha v }⟩
  | bsWrite a v =>
    obtain ⟨ha, rfl⟩ := inMemory_eq_next.mp h
    exact ⟨rfl, fun hs => { hs with bsForm := memSet_wf hs.bsForm a v, bsWithin := memSet_within hs.bsWithin ha v }⟩

/-- A host action while a command runs keeps the invariant, a hard reset included (R75, R261). -/
theorem hostBusy_keepsInv {w : Word} {e : HostEvent} {s t : State} (hr : s.running = some w)
    (h : hostBusy w e s = .next t) : KeepsInv s t := by
  cases e with
  | wait => exact runCommand_keepsInv hr h
  | regWrite _ _ _ => exact Host.Outcome.next.inj h ▸ ⟨rfl, id⟩
  | regRead bytes off =>
    obtain ⟨v, n, hread⟩ := busyRead_eq s bytes off
    exact Host.Outcome.next.inj h ▸ hread ▸ hostSide_keepsInv s s.input v n
  | cmWrite _ _ | cmRead _ | dmWrite _ _ | dmRead _ | bsWrite _ _ | bsRead _ => nomatch h
  | hardReset =>
    cases hrun : runCommand w s with
    | next u =>
      simp only [hostBusy, hrun] at h
      exact Host.Outcome.next.inj h ▸ abandon_keepsInv (runCommand_keepsInv hr hrun) w
    | fault _ | refused _ => simp [hostBusy, hrun] at h

/-! ## The obligations on memory and its accesses -/

/-- Settles O13, by who moves. -/
theorem stepKeepsMachineInvariant : Obligations.StepKeepsMachineInvariant := by
  intro s t h
  have dequeue (rest : List HostEvent) : KeepsInv s { s with input := rest } :=
    hostSide_keepsInv s rest s.hostData s.free
  suffices keeps : KeepsInv s t from ⟨keeps.cfg, keeps.inv⟩
  obtain ⟨w, hr, -, hrun⟩ | ⟨w, e, rest, hr, -, -, hbusy⟩ | ⟨-, -, rfl⟩ | ⟨e, rest, -, -, hidle⟩ := step_cases h
  · exact runCommand_keepsInv hr hrun
  · exact (dequeue rest).trans (hostBusy_keepsInv hr hbusy)
  · exact ⟨rfl, id⟩
  · exact (dequeue rest).trans (hostIdle_keepsInv hidle)

/-- Settles O10: what a command has written by its end is all it changes but for `BUSY`, `DONE` and the error. -/
theorem commandRegisterFrame : Obligations.CommandRegisterFrame := by
  intro i s t h
  obtain ⟨u, hw, rfl | ⟨e, -, rfl⟩⟩ := exec_ends h
  all_goals
    exact ⟨hw.unwritten, fun hi => hw.cursor_eq (readsStream_eq_false hi), hw.res_eq, hw.lut_eq,
      fun hi => hw.cm_eq (writesCm_eq_false hi)⟩

/-- Settles O21: such an access reaches no register. -/
theorem narrowOrUnalignedAccessInert : Obligations.NarrowOrUnalignedAccessInert := by
  intro s bytes off v rest h
  have hreg := regOf_eq_none_of_narrow h
  exact ⟨step_regWrite_unreached hreg, step_regRead_unreached hreg⟩

/-- Settles O22: a register read gives an answer only, and the answer of `STATUS` shows the running command. -/
theorem hostActionsWhileBusy : Obligations.HostActionsWhileBusy := by
  intro s w e rest hr hi
  refine ⟨?_, step_memory_busy hr hi⟩
  rintro off r hreg rfl
  refine ⟨busyRead { s with input := rest } 4 off, step_hostBusy hr hi nofun, ?_, ?_⟩
  · obtain ⟨v, n, hread⟩ := busyRead_eq { s with input := rest } 4 off
    rw [hread]
  · rintro rfl
    rw [busyRead_status hreg]
    exact ⟨rfl, (statusWord_bit0 s).trans (Option.isSome_of_eq_some hr), rfl⟩

/-- Settles O23: a read of an idle block is an answer only, and a write is one `memSet`. -/
theorem hostAccessesWhileIdle : Obligations.HostAccessesWhileIdle := by
  intro s e rest hr hi
  refine ⟨?register, ?wait, fun a ha => ⟨?cmRead, ?cmWrite⟩, fun a ha => ⟨?dmRead, ?dmWrite⟩,
    fun a ha => ⟨?bsRead, ?bsWrite⟩⟩
  case register =>
    rintro off r hreg rfl
    rw [step_regRead_idle hr hreg hi, getReg_input]
    rfl
  case wait =>
    rintro rfl
    exact ⟨_, step_hostIdle hr hi, rfl, (statusWord_bit0 s).trans (by rw [hr, Option.isSome_none])⟩
  case cmRead | dmRead | bsRead =>
    rintro rfl
    exact step_memory_idle hr hi rfl ha
  case cmWrite =>
    rintro v rfl
    exact ⟨_, step_memory_idle hr hi rfl ha, rfl, cmWord_set_same v, fun b => cmWord_set_other v⟩
  case dmWrite =>
    rintro v rfl
    exact ⟨_, step_memory_idle hr hi rfl ha, rfl, dmWord_set_same v, fun b => dmWord_set_other v⟩
  case bsWrite =>
    rintro v rfl
    exact ⟨_, step_memory_idle hr hi rfl ha, rfl, bsByte_set_same v, fun b => bsByte_set_other v⟩

end Sys2Proof.Machine

namespace Sys2Proof.Machine

/-! ## The fields of a command word (R91)

A word is read as a number, its fields as the quotients and remainders that `commandWord` puts together again. -/

theorem opcOf_eq (w : Word) : opcOf w = w.toNat / 2 ^ 24 := by
  have := w.isLt
  simp only [opcOf, BitVec.extractLsb'_toNat, Nat.shiftRight_eq_div_pow]
  omega

theorem rdOf_val (w : Word) : (rdOf w).val = w.toNat / 2 ^ 21 % 8 := by
  simp [rdOf, Nat.shiftRight_eq_div_pow]

theorem raOf_val (w : Word) : (raOf w).val = w.toNat / 2 ^ 18 % 8 := by
  simp [raOf, Nat.shiftRight_eq_div_pow]

theorem rbOf_val (w : Word) : (rbOf w).val = w.toNat / 2 ^ 15 % 8 := by
  simp [rbOf, Nat.shiftRight_eq_div_pow]

theorem lowBits_eq_zero {w : Word} {n : Nat} : w.extractLsb' 0 n = 0 ↔ w.toNat % 2 ^ n = 0 := by
  simp [← BitVec.toNat_inj, BitVec.extractLsb'_toNat]

theorem commandWord_toNat {opc : Nat} (ho : opc < 256) (rd ra rb : DescNum) :
    (commandWord opc rd ra rb).toNat = opc * 2 ^ 24 + rd.val * 2 ^ 21 + ra.val * 2 ^ 18 + rb.val * 2 ^ 15 := by
  simp only [commandWord, BitVec.toNat_ofNat]
  omega

/-- A word is the one put together from some fields exactly when these are its fields and its low 15 bits are 0 (R91,
R99). -/
theorem eq_commandWord_iff {w : Word} {opc : Nat} (ho : opc < 256) {rd ra rb : DescNum} :
    w = commandWord opc rd ra rb ↔
      opcOf w = opc ∧ rdOf w = rd ∧ raOf w = ra ∧ rbOf w = rb ∧ w.extractLsb' 0 15 = 0 := by
  have hw := w.isLt
  simp only [← BitVec.toNat_inj (x := w), commandWord_toNat ho, opcOf_eq, Fin.ext_iff, rdOf_val, raOf_val, rbOf_val,
    lowBits_eq_zero]
  omega

@[simp] theorem opcOf_commandWord {opc : Nat} (ho : opc < 256) (rd ra rb : DescNum) :
    opcOf (commandWord opc rd ra rb) = opc := ((eq_commandWord_iff ho).mp rfl).1

/-- The unused fields of form D are its low 21 bits (R91). -/
theorem lowBits21_eq_zero {w : Word} :
    w.extractLsb' 0 21 = 0 ↔ raOf w = 0 ∧ rbOf w = 0 ∧ w.extractLsb' 0 15 = 0 := by
  simp only [lowBits_eq_zero, Fin.ext_iff, raOf_val, rbOf_val, Fin.val_zero]
  omega

/-- The unused fields of form N are its low 24 bits (R91). -/
theorem lowBits24_eq_zero {w : Word} :
    w.extractLsb' 0 24 = 0 ↔ rdOf w = 0 ∧ raOf w = 0 ∧ rbOf w = 0 ∧ w.extractLsb' 0 15 = 0 := by
  simp only [lowBits_eq_zero, Fin.ext_iff, rdOf_val, raOf_val, rbOf_val, Fin.val_zero]
  omega

/-! ## The three forms, read and written (R91, R92, R99) -/

section Forms

variable {w : Word} {opc : Nat} {j : Instr}

/-- A word of form N is accepted exactly when all its operand fields are 0. -/
theorem formN_ok_iff (ho : opc < 256) (hw : opcOf w = opc) {i : Instr} :
    formN w i = .ok j ↔ i = j ∧ w = commandWord opc 0 0 0 := by
  rw [eq_commandWord_iff ho, ← lowBits24_eq_zero]
  unfold formN
  split <;> simp_all

/-- A word of form D is accepted exactly when its operand fields but `rd` are 0. -/
theorem formD_ok_iff (ho : opc < 256) (hw : opcOf w = opc) {i : DescNum → Instr} :
    formD w i = .ok j ↔ ∃ rd, i rd = j ∧ w = commandWord opc rd 0 0 := by
  simp only [eq_commandWord_iff ho, ← lowBits21_eq_zero]
  unfold formD
  split <;> simp_all

/-- A word of form T is accepted exactly when its low 15 bits are 0. -/
theorem formT_ok_iff (ho : opc < 256) (hw : opcOf w = opc) {i : DescNum → DescNum → DescNum → Instr} :
    formT w i = .ok j ↔ ∃ rd ra rb, i rd ra rb = j ∧ w = commandWord opc rd ra rb := by
  simp only [eq_commandWord_iff ho]
  unfold formT
  split <;> simp_all

@[simp] theorem formN_commandWord (ho : opc < 256) (i : Instr) : formN (commandWord opc 0 0 0) i = .ok i :=
  (formN_ok_iff ho (opcOf_commandWord ho 0 0 0)).mpr ⟨rfl, rfl⟩

@[simp] theorem formD_commandWord (ho : opc < 256) (rd : DescNum) (i : DescNum → Instr) :
    formD (commandWord opc rd 0 0) i = .ok (i rd) :=
  (formD_ok_iff ho (opcOf_commandWord ho rd 0 0)).mpr ⟨rd, rfl, rfl⟩

@[simp] theorem formT_commandWord (ho : opc < 256) (rd ra rb : DescNum) (i : DescNum → DescNum → DescNum → Instr) :
    formT (commandWord opc rd ra rb) i = .ok (i rd ra rb) :=
  (formT_ok_iff ho (opcOf_commandWord ho rd ra rb)).mpr ⟨rd, ra, rb, rfl, rfl⟩

end Forms

/-! ## The decoder and the encoder (R92, R99) -/

/-- The word of every command decodes to it. -/
theorem decode_encode (i : Instr) : decode (encode i) = .ok i := by
  cases i with
  | nop | deq | qnt | lutb | lutr =>
    simp (disch := decide) only [encode, decode, opcOf_commandWord, formN_commandWord]
  | qntb rd | lpld rd | vld rd | shl2 rd | div4 rd =>
    simp (disch := decide) only [encode, decode, opcOf_commandWord, formD_commandWord]
  | vsyn rd ra rb | hsyn rd ra rb | hsync rd ra rb | vana rd ra rb | hana rd ra rb =>
    simp (disch := decide) only [encode, decode, opcOf_commandWord, formT_commandWord]

/-- No other word decodes to a command: by the opcode, and its form. -/
theorem eq_encode_of_decode {w : Word} {i : Instr} (h : decode w = .ok i) : w = encode i := by
  unfold decode at h
  split at h
  case h_1 ho | h_2 ho | h_3 ho | h_4 ho | h_5 ho =>
    obtain ⟨rfl, hw⟩ := (formN_ok_iff (by decide) ho).mp h
    exact hw
  case h_6 ho | h_7 ho | h_8 ho | h_12 ho | h_15 ho =>
    obtain ⟨rd, rfl, hw⟩ := (formD_ok_iff (by decide) ho).mp h
    exact hw
  case h_9 ho | h_10 ho | h_11 ho | h_13 ho | h_14 ho =>
    obtain ⟨rd, ra, rb, rfl, hw⟩ := (formT_ok_iff (by decide) ho).mp h
    exact hw
  case h_16 => cases h

theorem decode_eq_ok_iff {w : Word} {i : Instr} : decode w = .ok i ↔ w = encode i :=
  ⟨eq_encode_of_decode, fun h => h ▸ decode_encode i⟩

/-- Settles O1: the decoder accepts a word in its form exactly when the unused fields are 0, and the encoder writes
them so. -/
theorem decodeIffEncode : Obligations.DecodeIffEncode := fun _ _ => decode_eq_ok_iff

/-! ## The rows of R93 -/

/-- The word of every command selects the row of its mnemonic. -/
theorem encode_selects_row (i : Instr) : Laws.EncodeTable.Statement i := by
  cases i with
  | nop => exact Laws.EncodeTable.nop
  | deq => exact Laws.EncodeTable.deq
  | qnt => exact Laws.EncodeTable.qnt
  | lutb => exact Laws.EncodeTable.lutb
  | lutr => exact Laws.EncodeTable.lutr
  | qntb rd => exact Laws.EncodeTable.qntb rd
  | lpld rd => exact Laws.EncodeTable.lpld rd
  | vld rd => exact Laws.EncodeTable.vld rd
  | vsyn rd ra rb => exact Laws.EncodeTable.vsyn rd ra rb
  | hsyn rd ra rb => exact Laws.EncodeTable.hsyn rd ra rb
  | hsync rd ra rb => exact Laws.EncodeTable.hsync rd ra rb
  | shl2 rd => exact Laws.EncodeTable.shl2 rd
  | vana rd ra rb => exact Laws.EncodeTable.vana rd ra rb
  | hana rd ra rb => exact Laws.EncodeTable.hana rd ra rb
  | div4 rd => exact Laws.EncodeTable.div4 rd

section Masks

variable {w : Word} {opc : Nat} {m : String}

/-- A field that a mask keeps whole is the same in the word and in the masked word. -/
theorem extractLsb'_of_and_mask {mask p : Word} (h : w &&& mask = p) {start len : Nat}
    (hmask : mask.extractLsb' start len = BitVec.allOnes len) :
    w.extractLsb' start len = p.extractLsb' start len := by
  rw [← h, BitVec.extractLsb'_and, hmask, BitVec.and_allOnes]

theorem opcOf_of_and_mask {mask p : Word} (h : w &&& mask = p) (hmask : mask.extractLsb' 24 8 = BitVec.allOnes 8) :
    opcOf w = opcOf p :=
  congrArg BitVec.toNat (extractLsb'_of_and_mask h hmask)

/-- The mask of form N keeps the whole word. -/
theorem decode_of_maskN (i : Instr) (hm : i.mnemonic = m) (h : w &&& 0xFFFFFFFF = encode i) :
    ∃ j, decode w = .ok j ∧ j.mnemonic = m :=
  ⟨i, decode_eq_ok_iff.mpr (and_full_mask w ▸ h), hm⟩

/-- The mask of form D leaves `rd` free. -/
theorem decode_of_maskD (ho : opc < 256) (i : DescNum → Instr)
    (hi : ∀ rd, encode (i rd) = commandWord opc rd 0 0 ∧ (i rd).mnemonic = m)
    (h : w &&& 0xFF1FFFFF = commandWord opc 0 0 0) : ∃ j, decode w = .ok j ∧ j.mnemonic = m := by
  obtain ⟨henc, hm⟩ := hi (rdOf w)
  obtain ⟨hopc, -, hlow⟩ := (eq_commandWord_iff ho).mp (rfl : commandWord opc 0 0 0 = _)
  have hlow : w.extractLsb' 0 21 = 0 := (extractLsb'_of_and_mask h (by decide)).trans (lowBits21_eq_zero.mpr hlow)
  refine ⟨i (rdOf w), decode_eq_ok_iff.mpr (henc.symm ▸ (eq_commandWord_iff ho).mpr ?_), hm⟩
  exact ⟨(opcOf_of_and_mask h (by decide)).trans hopc, rfl, lowBits21_eq_zero.mp hlow⟩

/-- The mask of form T leaves `rd`, `ra`, `rb` free. -/
theorem decode_of_maskT (ho : opc < 256) (i : DescNum → DescNum → DescNum → Instr)
    (hi : ∀ rd ra rb, encode (i rd ra rb) = commandWord opc rd ra rb ∧ (i rd ra rb).mnemonic = m)
    (h : w &&& 0xFF007FFF = commandWord opc 0 0 0) : ∃ j, decode w = .ok j ∧ j.mnemonic = m := by
  obtain ⟨henc, hm⟩ := hi (rdOf w) (raOf w) (rbOf w)
  obtain ⟨hopc, -, -, -, hlow⟩ := (eq_commandWord_iff ho).mp (rfl : commandWord opc 0 0 0 = _)
  have hlow : w.extractLsb' 0 15 = 0 := (extractLsb'_of_and_mask h (by decide)).trans hlow
  refine ⟨i (rdOf w) (raOf w) (rbOf w), decode_eq_ok_iff.mpr (henc.symm ▸ (eq_commandWord_iff ho).mpr ?_), hm⟩
  exact ⟨(opcOf_of_and_mask h (by decide)).trans hopc, rfl, rfl, rfl, hlow⟩

end Masks

/-- A word that selects a row of R93 decodes to a command of its mnemonic. -/
theorem decode_of_row {w : Word} {r : OpRow} (hr : r ∈ opcodeRows) (h : w &&& r.mask = r.pattern) :
    ∃ i, decode w = .ok i ∧ i.mnemonic = r.mnemonic := by
  simp only [opcodeRows, List.mem_cons, List.not_mem_nil, or_false] at hr
  obtain rfl | rfl | rfl | rfl | rfl | rfl | rfl | rfl | rfl | rfl | rfl | rfl | rfl | rfl | rfl := hr
  · exact decode_of_maskN .nop rfl h
  · exact decode_of_maskN .deq rfl h
  · exact decode_of_maskN .qnt rfl h
  · exact decode_of_maskN .lutb rfl h
  · exact decode_of_maskN .lutr rfl h
  · exact decode_of_maskD (opc := 0x05) (by decide) .qntb (fun _ => ⟨rfl, rfl⟩) h
  · exact decode_of_maskD (opc := 0x10) (by decide) .lpld (fun _ => ⟨rfl, rfl⟩) h
  · exact decode_of_maskD (opc := 0x11) (by decide) .vld (fun _ => ⟨rfl, rfl⟩) h
  · exact decode_of_maskT (opc := 0x20) (by decide) .vsyn (fun _ _ _ => ⟨rfl, rfl⟩) h
  · exact decode_of_maskT (opc := 0x21) (by decide) .hsyn (fun _ _ _ => ⟨rfl, rfl⟩) h
  · exact decode_of_maskT (opc := 0x22) (by decide) .hsync (fun _ _ _ => ⟨rfl, rfl⟩) h
  · exact decode_of_maskD (opc := 0x23) (by decide) .shl2 (fun _ => ⟨rfl, rfl⟩) h
  · exact decode_of_maskT (opc := 0x28) (by decide) .vana (fun _ _ _ => ⟨rfl, rfl⟩) h
  · exact decode_of_maskT (opc := 0x29) (by decide) .hana (fun _ _ _ => ⟨rfl, rfl⟩) h
  · exact decode_of_maskD (opc := 0x2A) (by decide) .div4 (fun _ => ⟨rfl, rfl⟩) h

/-- A word decodes to a command of a mnemonic exactly when it selects that row of R93. -/
theorem decode_mnemonic_iff {w : Word} {m : String} :
    (∃ i, decode w = .ok i ∧ i.mnemonic = m) ↔ ∃ r ∈ opcodeRows, r.mnemonic = m ∧ w &&& r.mask = r.pattern := by
  constructor
  · rintro ⟨i, hi, rfl⟩
    obtain rfl := decode_eq_ok_iff.mp hi
    exact encode_selects_row i
  · rintro ⟨r, hr, rfl, h⟩
    exact decode_of_row hr h

/-- A command word is a word that decodes to a command (R92, R93). -/
theorem commandWordOk_iff {w : Word} : commandWordOk w = true ↔ ∃ i, decode w = .ok i := by
  simp only [commandWordOk, List.any_eq_true, beq_iff_eq]
  constructor
  · rintro ⟨r, hr, h⟩
    obtain ⟨i, hi, -⟩ := decode_of_row hr h
    exact ⟨i, hi⟩
  · rintro ⟨i, hi⟩
    obtain ⟨r, hr, -, h⟩ := decode_mnemonic_iff.mp ⟨i, hi, rfl⟩
    exact ⟨r, hr, h⟩

/-- A word that selects no row raises `ERR_ILLCMD` when it runs (R96). -/
theorem runCommand_of_not_commandWordOk {w : Word} (h : commandWordOk w = false) (s : State) :
    runCommand w s = .next (raiseError .illCmd w s) := by
  cases hd : decode w with
  | ok i => simp [commandWordOk_iff.mpr ⟨i, hd⟩] at h
  | error e => simp [runCommand, hd]

/-- Settles O2: the word of a command selects its row, and each mask leaves just the operand fields of its form free. -/
theorem decodeSelectsTableRow : Obligations.DecodeSelectsTableRow := fun _ _ => decode_mnemonic_iff

/-- Settles O3: each of the listed words is decoded by its opcode and the check of its form. -/
theorem specWordsDecode : Obligations.SpecWordsDecode := by
  unfold Obligations.SpecWordsDecode
  decide

/-- Settles O4: the step runs the word, and the word decodes to no command. -/
theorem illegalWordRaisesIllcmd : Obligations.IllegalWordRaisesIllcmd := fun s _ hr hi hw =>
  (step_runCommand hr hi).trans (runCommand_of_not_commandWordOk hw s)

end Sys2Proof.Machine

namespace Sys2Proof.Machine

/-! ## The decode tables (R37)

In a table that R37 admits an entry is found by its own length and pattern, and by no shorter part of its pattern. -/

section Tables

variable {T : List CodeEntry} {e : CodeEntry} {maxLen : Nat}

theorem entryBitsOk_iff : entryBitsOk maxLen e = true ↔ 1 ≤ e.len ∧ e.len ≤ maxLen ∧ e.bits < 2 ^ e.len := by
  simp [entryBitsOk, and_assoc]

/-- The constraints of R37 on the codewords of a decode table. -/
theorem codebookOk_codewords (h : codebookOk maxLen T = true) :
    (∀ e ∈ T, 1 ≤ e.len ∧ e.len ≤ maxLen ∧ e.bits < 2 ^ e.len) ∧ prefixFree T = true := by
  simp only [codebookOk, Bool.and_eq_true, List.all_eq_true, entryBitsOk_iff] at h
  obtain ⟨⟨⟨⟨hbits, hfree⟩, -⟩, -⟩, -⟩ := h
  exact ⟨hbits, hfree⟩

/-- Both decode tables of admissible parameters are admissible, so the selected one is (R8, R32). -/
theorem codebookOk_codebook {s : State} (h : s.cfg.wf = true) : codebookOk s.cfg.cbMaxLen (codebook s) = true := by
  simp only [Config.Params.wf, Config.codebooksOk, Bool.and_eq_true] at h
  obtain ⟨-, ⟨-, h0⟩, h1⟩ := h
  unfold codebook
  split
  · exact h0
  · exact h1

/-- In a table that R37 admits a pattern begins no other entry's pattern. -/
theorem eq_of_startsWith (h : prefixFree T = true) {a b : CodeEntry} (ha : a ∈ T) (hb : b ∈ T)
    (hab : startsWith a b = true) : a = b := by
  have : Std.Symm fun a b : CodeEntry => (startsWith a b || startsWith b a) = false :=
    ⟨fun a b h => by rwa [Bool.or_comm]⟩
  by_contra hne
  simpa [hab] using (of_decide_eq_true h).forall ha hb hne

/-- What a lookup with the first `len` bits of an entry's pattern finds: the entry, once these are all its bits. -/
theorem findEntry_first_bits (h : prefixFree T = true) (he : e ∈ T) {len : Nat} (hlen : len ≤ e.len) :
    findEntry T len (e.bits / 2 ^ (e.len - len)) = if len = e.len then some e else none := by
  cases hf : findEntry T len (e.bits / 2 ^ (e.len - len)) with
  | some f =>
    obtain ⟨hmem, hfl, hfb⟩ := findEntry_some hf
    obtain rfl : f = e := eq_of_startsWith h hmem he (by simp [startsWith, hfl, hfb, hlen])
    rw [if_pos hfl.symm]
  | none =>
    refine (if_neg fun hl => findEntry_none.mp hf e he ⟨hl.symm, ?_⟩).symm
    simp [hl]

/-- `NextEntry` (R144), `len` bits into the codeword of an entry `e` that stands at bit `b`, finds that entry. -/
theorem fetchEntry_rest (h : prefixFree T = true) (he : e ∈ T) {bit : Nat → Nat} {avail b : Nat}
    (hbit : ∀ i < e.len, bit (b + i) = e.bits / 2 ^ (e.len - 1 - i) % 2) (havail : b + e.len ≤ avail) :
    ∀ left len, len < e.len → e.len ≤ len + left →
      fetchEntry T bit avail left (b + len) len (e.bits / 2 ^ (e.len - len)) = .entry e (b + e.len) := by
  intro left
  induction left with
  | zero => omega
  | succ left ih =>
    intro len hlt hleft
    have hpat : 2 * (e.bits / 2 ^ (e.len - len)) + bit (b + len) = e.bits / 2 ^ (e.len - (len + 1)) := by
      rw [hbit len hlt, show e.len - len = e.len - (len + 1) + 1 by omega,
        show e.len - 1 - len = e.len - (len + 1) by omega, Nat.pow_succ, ← Nat.div_div_eq_div_mul]
      exact Nat.div_add_mod _ 2
    rw [fetchEntry, if_neg (by omega), hpat, findEntry_first_bits h he hlt]
    by_cases hlast : len + 1 = e.len
    · rw [if_pos hlast, ← hlast, Nat.add_assoc]
    · rw [if_neg hlast]
      exact ih (len + 1) (by omega) (by omega)

end Tables

/-! ## A chunk of codewords (R97, R144, R146) -/

/-- The bits read from bit `b` on are those of `l` (R65). -/
def BitsAt (bit : Nat → Nat) (b : Nat) (l : List Nat) : Prop := ∀ i < l.length, bit (b + i) = l.getD i 0

theorem bitsAt_append {bit : Nat → Nat} {b : Nat} {l k : List Nat} :
    BitsAt bit b (l ++ k) ↔ BitsAt bit b l ∧ BitsAt bit (b + l.length) k := by
  constructor
  · intro h
    refine ⟨fun i hi => ?_, fun i hi => ?_⟩
    · rw [h i (by rw [List.length_append]; omega), List.getD_append _ _ _ _ hi]
    · rw [Nat.add_assoc, h (l.length + i) (by rw [List.length_append]; omega),
        List.getD_append_right _ _ _ _ (Nat.le_add_right _ _), Nat.add_sub_cancel_left]
  · rintro ⟨hl, hk⟩ i hi
    obtain hlt | hge := Nat.lt_or_ge i l.length
    · rw [hl i hlt, List.getD_append _ _ _ _ hlt]
    · have hk := hk (i - l.length) (by rw [List.length_append] at hi; omega)
      rw [List.getD_append_right _ _ _ _ hge, ← hk]
      congr 1
      omega

@[simp] theorem patternBits_length (len bits : Nat) : (patternBits len bits).length = len := by simp [patternBits]

@[simp] theorem codewordBits_nil : codewordBits [] = [] := rfl

@[simp] theorem codewordBits_cons (e : CodeEntry) (es : List CodeEntry) :
    codewordBits (e :: es) = patternBits e.len e.bits ++ codewordBits es := rfl

@[simp] theorem codewordBits_append (es fs : List CodeEntry) :
    codewordBits (es ++ fs) = codewordBits es ++ codewordBits fs := List.flatMap_append

/-- `NextEntry` (R144) at the codeword of an entry of the selected table answers that entry. -/
theorem vldNext_entry {s : State} (hwf : s.cfg.wf = true) {e : CodeEntry} (he : e ∈ codebook s) {b : Nat}
    (hbits : BitsAt (bsBit s s.bspos.toNat) b (patternBits e.len e.bits)) (havail : b + e.len ≤ vldAvail s) :
    vldNext s b = .entry e (b + e.len) := by
  obtain ⟨hentries, hfree⟩ := codebookOk_codewords (codebookOk_codebook hwf)
  obtain ⟨hpos, hmax, hlt⟩ := hentries e he
  have hbit : ∀ i < e.len, bsBit s s.bspos.toNat (b + i) = e.bits / 2 ^ (e.len - 1 - i) % 2 := fun i hi => by
    rw [hbits i (by simpa using hi)]
    simp [patternBits, hi, Nat.shiftRight_eq_div_pow]
  have hfetch := fetchEntry_rest hfree he hbit havail s.cfg.cbMaxLen 0 hpos (by omega)
  simpa [vldNext, Nat.div_eq_of_lt hlt] using hfetch

/-- Every codeword has at least one bit (R37), so a chunk has no more pairs than bits. -/
theorem length_le_codewordBits_length {s : State} (hwf : s.cfg.wf = true) {es : List CodeEntry}
    (h : ∀ e ∈ es, e ∈ codebook s) : es.length ≤ (codewordBits es).length := by
  obtain ⟨hentries, -⟩ := codebookOk_codewords (codebookOk_codebook hwf)
  induction es with
  | nil => exact Nat.zero_le _
  | cons e es ih =>
    obtain ⟨he, hes⟩ := List.forall_mem_cons.mp h
    obtain ⟨hpos, -⟩ := hentries e he
    have := ih hes
    simp only [codewordBits_cons, List.length_append, patternBits_length, List.length_cons]
    omega

/-- The decode loop of R146 passes over the codewords of pairs that fit the capacity, takes these pairs, and goes on
behind them. -/
theorem vldParse_pairs {s : State} (hwf : s.cfg.wf = true) {cap : Nat} (fuel : Nat) {pairs : List CodeEntry} :
    ∀ {b n : Nat}, (∀ e ∈ pairs, e ∈ codebook s) → (∀ e ∈ pairs, e.esc = false) →
      BitsAt (bsBit s s.bspos.toNat) b (codewordBits pairs) → b + (codewordBits pairs).length ≤ vldAvail s →
      n + runSum pairs ≤ cap →
      vldParse (vldNext s) cap (pairs.length + fuel) b n =
        let p := vldParse (vldNext s) cap fuel (b + (codewordBits pairs).length) (n + runSum pairs)
        { p with pairs := pairs ++ p.pairs } := by
  induction pairs with
  | nil => intros; simp
  | cons e pairs ih =>
    intro b n hmem hesc hbits havail hcap
    obtain ⟨he, hmem⟩ := List.forall_mem_cons.mp hmem
    obtain ⟨hne, hesc⟩ := List.forall_mem_cons.mp hesc
    obtain ⟨hfirst, hrest⟩ := bitsAt_append.mp hbits
    rw [patternBits_length] at hrest
    simp only [codewordBits_cons, List.length_append, patternBits_length, runSum_cons] at havail hcap ⊢
    have hnext := vldNext_entry hwf he hfirst (by omega)
    have ih := ih hmem hesc hrest (by omega) (n := n + e.run) (by omega)
    rw [List.length_cons, Nat.add_right_comm, vldParse, hnext]
    simp only [hne, Bool.false_eq_true, if_false, if_neg (show ¬cap < n + e.run by omega), ih, Nat.add_assoc,
      List.cons_append]

theorem capacity_eq_capacityRule (s : State) (k : Desc) : capacity s k = capacityRule s k := by
  unfold capacity capacityRule
  cases s.cfg.capRule <;> rfl

/-- A capacity fits `COUNT`: it is at most a product of two 16-bit extents (R23, R38). -/
theorem capacity_lt (s : State) (k : Desc) : capacity s k < 2 ^ 32 := by
  have hextent (x : Half) : x.toNat * strideOf k < 2 ^ 32 :=
    calc x.toNat * strideOf k ≤ (2 ^ 16 - 1) * (2 ^ 16 - 1) :=
          Nat.mul_le_mul (Nat.le_sub_one_of_lt x.isLt) (Nat.le_sub_one_of_lt k.stride.isLt)
      _ < 2 ^ 32 := by decide
  unfold capacity
  split
  · exact hextent k.height
  · exact (Nat.min_le_left _ _).trans_lt (hextent k.width)

/-- A chunk of pairs that fit the capacity and an escape, inside the window, is parsed into these pairs. -/
theorem vldChunk_pairs {s : State} {k : Desc} {pairs : List CodeEntry} {stop : CodeEntry} (hwf : s.cfg.wf = true)
    (hbegins : ChunkBegins s (pairs ++ [stop])) (hesc : ∀ e ∈ pairs, e.esc = false) (hstop : stop.esc = true)
    (hcap : runSum pairs ≤ capacity s k) (havail : (codewordBits (pairs ++ [stop])).length ≤ vldAvail s) :
    vldChunk s k = { pairs := pairs, bits := (codewordBits (pairs ++ [stop])).length, stop := none } := by
  obtain ⟨hmem, hbits⟩ := hbegins
  obtain ⟨hmem, hstopmem⟩ := List.forall_mem_append.mp hmem
  have hcount := length_le_codewordBits_length hwf hmem
  have hbits : BitsAt (bsBit s s.bspos.toNat) 0 (codewordBits (pairs ++ [stop])) := by simpa [BitsAt] using hbits
  simp only [codewordBits_append, List.length_append, codewordBits_cons, codewordBits_nil, List.append_nil,
    patternBits_length] at havail hbits ⊢
  obtain ⟨hpairs, hlast⟩ := bitsAt_append.mp hbits
  have hnext := vldNext_entry hwf (hstopmem stop (by simp)) hlast (by omega)
  obtain ⟨fuel, hfuel⟩ : ∃ fuel, vldAvail s + 1 = pairs.length + (fuel + 1) := ⟨vldAvail s - pairs.length, by omega⟩
  rw [vldChunk, hfuel, vldParse_pairs hwf (fuel + 1) hmem hesc hpairs (by omega) (by omega), vldParse, hnext]
  simp [hstop]

/-! ## What `VLD` leaves -/

/-- With its checks passed, the chunk parsed to its escape and the padded end in the window, `VLD` completes (R146). -/
theorem execVld_complete {s : State} {rd : DescNum} (hc : firstError (vldChecks s rd) = none)
    (hstop : (vldChunk s (desc s rd)).stop = none)
    (hend : vldEnd s (vldChunk s (desc s rd)).bits ≤ s.bslen.toNat) :
    execVld rd s = .next (complete { vldStore s (desc s rd) (vldChunk s (desc s rd)) with
      bspos := BitVec.ofNat 32 (vldEnd s (vldChunk s (desc s rd)).bits) }) := by
  simp [execVld, hc, hstop, Nat.not_lt.mpr hend, endOk]

theorem linearStores_map_snd (k : Desc) (vs : List Int) : (linearStores k vs).map Prod.snd = vs := by
  simp [linearStores, Function.comp_def]

/-- Some stored value does not fit exactly when some value of the list does not. -/
theorem linearStores_any (k : Desc) (vs : List Int) (f : Int → Bool) :
    ((linearStores k vs).any fun p => f p.2) = vs.any f := by
  conv_rhs => rw [← linearStores_map_snd k vs, List.any_map]
  rfl

/-- All that the stores of a chunk do, in terms of the values of its pairs (R146). -/
theorem vldStore_eq_pairValues (s : State) (k : Desc) (p : VldParse) :
    vldStore s k p =
      { s with
        cm := memPut s.cm (linearStores k (pairValues s.quant.toNat p.pairs))
        ovf := s.ovf || (pairValues s.quant.toNat p.pairs).any fun v => !fits16 v
        count := BitVec.ofNat 32 (pairValues s.quant.toNat p.pairs).length } := by
  rw [vldStore_eq, linearStores_any _ _ fun v => !fits16 v]
  rfl

/-- Values stored from the base of a band on, and counted (R67, R146). -/
theorem storedFrom_of_linearStores {s t : State} {k : Desc} {vs : List Int}
    (hcm : t.cm = memPut s.cm (linearStores k vs)) (hcount : t.count = BitVec.ofNat 32 vs.length)
    (hlen : vs.length < 2 ^ 32) : StoredFrom s t k vs := by
  refine ⟨?_, fun n hn => ?_, fun a ha => ?_⟩
  · rw [hcount, BitVec.toNat_ofNat, Nat.mod_eq_of_lt hlen]
  · rw [List.getD_eq_getElem _ _ hn]
    exact cmWord_put_mem hcm (linearStores_nodup k vs) (mem_linearStores.mpr ⟨n, hn, rfl⟩)
  · refine cmWord_put_frame hcm fun p hp => ?_
    obtain ⟨n, hn, rfl⟩ := mem_linearStores.mp hp
    exact ha n hn

/-- Settles O41: the parse takes the pairs of the chunk up to the escape, and its stores are linear from the base on. -/
theorem vldDecodesChunk : Obligations.VldDecodesChunk := by
  intro s rd pairs stop hwf hband hwindow hbegins hesc hstop hcap hend
  rw [← capacity_eq_capacityRule] at hcap
  have havail : (codewordBits (pairs ++ [stop])).length ≤ vldAvail s := by
    obtain ⟨-, hpad, -⟩ := align4_spec (s.bspos.toNat + ceil8 (codewordBits (pairs ++ [stop])).length)
    exact ceil8_le_iff.mp (by omega)
  have hchunk := vldChunk_pairs (k := desc s rd) hwf hbegins hesc hstop hcap havail
  have hexec := execVld_complete (vldChecks_pass.mpr ⟨hband, hwindow⟩) (by rw [hchunk]) (by rwa [hchunk])
  rw [hchunk, vldStore_eq_pairValues] at hexec
  have hlen : (pairValues s.quant.toNat pairs).length < 2 ^ 32 :=
    (vldValues_length _ pairs).trans_lt (hcap.trans_lt (capacity_lt s (desc s rd)))
  exact ⟨_, _, rfl, hexec, rfl, Nat.mod_eq_of_lt (hend.trans_lt s.bslen.isLt), storedFrom_of_linearStores rfl rfl hlen⟩

end Sys2Proof.Machine

namespace Sys2Proof.Machine

/-! ## The compander (R40, R121) -/

theorem compand_strictMono : StrictMono compand := fun _ _ hlt =>
  Nat.add_lt_add_of_lt_of_le hlt
    (Nat.div_le_div_right (Nat.mul_le_mul_left _ (Nat.pow_le_pow_left hlt.le 3)))

@[simp] theorem compand_zero : compand 0 = 0 := by decide

theorem compand_lt {x : Nat} (hx : x ≤ 255) : compand x < 1024 :=
  (compand_strictMono.monotone hx).trans_lt (by decide)

/-- The symbols whose expansion `QNT` does not clip (R130). -/
theorem compand_le_511_iff {x : Nat} : compand x ≤ 511 ↔ x ≤ 190 := by
  constructor
  · intro hx
    by_contra hgt
    have : compand 191 ≤ compand x := compand_strictMono.monotone (by omega)
    have : compand 191 = 513 := by decide
    omega
  · exact fun hx => (compand_strictMono.monotone hx).trans (by decide)

/-! ## The dequantizer (R121, R129) -/

/-- `DEQ` of R121 in the words of R123. -/
theorem deq_eq_abs (l : Int) (q : Nat) : deq l q = l.sign * q * (|l| + 768 * |l| ^ 3 / 16581375) := by
  simp [deq, compand]

theorem deq_natCast (x q : Nat) : deq x q = q * compand x := by
  obtain rfl | hx := Nat.eq_zero_or_pos x
  · simp [deq]
  · rw [deq, Int.sign_natCast_of_ne_zero hx.ne', one_mul, Int.natAbs_natCast]

theorem deq_neg (l : Int) (q : Nat) : deq (-l) q = -deq l q := by simp [deq]

@[simp] theorem deq_quant_zero (l : Int) : deq l 0 = 0 := by simp [deq]

/-- The magnitude of `DEQ`, with the sign of the level. -/
theorem deq_eq_ite (l : Int) (q : Nat) :
    deq l q = if l < 0 then -((q * compand l.natAbs : Nat) : Int) else (q * compand l.natAbs : Nat) := by
  obtain ⟨x, rfl | rfl⟩ := l.eq_nat_or_neg
  · rw [if_neg (by omega), deq_natCast, Int.natAbs_natCast, Nat.cast_mul]
  · rw [deq_neg, deq_natCast, Int.natAbs_neg, Int.natAbs_natCast, Nat.cast_mul]
    split
    · rfl
    · obtain rfl : x = 0 := by omega
      simp

theorem deq_strictMono {q : Nat} (hq : 1 ≤ q) : StrictMono fun l => deq l q := by
  refine strictMono_of_odd_strictMonoOn_nonneg (fun l => deq_neg l q) fun l hl m hm hlt => ?_
  lift l to Nat using hl
  lift m to Nat using hm
  have hc : compand l < compand m := compand_strictMono (by exact_mod_cast hlt)
  simp only [deq_natCast]
  exact_mod_cast Nat.mul_lt_mul_of_pos_left hc hq

/-! ## The quantizer (R124, R130) -/

theorem clamp_of_mem {x lo hi : Int} (hlo : lo ≤ x) (hhi : x ≤ hi) : clamp x lo hi = x := by
  rw [clamp_eq (hlo.trans hhi)]
  omega

/-- Both ranges of `QCLIP` hold R8's. -/
theorem qclip_holds_tenBit (r : Config.QClip) : r.lo ≤ -512 ∧ 511 ≤ r.hi := by cases r <;> decide

/-- Rounding to the nearest multiple of 32768 forgets an error of at most half of it. -/
theorem truncDiv_rounds {c : Int} {e : Nat} (herr : c.natAbs * e ≤ 16384) :
    truncDiv (c * (32768 - e) + 16384 * c.sign) 32768 = c := by
  have hpos (k : Nat) (hk : 0 < k) (herr : k * e ≤ 16384) :
      ((k : Int) * (32768 - e) + 16384).tdiv 32768 = k := by
    have hnum : (k : Int) * (32768 - e) + 16384 = 32768 * k + (16384 - k * e : Nat) := by
      push_cast [herr]
      ring
    rw [hnum, Int.tdiv_eq_ediv_of_nonneg (by omega)]
    omega
  rw [truncDiv]
  obtain rfl | hc := eq_or_ne c 0
  · simp
  obtain ⟨k, rfl | rfl⟩ := c.eq_nat_or_neg <;> have hk : 0 < k := by omega
  · simpa [Int.sign_natCast_of_ne_zero hk.ne'] using hpos k hk (by simpa using herr)
  · have hneg : -(k : Int) * (32768 - e) + 16384 * (-(k : Int)).sign = -(k * (32768 - e) + 16384) := by
      rw [Int.sign_neg, Int.sign_natCast_of_ne_zero hk.ne']
      ring
    rw [hneg, Int.neg_tdiv, hpos k hk (by simpa using herr)]

/-- `QNT` takes a factor out again, up to the clip, as long as the error that the truncated reciprocal makes is at most
the half that rounds it. For a power of two up to `2^15` there is no error. -/
theorem qntValue_mul {q : Nat} (hq : 1 ≤ q) (r : Config.QClip) {c : Int}
    (herr : c.natAbs * (32768 % q) ≤ 16384) : qntValue r (q * c) q = clamp c r.lo r.hi := by
  have hsign : (q * c).sign = c.sign := by
    rw [Int.sign_mul, Int.sign_natCast_of_ne_zero (by omega), one_mul]
  have hdiv : (q : Int) * (32768 / q : Nat) = 32768 - (32768 % q : Nat) := by
    have := Nat.div_add_mod 32768 q
    rw [← Nat.cast_mul]
    omega
  have hround : truncDiv (q * c * (32768 / q : Nat) + 16384 * c.sign) 32768 = c := by
    rw [mul_right_comm, hdiv, mul_comm, truncDiv_rounds herr]
  rw [qntValue, hsign, hround]

theorem qntValue_mul_of_small {q : Nat} (hq : 1 ≤ q) (r : Config.QClip) {c : Int} (hc : c.natAbs ≤ 511)
    (herr : c.natAbs * (32768 % q) ≤ 16384) : qntValue r (q * c) q = c := by
  obtain ⟨hlo, hhi⟩ := qclip_holds_tenBit r
  rw [qntValue_mul hq r herr, clamp_of_mem (by omega) (by omega)]

/-- A symbol that `QNT` does not clip comes back expanded, of either sign, from a factor with a small enough error. -/
theorem qntValue_deq {q : Nat} (hq : 1 ≤ q) (r : Config.QClip) {x : Nat} (hx : x ≤ 190)
    (herr : compand x * (32768 % q) ≤ 16384) :
    qntValue r (deq x q) q = compand x ∧ qntValue r (deq (-x) q) q = -compand x := by
  have hsmall : compand x ≤ 511 := compand_le_511_iff.mpr hx
  rw [deq_neg, deq_natCast, ← mul_neg]
  exact ⟨qntValue_mul_of_small hq r (by simpa using hsmall) (by simpa using herr),
    qntValue_mul_of_small hq r (by simpa using hsmall) (by simpa using herr)⟩

/-- A factor beyond 32768 has reciprocal 0, and the rounding half alone truncates to 0. -/
theorem qntValue_eq_zero {q : Nat} (hq : 32768 < q) (r : Config.QClip) (c : Int) : qntValue r c q = 0 := by
  obtain ⟨hlo, hhi⟩ := qclip_holds_tenBit r
  have hround : truncDiv (16384 * c.sign) 32768 = 0 := by
    obtain h | h | h := Int.sign_trichotomy c <;> rw [h] <;> rfl
  rw [qntValue, Nat.div_eq_of_lt hq, Nat.cast_zero, mul_zero, zero_add, hround, clamp_of_mem (by omega) (by omega)]

/-! ## The inverse table (R127)

`lutScatter` holds a symbol at its expansion and 0 elsewhere; `lutFill` takes over the entry before where it finds a 0.
So an entry is the last symbol whose expansion has been passed. -/

/-- What a table of `len` zeros holds at `i` once the first `n` symbols have been written at their expansions. -/
theorem scatter_getD (len n : Nat) {i : Nat} (hi : i < len) :
    let l := (List.range n).foldl (fun l s => l.set (compand s) s) (List.replicate len 0)
    (∃ s < n, compand s = i ∧ l.getD i 0 = s) ∨ ((∀ s < n, compand s ≠ i) ∧ l.getD i 0 = 0) := by
  induction n with
  | zero => simp
  | succ n ih =>
    simp only [List.range_succ, List.foldl_append, List.foldl_cons, List.foldl_nil] at ih ⊢
    by_cases hn : compand n = i
    · exact .inl ⟨n, n.lt_succ_self, hn, by simp [List.getD, hn, foldl_set_length, hi]⟩
    · rw [List.getD, List.getElem?_set_ne hn, ← List.getD]
      exact ih.imp (fun ⟨s, hs, h⟩ => ⟨s, Nat.lt_succ_of_lt hs, h⟩)
        fun ⟨hs, h⟩ => ⟨fun s hlt => (Nat.lt_succ_iff_lt_or_eq.mp hlt).elim (hs s) (· ▸ hn), h⟩

theorem lutScatter_getD {i : Nat} (hi : i < 1024) :
    (∃ s < 256, compand s = i ∧ lutScatter.getD i 0 = s) ∨
      ((∀ s < 256, compand s ≠ i) ∧ lutScatter.getD i 0 = 0) := scatter_getD 1024 256 hi

/-- An entry of the filled table is that of the scattered one, or where that is 0 the filled entry before. -/
theorem lutFill_getD (last : Nat) {l : List Nat} {i : Nat} (hi : i < l.length) :
    (lutFill last l).getD i 0 = if l.getD i 0 ≠ 0 then l.getD i 0 else (last :: lutFill last l).getD i 0 := by
  induction l generalizing last i with
  | nil => exact absurd hi (Nat.not_lt_zero _)
  | cons v l ih =>
    have hfill : lutFill last (v :: l) = (if v ≠ 0 then v else last) :: lutFill (if v ≠ 0 then v else last) l := by
      rw [lutFill]
      split <;> rfl
    rw [hfill]
    cases i with
    | zero => rfl
    | succ i => exact ih _ (Nat.lt_of_succ_lt_succ hi)

theorem lutTable_getD {i : Nat} (hi : i < 1024) :
    lutTable.getD i 0 = if lutScatter.getD i 0 ≠ 0 then lutScatter.getD i 0 else (0 :: lutTable).getD i 0 :=
  lutFill_getD 0 (by rwa [lutScatter, foldl_set_length, List.length_replicate])

/-- The table answers a symbol at its expansion (R130). -/
theorem lutTable_getD_compand {s : Nat} (hs : s ≤ 255) : lutTable.getD (compand s) 0 = s := by
  have hi := compand_lt hs
  have hscatter : lutScatter.getD (compand s) 0 = s := by
    obtain ⟨r, -, hr, hget⟩ | ⟨hne, -⟩ := lutScatter_getD hi
    · rw [hget, compand_strictMono.injective hr]
    · exact absurd rfl (hne s (Nat.lt_succ_of_le hs))
  rw [lutTable_getD hi, hscatter]
  split
  · rfl
  · obtain rfl : s = 0 := by omega
    rw [compand_zero, List.getD_cons_zero]

/-- Between expansions the table goes on as before. -/
theorem lutTable_getD_succ {i : Nat} (hi : i + 1 < 1024) (hne : ∀ s ≤ 255, compand s ≠ i + 1) :
    lutTable.getD (i + 1) 0 = lutTable.getD i 0 := by
  have hscatter : lutScatter.getD (i + 1) 0 = 0 := by
    obtain ⟨s, hs, hc, -⟩ | ⟨-, hget⟩ := lutScatter_getD hi
    · exact absurd hc (hne s (Nat.le_of_lt_succ hs))
    · exact hget
  rw [lutTable_getD hi, hscatter, if_neg (by omega), List.getD_cons_succ]

/-- Entry `i` of the table is the largest symbol whose expansion does not exceed `i` (R127). -/
theorem lutTable_isGreatest {i : Nat} (hi : i < 1024) :
    IsGreatest {x | x ≤ 255 ∧ compand x ≤ i} (lutTable.getD i 0) := by
  have hcompand {s : Nat} (hs : s ≤ 255) :
      IsGreatest {x | x ≤ 255 ∧ compand x ≤ compand s} (lutTable.getD (compand s) 0) := by
    rw [lutTable_getD_compand hs]
    exact ⟨⟨hs, le_rfl⟩, fun _ hx => compand_strictMono.le_iff_le.mp hx.2⟩
  induction i with
  | zero => simpa only [compand_zero] using hcompand (Nat.zero_le 255)
  | succ i ih =>
    by_cases hex : ∃ s ≤ 255, compand s = i + 1
    · obtain ⟨s, hs, hc⟩ := hex
      rw [← hc]
      exact hcompand hs
    · push Not at hex
      have hset : {x | x ≤ 255 ∧ compand x ≤ i + 1} = {x | x ≤ 255 ∧ compand x ≤ i} := by
        ext x
        exact and_congr_right fun hx => (Nat.le_iff_lt_or_eq.trans (or_iff_left (hex x hx))).trans Nat.lt_succ_iff
      rw [lutTable_getD_succ hi hex, hset]
      exact ih (by omega)

/-- A memory that lists the elements of a list by position. -/
theorem memGet?_zipIdx {n : Nat} (l : List Nat) (k i : Nat) :
    memGet? ((l.zipIdx k).map fun p => (p.2, BitVec.ofNat n p.1)) (k + i) = l[i]?.map (BitVec.ofNat n) := by
  induction l generalizing k i with
  | nil => rfl
  | cons v l ih =>
    cases i with
    | zero => simp [memGet?]
    | succ i => simpa [memGet?, Nat.add_right_comm k 1 i, Nat.add_assoc] using ih (k + 1) i

/-- What a `LUT` that holds the table reads as (R39). -/
theorem lutEntry_toNat {s : State} (hs : s.lut = lutMemory) {i : Nat} (hi : i < 1024) :
    (lutEntry s i).toNat = lutTable.getD i 0 := by
  have hlen : i < lutTable.length := lutTable_length.symm ▸ hi
  have hget : memGet? lutMemory i = some (BitVec.ofNat 16 (lutTable.getD i 0)) := by
    have := memGet?_zipIdx (n := 16) lutTable 0 i
    rwa [Nat.zero_add, List.getElem?_eq_getElem hlen, ← List.getD_eq_getElem _ 0 hlen] at this
  obtain ⟨⟨hle, -⟩, -⟩ := lutTable_isGreatest hi
  rw [lutEntry, hs, hget, Option.getD_some, BitVec.toNat_ofNat, Nat.mod_eq_of_lt (by omega)]

/-! ## The scalar commands (R123, R125, R127, R128) -/

theorem fits32_eq (x : Int) : fits32 x = decide (-2 ^ 31 ≤ x ∧ x ≤ 2 ^ 31 - 1) := by
  simp [fits32]

theorem qntValue_eq (r : Config.QClip) (c : Int) (q : Nat) :
    qntValue r c q = max (if r = .tenBit then -512 else -1024) (min (if r = .tenBit then 511 else 1023)
      ((c * (32768 / q : Nat) + 16384 * c.sign).tdiv 32768)) := by
  cases r <;> exact clamp_eq (by decide)

/-- With `QUANT` not 0 the check of it passes. -/
theorem firstError_quant_pass {s : State} (hq : s.quant ≠ 0) (cs : List (Bool × Err)) :
    firstError ((decide (s.quant ≠ 0), .quant0) :: cs) = firstError cs := by
  rw [firstError_cons, if_pos (decide_eq_true hq)]

/-- With `QUANT` 0 the check of it fails before all others. -/
theorem firstError_quant_fail {s : State} (hq : s.quant = 0) (cs : List (Bool × Err)) :
    firstError ((decide (s.quant ≠ 0), .quant0) :: cs) = some .quant0 := by
  rw [firstError_cons, hq]
  rfl

/-- All that `LUTB` does: it puts the table of R127 into the `LUT`, sets `LUTV`, and completes. -/
theorem exec_lutb_cases {s t : State} (h : exec .lutb s = .next t) :
    t.lut = lutMemory ∧ t = { s with lut := t.lut, lutv := true, running := none, done := true } := by
  obtain rfl : complete { s with lut := lutMemory, lutv := true } = t := Host.Outcome.next.inj h
  generalize lutMemory = m -- 1024 entries, which nothing below needs to see
  exact ⟨rfl, rfl⟩

/-- Settles O27: `DEQ` has no check, and writes its result with the flag of R122. -/
theorem deqResult : Obligations.DeqResult := by
  refine ⟨decode_eq_ok_iff.mpr (by decide), fun s => ⟨_, rfl, ?_⟩⟩
  rw [← deq_eq_abs, ← fits32_eq]
  rfl

/-- Settles O28: `DEQ` is an odd extension of a multiple of the compander, which grows strictly up to 1023. -/
theorem deqOddAndMonotone : Obligations.DeqOddAndMonotone := by
  refine ⟨deq_neg, fun q => by simp [deq], fun q l m hq hlt => deq_strictMono hq hlt, deq_quant_zero,
    fun l q hl hq => ?_⟩
  rw [Int.abs_eq_natAbs] at hl
  have hmag : q * compand l.natAbs ≤ 65535 * 1023 :=
    Nat.mul_le_mul hq (Nat.le_of_lt_succ (compand_lt (by omega)))
  rw [fits16_iff, fits32_iff, Int.abs_eq_natAbs, deq_eq_ite]
  generalize q * compand l.natAbs = m at hmag
  split <;> omega

/-- Settles O29: its one check is that of `QUANT`. -/
theorem qntResult : Obligations.QntResult := by
  refine ⟨decode_eq_ok_iff.mpr (by decide), fun s => ⟨fun hq => ⟨_, rfl, ?_⟩, fun hq => ?_⟩⟩
  · rw [← qntValue_eq]
    exact checked_pass (firstError_quant_pass hq [])
  · exact checked_fail (firstError_quant_fail hq [])

/-- Settles O30: the factor 1 is taken out without an error; a factor beyond 32768 has reciprocal 0. -/
theorem qntIdentityAtOne : Obligations.QntIdentityAtOne := by
  refine ⟨fun c => ?_, fun r c q hq => qntValue_eq_zero hq r c⟩
  have hone (r : Config.QClip) : qntValue r c 1 = clamp c r.lo r.hi := by
    simpa using qntValue_mul (q := 1) le_rfl r (c := c) (by simp)
  exact ⟨(hone .tenBit).trans (clamp_eq (by decide)), (hone .elevenBit).trans (clamp_eq (by decide))⟩

/-- Settles O31: `LUTB` has no check, and the table of R127 is the floor inverse. -/
theorem lutbBuildsFloorInverse : Obligations.LutbBuildsFloorInverse := by
  refine ⟨decode_eq_ok_iff.mpr (by decide), fun s => ?_⟩
  obtain ⟨t, ht⟩ : ∃ t, exec .lutb s = .next t := ⟨_, rfl⟩
  obtain ⟨hlut, hframe⟩ := exec_lutb_cases ht
  refine ⟨t, ht, hframe, fun i hi => ?_⟩
  rw [lutEntry_toNat hlut hi]
  exact lutTable_isGreatest hi

/-- Settles O32: its two checks, in the order of R128. -/
theorem lutrReadsEntry : Obligations.LutrReadsEntry := by
  refine ⟨decode_eq_ok_iff.mpr (by decide), fun s => ⟨fun hv hlo hhi => ?_, fun hv => ?_, fun hv hout => ?_⟩⟩
  · exact checked_pass (by simp [firstError_cons, hv, hlo, hhi])
  · exact checked_fail (e := .lutInv) (by simp [firstError_cons, hv])
  · have hin : ¬(0 ≤ s.arg.toInt ∧ s.arg.toInt ≤ 1023) := by omega
    exact checked_fail (e := .range) (by simp [firstError_cons, hv, ← Bool.decide_and, hin])

/-- Settles O33: a power of two is taken out without an error; the error of the factor 100 is 68, too much from the
expansion 241 of symbol 133 on. -/
theorem companderRoundTrip : Obligations.CompanderRoundTrip := by
  refine ⟨fun s t ht => ?_, fun x _ => compand_le_511_iff, fun r => ⟨?_, fun x hx => ?_⟩⟩
  · obtain ⟨hlut, -⟩ := exec_lutb_cases ht
    have hsymbol (x : Nat) (hx : x ≤ 255) : (lutEntry t (compand x)).toNat = x :=
      (lutEntry_toNat hlut (compand_lt hx)).trans (lutTable_getD_compand hx)
    refine ⟨hsymbol, fun r j x hj hx => ?_⟩
    have hdvd : 32768 % 2 ^ j = 0 := Nat.mod_eq_zero_of_dvd (pow_dvd_pow 2 hj)
    obtain ⟨hpos, hneg⟩ := qntValue_deq (q := 2 ^ j) Nat.one_le_two_pow r hx (by simp [hdvd])
    rw [hpos, hneg, Int.natAbs_neg, Int.natAbs_natCast]
    exact ⟨rfl, rfl, hsymbol x (by omega), hsymbol x (by omega)⟩
  · cases r <;> decide
  · have hmono : compand x ≤ compand 132 := compand_strictMono.monotone (by omega)
    have hlast : compand 132 = 238 := by decide
    exact (qntValue_deq (by decide) r (by omega) (by omega)).1

/-! ## The band commands in place (R126, R168, R186) -/

section BandMap

variable {s t : State} {k : Desc} {f : Int → Int} (ht : t.cm = memPut s.cm (bandMap s k f))
include ht

/-- An element of the declared extent of a valid band holds what `f` gives for it. -/
theorem cmWord_bandMap_elem (hk : dimsOk k = true) {r c : Nat} (hr : r < heightOf k) (hc : c < widthOf k) :
    cmWord t (elemAddr k r c) = wrap16 (f (cmInt s (elemAddr k r c))) := by
  obtain ⟨-, hwa, has, -, -⟩ := dimsOk_iff.mp hk
  exact cmWord_put_mem ht (rectStores_nodup _ _ (hwa.trans has)) (mem_rectStores.mpr ⟨r, c, hr, hc, rfl⟩)

/-- So an element that `f` maps to a value that fits reads, signed, as that value. -/
theorem cmInt_bandMap_elem (hk : dimsOk k = true) (hf : ∀ x, fits16 x = true → fits16 (f x) = true) {r c : Nat}
    (hr : r < heightOf k) (hc : c < widthOf k) : cmInt t (elemAddr k r c) = f (cmInt s (elemAddr k r c)) := by
  rw [cmInt, cmWord_bandMap_elem ht hk hr hc, wrap16_toInt (hf (cmInt s _) (fits16_toInt _))]

/-- Every word outside the declared extent is as before. -/
theorem cmWord_bandMap_frame {a : Nat} (ha : ¬InRect k (widthOf k) (heightOf k) a) : cmWord t a = cmWord s a := by
  refine cmWord_put_frame ht fun p hp hap => ha ?_
  obtain ⟨r, c, hr, hc, rfl⟩ := mem_rectStores.mp hp
  exact ⟨r, c, hr, hc, hap⟩

end BandMap

/-- Settles O34: the checks pass, and each element is mapped to its quantized value, which fits. -/
theorem qntbResult : Obligations.QntbResult := by
  intro s rd hq hband
  have hchecks := (firstError_quant_pass hq _).trans (bandChecks_pass.mpr hband)
  exact ⟨_, checked_pass hchecks, rfl,
    fun r c hr hc => cmInt_bandMap_elem rfl hband.1 (fun x _ => qntValue_fits _ x _) hr hc,
    fun a ha => cmWord_bandMap_frame rfl ha⟩

/-- The error of an invalid descriptor (R24, R232). -/
theorem bandChecks_dims {s : State} {rd : DescNum} (hd : dimsOk (desc s rd) = false) :
    firstError (bandChecks s rd) = some .invalidSubbandDimensions := by
  simp [bandChecks, firstError_cons, hd]

/-- The error of a valid descriptor whose footprint leaves `CM` (R24, R232). -/
theorem bandChecks_range {s : State} {rd : DescNum} (hd : dimsOk (desc s rd) = true)
    (hr : s.cfg.cmWords < footprintEnd (desc s rd)) : firstError (bandChecks s rd) = some .range := by
  simp [bandChecks, firstError_cons, hd, rangeOk, hr]

/-- An error of the band checks is the one a command on one band ends in, once the check of `QUANT` has passed. -/
theorem exec_band_fail {s : State} {rd : DescNum} {i : Instr} (hi : i = .qntb rd ∨ i = .shl2 rd ∨ i = .div4 rd)
    (hq : i = .qntb rd → s.quant ≠ 0) {e : Err} (he : firstError (bandChecks s rd) = some e) :
    exec i s = .next (raiseError e (encode i) s) := by
  obtain rfl | rfl | rfl := hi
  · exact checked_fail ((firstError_quant_pass (hq rfl) _).trans he)
  · exact checked_fail he
  · exact checked_fail he

/-- Settles O38: the check of `QUANT` comes first, then those of the band. -/
theorem bandCommandTraps : Obligations.BandCommandTraps := by
  refine fun s rd i hi => ⟨?_, fun hq => ⟨fun hd => ?_, fun hd hr => ?_⟩⟩
  · rintro rfl hq
    exact checked_fail (firstError_quant_fail hq _)
  · exact exec_band_fail hi hq (bandChecks_dims hd)
  · exact exec_band_fail hi hq (bandChecks_range hd hr)

end Sys2Proof.Machine

namespace Sys2Proof.Machine

/-! ## `LPLD` (R142) -/

/-- The value `LPLD` puts at row `r`, column `c`: that of the block, where the row after the last is the last one
(R98, R142). -/
def lpldValue (s : State) (k : Desc) (r c : Nat) : Half :=
  bsHalf s (s.bspos.toNat + 2 * (min r (heightOf k - 1) * widthOf k + c))

/-- High byte first (R64, R98). -/
theorem bsHalf_toNat (s : State) (p : Nat) :
    (bsHalf s p).toNat = (bsByte s p).toNat * 256 + (bsByte s (p + 1)).toNat := by
  rw [bsHalf, BitVec.toNat_append, ← Nat.shiftLeft_add_eq_or_of_lt (bsByte s (p + 1)).isLt, Nat.shiftLeft_eq]

/-- A rectangle one row higher is the rectangle and that row. -/
theorem rectStores_succ (k : Desc) (w h : Nat) (f : Nat → Nat → Int) :
    rectStores k w (h + 1) f = rectStores k w h f ++ (List.range w).map fun c => (elemAddr k h c, f h c) := by
  simp [rectStores, rectangle, List.range_succ, Function.comp_def]

/-- Stores into a rectangle depend only on the values inside it. -/
theorem rectStores_congr {k : Desc} {w h : Nat} {f g : Nat → Nat → Int} (hfg : ∀ r < h, ∀ c < w, f r c = g r c) :
    rectStores k w h f = rectStores k w h g := by
  refine List.map_congr_left fun p hp => ?_
  obtain ⟨hr, hc⟩ := mem_rectangle.mp hp
  rw [hfg p.1 hr p.2 hc]

section RectStores

variable {s t : State} {k : Desc} {w h : Nat} {f : Nat → Nat → Int} (ht : t.cm = memPut s.cm (rectStores k w h f))
include ht

/-- An element of a rectangle no wider than the pitch holds the value stored for it. -/
theorem cmWord_rectStores_elem (hw : w ≤ strideOf k) {r c : Nat} (hr : r < h) (hc : c < w) :
    cmWord t (elemAddr k r c) = wrap16 (f r c) :=
  cmWord_put_mem ht (rectStores_nodup h f hw) (mem_rectStores.mpr ⟨r, c, hr, hc, rfl⟩)

/-- Every word outside the rectangle is as before. -/
theorem cmWord_rectStores_frame {a : Nat} (ha : ¬InRect k w h a) : cmWord t a = cmWord s a := by
  refine cmWord_put_frame ht fun p hp hap => ha ?_
  obtain ⟨r, c, hr, hc, rfl⟩ := mem_rectStores.mp hp
  exact ⟨r, c, hr, hc, hap⟩

end RectStores

/-- The stores of `LPLD` into the first `h` rows (R142). -/
def lpldStores (s : State) (k : Desc) (h : Nat) : List (Nat × Int) :=
  rectStores k (widthOf k) h fun r c => (lpldValue s k r c).toInt

theorem cmWord_lpldStores {s t : State} {k : Desc} {h : Nat} (ht : t.cm = memPut s.cm (lpldStores s k h))
    (hd : dimsOk k = true) {r c : Nat} (hr : r < h) (hc : c < widthOf k) :
    cmWord t (elemAddr k r c) = lpldValue s k r c := by
  obtain ⟨-, hwa, has, -, -⟩ := dimsOk_iff.mp hd
  rw [cmWord_rectStores_elem ht (hwa.trans has) hr hc, wrap16_of_toInt]

theorem lpldLoad_eq (s : State) (k : Desc) : lpldLoad s k = writeAll s (lpldStores s k (heightOf k)) := by
  refine congrArg (writeAll s) (rectStores_congr fun r hr c _ => ?_)
  rw [lpldValue, Nat.min_eq_left (Nat.le_sub_one_of_lt hr)]

/-- The block and the duplicated row of an odd height are one rectangle of stores (R142). -/
theorem lpldDuplicate_lpldLoad (s : State) {k : Desc} (hd : dimsOk k = true) :
    lpldDuplicate (lpldLoad s k) k = writeAll s (lpldStores s k (heightOf k + heightOf k % 2)) := by
  obtain ⟨-, -, -, hh, -⟩ := dimsOk_iff.mp hd
  rw [lpldLoad_eq, lpldDuplicate]
  split
  case isFalse heven => rw [Nat.mod_two_ne_one.mp heven, Nat.add_zero]
  case isTrue hodd =>
    have hcopy : ∀ c ∈ List.range (widthOf k),
        (elemAddr k (heightOf k) c,
            cmInt (writeAll s (lpldStores s k (heightOf k))) (elemAddr k (heightOf k - 1) c)) =
          (elemAddr k (heightOf k) c, (lpldValue s k (heightOf k) c).toInt) := fun c hc => by
      rw [cmInt, cmWord_lpldStores rfl hd (by omega) (List.mem_range.mp hc), lpldValue, lpldValue, Nat.min_self,
        Nat.min_eq_right (Nat.sub_le _ _)]
    rw [List.map_congr_left hcopy, hodd, lpldStores, lpldStores, rectStores_succ]
    exact congrArg (fun m => { s with cm := m }) (memPut_append s.cm _ _).symm

/-- What the first two checks of `LPLD` refuse (R142): an invalid descriptor, or an odd height without a row allocated for
its copy. -/
abbrev LpldBadDims (k : Desc) : Prop := dimsOk k = false ∨ (heightOf k % 2 = 1 ∧ aheightOf k = heightOf k)

theorem not_lpldBadDims_iff {k : Desc} : ¬LpldBadDims k ↔
    dimsOk k = true ∧ !(decide (heightOf k % 2 = 1) && decide (aheightOf k < heightOf k + 1)) := by
  cases hd : dimsOk k
  · simp [hd]
  · obtain ⟨-, -, -, -, hh⟩ := dimsOk_iff.mp hd
    simp only [LpldBadDims, hd, Bool.true_eq_false, false_or, true_and, ← Bool.decide_and, Bool.not_eq_true',
      decide_eq_false_iff_not]
    omega

theorem lpldChecks_dims {s : State} {rd : DescNum} (h : LpldBadDims (desc s rd)) :
    firstError (lpldChecks s rd) = some .invalidSubbandDimensions := by
  have hfails := mt not_lpldBadDims_iff.mpr (not_not_intro h)
  simp only [lpldChecks, firstError_cons]
  split
  · rw [if_neg fun hrow => hfails ⟨‹_›, hrow⟩]
  · rfl

theorem lpldChecks_range {s : State} {rd : DescNum} (hd : ¬LpldBadDims (desc s rd))
    (h : ¬(footprintEnd (desc s rd) ≤ s.cfg.cmWords) ∨ ¬WindowReady s) :
    firstError (lpldChecks s rd) = some .range := by
  obtain ⟨hdims, hrow⟩ := not_lpldBadDims_iff.mp hd
  rw [← rangeOk_iff, ← windowOk_iff, ← not_and_or] at h
  simp only [lpldChecks, firstError_cons, hdims, hrow, if_true]
  split
  · rw [if_neg fun hwindow => h ⟨‹_›, hwindow⟩]
  · rfl

theorem lpldChecks_end {s : State} {rd : DescNum} (hd : ¬LpldBadDims (desc s rd))
    (hrange : footprintEnd (desc s rd) ≤ s.cfg.cmWords) (hwindow : WindowReady s) :
    firstError (lpldChecks s rd) =
      if lpldEnd s (desc s rd) ≤ s.bslen.toNat then none else some .bitstreamOverread := by
  obtain ⟨hdims, hrow⟩ := not_lpldBadDims_iff.mp hd
  simp only [lpldChecks, firstError_cons, firstError_nil, hdims, hrow, rangeOk_iff.mpr hrange, windowOk_iff.mpr hwindow,
    if_true, decide_eq_true_eq]

/-- The size of a band fits `COUNT` (R23, R38). -/
theorem width_mul_height_lt (k : Desc) : widthOf k * heightOf k < 2 ^ 32 :=
  calc widthOf k * heightOf k < 2 ^ 16 * 2 ^ 16 := Nat.mul_lt_mul'' k.width.isLt k.height.isLt
    _ = 2 ^ 32 := by decide

/-- Settles O39: the checks pass, and what is stored is one rectangle of values of the block. -/
theorem lpldResult : Obligations.LpldResult := by
  intro s rd hband hwindow hodd hend
  have hdims : ¬LpldBadDims (desc s rd) := by
    simp only [LpldBadDims, hband.1, Bool.true_eq_false, false_or]
    omega
  have hchecks : firstError (lpldChecks s rd) = none :=
    (lpldChecks_end hdims (rangeOk_iff.mp hband.2) hwindow).trans (if_pos hend)
  refine ⟨_, checked_pass hchecks, ?_⟩
  rw [lpldDuplicate_lpldLoad s hband.1]
  refine ⟨rfl, Nat.mod_eq_of_lt (hend.trans_lt s.bslen.isLt), Nat.mod_eq_of_lt (width_mul_height_lt _),
    fun r c hr hc => ?_, fun a ha => cmWord_rectStores_frame (s := s) rfl ha⟩
  exact (congrArg BitVec.toNat (cmWord_lpldStores rfl hband.1 hr hc)).trans (bsHalf_toNat s _)

/-- Settles O40: the first check that fails, in the order of R142. -/
theorem lpldTraps : Obligations.LpldTraps := by
  intro s rd
  refine ⟨fun hbad => ?_, fun hok hbad => ?_, fun hok hrange hwindow hlen => ?_⟩
  · exact checked_fail (lpldChecks_dims hbad)
  · exact checked_fail (lpldChecks_range hok hbad)
  · exact checked_fail ((lpldChecks_end hok hrange hwindow).trans (if_neg (Nat.not_le.mpr hlen)))

end Sys2Proof.Machine

namespace Sys2Proof.Machine

/-! ## A complete decode table leaves no pattern unmatched (R37, R147)

Among the patterns of `maxLen` bits, an entry stands for those that begin with its own pattern. By constraint 2 of R37 no
pattern begins with two entries, so by constraint 3 the entries stand for all `2 ^ maxLen` of them. -/

/-- The patterns of `maxLen` bits that begin with the pattern of an entry. -/
def entryPatterns (maxLen : Nat) (e : CodeEntry) : Finset Nat :=
  Finset.Ico (e.bits * 2 ^ (maxLen - e.len)) ((e.bits + 1) * 2 ^ (maxLen - e.len))

theorem mem_entryPatterns {maxLen : Nat} {e : CodeEntry} {x : Nat} :
    x ∈ entryPatterns maxLen e ↔ x / 2 ^ (maxLen - e.len) = e.bits := by
  rw [entryPatterns, Finset.mem_Ico, Nat.div_eq_iff (Nat.two_pow_pos _), Nat.add_mul, Nat.one_mul]
  have := Nat.two_pow_pos (maxLen - e.len)
  omega

theorem card_entryPatterns (maxLen : Nat) (e : CodeEntry) :
    (entryPatterns maxLen e).card = 2 ^ (maxLen - e.len) := by
  rw [entryPatterns, Nat.card_Ico, Nat.add_mul, Nat.one_mul, Nat.add_sub_cancel_left]

section CompleteTable

variable {T : List CodeEntry} {maxLen : Nat}

/-- Of two entries that a pattern begins with, the shorter begins the longer. -/
theorem startsWith_of_mem_entryPatterns {a b : CodeEntry} {x : Nat} (ha : x ∈ entryPatterns maxLen a)
    (hb : x ∈ entryPatterns maxLen b) (hlen : a.len ≤ b.len) (hmax : b.len ≤ maxLen) : startsWith a b = true := by
  rw [mem_entryPatterns] at ha hb
  have hbits : b.bits / 2 ^ (b.len - a.len) = a.bits := by
    rw [← hb, Nat.div_div_eq_div_mul, ← Nat.pow_add, Nat.sub_add_sub_cancel hmax hlen, ha]
  simp [startsWith, hlen, hbits]

/-- No pattern begins with two entries of an admissible table (constraint 2 of R37). -/
theorem eq_of_mem_entryPatterns (h : codebookOk maxLen T = true) {a b : CodeEntry} (ha : a ∈ T) (hb : b ∈ T) {x : Nat}
    (hxa : x ∈ entryPatterns maxLen a) (hxb : x ∈ entryPatterns maxLen b) : a = b := by
  obtain ⟨hentries, hfree⟩ := codebookOk_codewords h
  obtain ⟨-, hamax, -⟩ := hentries a ha
  obtain ⟨-, hbmax, -⟩ := hentries b hb
  obtain hlen | hlen := Nat.le_total a.len b.len
  · exact eq_of_startsWith hfree ha hb (startsWith_of_mem_entryPatterns hxa hxb hlen hbmax)
  · exact (eq_of_startsWith hfree hb ha (startsWith_of_mem_entryPatterns hxb hxa hlen hamax)).symm

/-- No entry of an admissible table stands in it twice. -/
theorem nodup_of_codebookOk (h : codebookOk maxLen T = true) : T.Nodup := by
  obtain ⟨-, hfree⟩ := codebookOk_codewords h
  refine (of_decide_eq_true hfree).imp fun {a b} hab => ?_
  rintro rfl
  simp [startsWith] at hab

/-- The entries of an admissible table stand for `2 ^ maxLen` patterns in all (constraint 3 of R37). -/
theorem sum_of_codebookOk (h : codebookOk maxLen T = true) :
    (T.map fun e => 2 ^ (maxLen - e.len)).sum = 2 ^ maxLen := by
  simp only [codebookOk, Bool.and_eq_true, kraftComplete, beq_iff_eq] at h
  obtain ⟨⟨⟨-, hkraft⟩, -⟩, -⟩ := h
  exact hkraft

/-- Every pattern of `maxLen` bits begins with an entry of an admissible table. -/
theorem exists_entry_of_pattern (h : codebookOk maxLen T = true) {x : Nat} (hx : x < 2 ^ maxLen) :
    ∃ e ∈ T, x / 2 ^ (maxLen - e.len) = e.bits := by
  have hsub : T.toFinset.biUnion (entryPatterns maxLen) ⊆ Finset.range (2 ^ maxLen) := by
    refine Finset.biUnion_subset.mpr fun e he y hy => Finset.mem_range.mpr ?_
    obtain ⟨-, hmax, hbits⟩ := (codebookOk_codewords h).1 e (List.mem_toFinset.mp he)
    rwa [← mem_entryPatterns.mp hy, Nat.div_lt_iff_lt_mul (Nat.two_pow_pos _), ← Nat.pow_add,
      Nat.add_sub_cancel' hmax] at hbits
  have hcard : (T.toFinset.biUnion (entryPatterns maxLen)).card = 2 ^ maxLen := by
    rw [Finset.card_biUnion fun a ha b hb hne => Finset.disjoint_left.mpr fun x hxa hxb =>
        hne (eq_of_mem_entryPatterns h (List.mem_toFinset.mp ha) (List.mem_toFinset.mp hb) hxa hxb),
      Finset.sum_congr rfl fun e _ => card_entryPatterns maxLen e, List.sum_toFinset _ (nodup_of_codebookOk h),
      sum_of_codebookOk h]
  have hall := Finset.eq_of_subset_of_card_le hsub (by rw [hcard, Finset.card_range])
  obtain ⟨e, he, hxe⟩ := Finset.mem_biUnion.mp (hall.symm ▸ Finset.mem_range.mpr hx)
  exact ⟨e, List.mem_toFinset.mp he, mem_entryPatterns.mp hxe⟩

end CompleteTable

/-- When `NextEntry` (R144) finds no codeword, no entry matched the bits read, however many of them are taken. -/
theorem fetchEntry_badCode {T : List CodeEntry} {bit : Nat → Nat} (hbit : ∀ i, bit i < 2) {avail : Nat} :
    ∀ {left b len pat : Nat}, fetchEntry T bit avail left b len pat = .fail .badCode →
      ∃ x, x / 2 ^ left = pat ∧ ∀ i < left, findEntry T (len + i + 1) (x / 2 ^ (left - (i + 1))) = none := by
  intro left
  induction left with
  | zero => exact fun {_ _ pat} _ => ⟨pat, by simp, nofun⟩
  | succ left ih =>
    intro b len pat h
    rw [fetchEntry] at h
    split at h
    · cases h
    · split at h
      · cases h
      · rename_i hnone
        obtain ⟨x, hx, hrest⟩ := ih h
        refine ⟨x, ?_, fun i hi => ?_⟩
        · rw [Nat.pow_succ, ← Nat.div_div_eq_div_mul, hx]
          have := hbit b
          omega
        · cases i with
          | zero => simpa [hx] using hnone
          | succ i =>
            have := hrest i (by omega)
            rwa [Nat.add_sub_add_right, ← Nat.add_assoc len, Nat.add_right_comm len]

theorem bsBit_lt (s : State) (p b : Nat) : bsBit s p b < 2 := Nat.mod_lt _ Nat.two_pos

/-- With admissible parameters `NextEntry` finds a codeword or runs out of bits (R147). -/
theorem vldNext_ne_badCode {s : State} (hwf : s.cfg.wf = true) (b : Nat) : vldNext s b ≠ .fail .badCode := by
  intro h
  have hok := codebookOk_codebook hwf
  obtain ⟨x, hx, hnone⟩ := fetchEntry_badCode (bsBit_lt s _) h
  obtain ⟨e, he, hbits⟩ := exists_entry_of_pattern hok ((Nat.div_eq_zero_iff_lt (Nat.two_pow_pos _)).mp hx)
  obtain ⟨hpos, hmax, -⟩ := (codebookOk_codewords hok).1 e he
  have hmiss := hnone (e.len - 1) (by omega)
  rw [Nat.sub_add_cancel hpos, hbits] at hmiss
  exact findEntry_none.mp hmiss e he ⟨by omega, rfl⟩

@[simp] theorem vldStore_bspos (s : State) (k : Desc) (p : VldParse) : (vldStore s k p).bspos = s.bspos := by
  rw [vldStore_eq]

@[simp] theorem vldStore_err (s : State) (k : Desc) (p : VldParse) : (vldStore s k p).err = s.err := by
  rw [vldStore_eq]

/-! ## Which errors end `VLD` -/

/-- An error of the checks of `VLD` has code 2 or 9 (R140, R231). -/
theorem vldChecks_code {s : State} {rd : DescNum} {e : Err} (h : firstError (vldChecks s rd) = some e) :
    errCode e = 2 ∨ errCode e = 9 := by
  have he := firstError_mem h
  simp only [vldChecks, bandChecks, List.map_append, List.map_cons, List.map_nil, List.mem_append, List.mem_cons,
    List.not_mem_nil, or_false] at he
  obtain (rfl | rfl) | rfl := he
  · exact .inl rfl
  · exact .inr rfl
  · exact .inr rfl

/-- The error that ends a parse: `EscapeNotFound`, `BitstreamOverread`, or a pattern that a codeword fetch does not find
(R146, R147, R151). -/
theorem vldChunk_stop_cases {s : State} {k : Desc} {e : Err} (h : (vldChunk s k).stop = some e) :
    e = .escapeNotFound ∨ e = .bitstreamOverread ∨ (e = .badCode ∧ ∃ b, vldNext s b = .fail .badCode) := by
  obtain hstop | hstop | hstop | ⟨b, f, hfetch, hstop⟩ :=
    vldParse_stop (vldNext s) (capacity s k) (vldAvail s + 1) 0 0
  all_goals cases hstop.symm.trans h
  · exact .inl rfl
  · exact .inr (.inl rfl)
  · obtain ⟨_, _, hentry, -⟩ | hover | hbad :=
      fetchEntry_cases (codebook s) (bsBit s s.bspos.toNat) (vldAvail s) s.cfg.cbMaxLen b 0 0
    · cases hfetch.symm.trans hentry
    · cases hfetch.symm.trans hover
      exact .inr (.inl rfl)
    · cases hfetch.symm.trans hbad
      exact .inr (.inr ⟨rfl, b, hfetch⟩)

/-- Settles O45: a complete table leaves no bit pattern unmatched, and no other way leads to `ERR_BADCODE`. -/
theorem completeTableNeverBadcode : Obligations.CompleteTableNeverBadcode := by
  intro s t rd hwf herr hexec hterr
  obtain ⟨e, hc, rfl⟩ | ⟨-, ⟨e, hstop, rfl⟩ | ⟨-, -, rfl⟩ | ⟨-, -, rfl⟩⟩ := execVld_cases hexec
  · obtain hcode | hcode := vldChecks_code hc <;> simp [hcode]
  · obtain rfl | rfl | ⟨-, b, hb⟩ := vldChunk_stop_cases hstop
    · simp [errCode]
    · simp [errCode]
    · exact absurd hb (vldNext_ne_badCode hwf b)
  · simp [errCode]
  · cases hterr.symm.trans ((vldStore_err _ _ _).trans herr)

/-! ## Where a chunk stops -/

/-- The codewords of some pairs and then an entry: the codewords of the pairs, and the entry's behind them. -/
theorem chunkBegins_append_singleton {s : State} {pairs : List CodeEntry} {e : CodeEntry} :
    ChunkBegins s (pairs ++ [e]) ↔ ChunkBegins s pairs ∧ e ∈ codebook s ∧
      BitsAt (bsBit s s.bspos.toNat) (codewordBits pairs).length (patternBits e.len e.bits) := by
  have happend := bitsAt_append (bit := bsBit s s.bspos.toNat) (b := 0) (l := codewordBits pairs)
    (k := patternBits e.len e.bits)
  simp only [BitsAt, Nat.zero_add] at happend
  simp only [ChunkBegins, List.forall_mem_append, List.forall_mem_singleton, codewordBits_append, codewordBits_cons,
    codewordBits_nil, List.append_nil, BitsAt, happend]
  tauto

theorem codewordBits_append_singleton_length (pairs : List CodeEntry) (e : CodeEntry) :
    (codewordBits (pairs ++ [e])).length = (codewordBits pairs).length + e.len := by simp

/-- The parse of a chunk that begins with pairs that fit the capacity: these pairs, and what follows behind them. -/
theorem vldChunk_after_pairs {s : State} {k : Desc} {pairs : List CodeEntry} (hwf : s.cfg.wf = true)
    (hbegins : ChunkBegins s pairs) (hesc : ∀ e ∈ pairs, e.esc = false) (hcap : runSum pairs ≤ capacity s k)
    (havail : (codewordBits pairs).length ≤ vldAvail s) :
    ∃ fuel, vldChunk s k =
      let p := vldParse (vldNext s) (capacity s k) (fuel + 1) (codewordBits pairs).length (runSum pairs)
      { p with pairs := pairs ++ p.pairs } := by
  obtain ⟨hmem, hbits⟩ := hbegins
  have hcount := length_le_codewordBits_length hwf hmem
  refine ⟨vldAvail s - pairs.length, ?_⟩
  have hparse := vldParse_pairs hwf (cap := capacity s k) (vldAvail s - pairs.length + 1) (b := 0) (n := 0) hmem hesc
    (by simpa [BitsAt] using hbits) (by simpa using havail) (by simpa using hcap)
  rwa [← Nat.add_assoc, Nat.add_sub_cancel' (hcount.trans havail), Nat.zero_add, Nat.zero_add] at hparse

/-- When a codeword fetch fails behind pairs that fit the capacity, these pairs are all that is taken (R151). -/
theorem vldChunk_fail {s : State} {k : Desc} {pairs : List CodeEntry} {e : Err} (hwf : s.cfg.wf = true)
    (hbegins : ChunkBegins s pairs) (hesc : ∀ e ∈ pairs, e.esc = false) (hcap : runSum pairs ≤ capacity s k)
    (havail : (codewordBits pairs).length ≤ vldAvail s) (hnext : vldNext s (codewordBits pairs).length = .fail e) :
    vldChunk s k = { pairs := pairs, bits := (codewordBits pairs).length, stop := some e } := by
  obtain ⟨fuel, hchunk⟩ := vldChunk_after_pairs hwf hbegins hesc hcap havail
  simp [hchunk, vldParse, hnext]

/-- When the next pair would exceed the capacity, the pairs before it are all that is taken (R146). -/
theorem vldChunk_exceeds {s : State} {k : Desc} {pairs : List CodeEntry} {e : CodeEntry} (hwf : s.cfg.wf = true)
    (hbegins : ChunkBegins s (pairs ++ [e])) (hesc : ∀ f ∈ pairs, f.esc = false) (hne : e.esc = false)
    (hcap : runSum pairs ≤ capacity s k) (hover : capacity s k < runSum pairs + e.run)
    (havail : (codewordBits (pairs ++ [e])).length ≤ vldAvail s) :
    vldChunk s k =
      { pairs := pairs, bits := (codewordBits (pairs ++ [e])).length, stop := some .escapeNotFound } := by
  obtain ⟨hpairs, he, hlast⟩ := chunkBegins_append_singleton.mp hbegins
  rw [codewordBits_append_singleton_length] at havail ⊢
  obtain ⟨fuel, hchunk⟩ := vldChunk_after_pairs hwf hpairs hesc hcap (by omega)
  simp [hchunk, vldParse, vldNext_entry hwf he hlast havail, hne, hover]

/-- With admissible parameters, a codeword fetch that no entry answers inside the window is an overread (R147, R151). -/
theorem vldNext_overread {s : State} {pairs : List CodeEntry} (hwf : s.cfg.wf = true) (hbegins : ChunkBegins s pairs)
    (hnone : ∀ e ∈ codebook s, ChunkBegins s (pairs ++ [e]) → vldAvail s < (codewordBits (pairs ++ [e])).length) :
    vldNext s (codewordBits pairs).length = .fail .bitstreamOverread := by
  obtain ⟨e, b', hentry, -⟩ | hover | hbad := fetchEntry_cases (codebook s) (bsBit s s.bspos.toNat) (vldAvail s)
    s.cfg.cbMaxLen (codewordBits pairs).length 0 0
  · obtain ⟨he, hb', -, havail, hbits⟩ := fetchEntry_codeword (bsBit_lt s _) hentry
    have hlast : BitsAt (bsBit s s.bspos.toNat) (codewordBits pairs).length (patternBits e.len e.bits) := fun i hi => by
      rw [patternBits_length] at hi
      simp [hbits, hi]
    have := hnone e he (chunkBegins_append_singleton.mpr ⟨hbegins, he, hlast⟩)
    rw [codewordBits_append_singleton_length] at this
    omega
  · exact hover
  · exact absurd hbad (vldNext_ne_badCode hwf _)

/-! ## What `VLD` leaves when its chunk is in error (R235) -/

/-- With its checks passed, an error that ends the parse is the one `VLD` ends in, behind the stores (R146). -/
theorem execVld_stop {s : State} {rd : DescNum} {e : Err} (hc : firstError (vldChecks s rd) = none)
    (hstop : (vldChunk s (desc s rd)).stop = some e) :
    execVld rd s = .next (raiseError e (encode (.vld rd)) (vldStore s (desc s rd) (vldChunk s (desc s rd)))) := by
  simp [execVld, hc, hstop, endWithError]

/-- With its checks passed and the chunk parsed to its escape, a padded end beyond the window is an overread (R146). -/
theorem execVld_padding {s : State} {rd : DescNum} (hc : firstError (vldChecks s rd) = none)
    (hstop : (vldChunk s (desc s rd)).stop = none)
    (hend : s.bslen.toNat < vldEnd s (vldChunk s (desc s rd)).bits) :
    execVld rd s = .next (raiseError .bitstreamOverread (encode (.vld rd))
      (vldStore s (desc s rd) (vldChunk s (desc s rd)))) := by
  simp [execVld, hc, hstop, hend, endWithError]

/-- The pairs of a chunk fit the capacity (R145, R146). -/
theorem vldChunk_runSum_le (s : State) (k : Desc) : runSum (vldChunk s k).pairs ≤ capacity s k := by
  have := (vldParse_fits (vldNext s) (capacity s k) (vldAvail s + 1) 0 0 (Nat.zero_le _)).1
  rwa [Nat.zero_add] at this

/-- The words of the band's first positions hold the values of the chunk's pairs, and `COUNT` is their number (R146). -/
theorem vldStore_storedFrom (s : State) (k : Desc) :
    StoredFrom s (vldStore s k (vldChunk s k)) k (pairValues s.quant.toNat (vldChunk s k).pairs) := by
  have hlen : (pairValues s.quant.toNat (vldChunk s k).pairs).length < 2 ^ 32 :=
    (vldValues_length _ _).trans_lt ((vldChunk_runSum_le s k).trans_lt (capacity_lt s k))
  rw [vldStore_eq_pairValues]
  exact storedFrom_of_linearStores rfl rfl hlen

/-- What an error behind the stores leaves: the pairs stored and counted, the error, and nothing else (R235, R236). -/
theorem vld_error_leaves {s : State} {rd : DescNum} {e : Err} {pairs : List CodeEntry}
    (hexec : execVld rd s =
      .next (raiseError e (encode (.vld rd)) (vldStore s (desc s rd) (vldChunk s (desc s rd)))))
    (hpairs : (vldChunk s (desc s rd)).pairs = pairs) :
    ∃ t, exec (.vld rd) s = .next t ∧
      t = { s with cm := t.cm, ovf := s.ovf || (pairValues s.quant.toNat pairs).any (fun v => !fits16 v),
                   count := t.count, err := true, errcode := errCode e, errinfo := encode (.vld rd),
                   running := none } ∧
      StoredFrom s t (desc s rd) (pairValues s.quant.toNat pairs) := by
  have hstored := vldStore_storedFrom s (desc s rd)
  subst hpairs
  refine ⟨_, hexec, ?_, hstored⟩
  rw [vldStore_eq_pairValues]
  rfl

/-- Settles O42: the parse takes the pairs before the one that would exceed the capacity. -/
theorem vldRefusesToExceedCapacity : Obligations.VldRefusesToExceedCapacity := by
  intro s rd pairs e hwf hband hwindow hbegins hesc hne hcap hover havail
  rw [← capacity_eq_capacityRule] at hcap hover
  have hchunk := vldChunk_exceeds hwf hbegins hesc hne hcap hover havail
  have hexec := execVld_stop (vldChecks_pass.mpr ⟨hband, hwindow⟩) (congrArg VldParse.stop hchunk)
  obtain ⟨t, ht, hframe, hstored⟩ := vld_error_leaves hexec (congrArg VldParse.pairs hchunk)
  exact ⟨t, _, rfl, ht, hframe, hstored⟩

theorem vldChecks_dims {s : State} {rd : DescNum} (hd : dimsOk (desc s rd) = false) :
    firstError (vldChecks s rd) = some .invalidSubbandDimensions := by
  rw [vldChecks, firstError_append, bandChecks_dims hd]
  rfl

theorem vldChecks_range {s : State} {rd : DescNum} (hd : dimsOk (desc s rd) = true)
    (h : ¬(footprintEnd (desc s rd) ≤ s.cfg.cmWords) ∨ ¬WindowReady s) : firstError (vldChecks s rd) = some .range := by
  rw [vldChecks, firstError_append]
  by_cases hr : footprintEnd (desc s rd) ≤ s.cfg.cmWords
  · rw [bandChecks_pass.mpr ⟨hd, rangeOk_iff.mpr hr⟩]
    have hw : windowOk s = false := Bool.eq_false_iff.mpr (mt windowOk_iff.mp (h.resolve_left (not_not_intro hr)))
    simp [firstError_cons, hw]
  · rw [bandChecks_range hd (Nat.lt_of_not_le hr)]
    rfl

/-- A check that fails is the error of `VLD`, from the state at acceptance (R233, R235). -/
theorem execVld_check {s : State} {rd : DescNum} {e : Err} (h : firstError (vldChecks s rd) = some e) :
    execVld rd s = .next (raiseError e (encode (.vld rd)) s) := by
  simp [execVld, h, endWithError]

/-- Settles O43: the first check that fails; with none, a codeword that the window cuts off, or its padding. -/
theorem vldTraps : Obligations.VldTraps := by
  intro s rd
  refine ⟨fun hd => execVld_check (vldChecks_dims hd), fun hd h => execVld_check (vldChecks_range hd h), ?_⟩
  intro pairs hwf hband hwindow hesc hbegins havail hcap hover
  rw [← capacity_eq_capacityRule] at hcap
  have hc := vldChecks_pass.mpr ⟨hband, hwindow⟩
  obtain hnone | ⟨stop, hstop, hbegins, havail, hend⟩ := hover
  · have hchunk := vldChunk_fail hwf hbegins hesc hcap havail (vldNext_overread hwf hbegins hnone)
    exact vld_error_leaves (execVld_stop hc (congrArg VldParse.stop hchunk)) (congrArg VldParse.pairs hchunk)
  · have hchunk := vldChunk_pairs hwf hbegins hesc hstop hcap havail
    have hexec := execVld_padding hc (congrArg VldParse.stop hchunk) (by rwa [hchunk])
    exact vld_error_leaves hexec (congrArg VldParse.pairs hchunk)

/-! ## A chunk cut short (R151) -/

/-- With fewer bits available a codeword fetch answers the same entry, or it is an overread. -/
theorem fetchEntry_shorter {T : List CodeEntry} {bit : Nat → Nat} {avail avail' : Nat} (hle : avail' ≤ avail)
    {e : CodeEntry} {b' : Nat} : ∀ {left b len pat : Nat}, fetchEntry T bit avail left b len pat = .entry e b' →
      fetchEntry T bit avail' left b len pat = .entry e b' ∨
        fetchEntry T bit avail' left b len pat = .fail .bitstreamOverread := by
  intro left
  induction left with
  | zero => exact fun h => .inl h
  | succ left ih =>
    intro b len pat h
    by_cases hb : avail' ≤ b
    · exact .inr (by rw [fetchEntry, if_pos hb])
    · rw [fetchEntry, if_neg (by omega)] at h
      rw [fetchEntry, if_neg hb]
      split at h
      · exact .inl h
      · exact ih h

/-- So a parse to the escape is the same parse with fewer bits available, or it ends in an overread. -/
theorem vldParse_shorter {next next' : Nat → Fetch} {cap : Nat}
    (hnext : ∀ {b e b'}, next b = .entry e b' → next' b = .entry e b' ∨ next' b = .fail .bitstreamOverread) :
    ∀ {fuel fuel' b n : Nat}, (vldParse next cap fuel b n).stop = none →
      vldParse next' cap fuel' b n = vldParse next cap fuel b n ∨
        (vldParse next' cap fuel' b n).stop = some .bitstreamOverread := by
  intro fuel
  induction fuel with
  | zero => exact fun h => nomatch h
  | succ fuel ih =>
    intro fuel' b n h
    cases fuel' with
    | zero => exact .inr rfl
    | succ fuel' =>
      cases hentry : next b with
      | fail e => simp [vldParse, hentry] at h
      | entry e b' =>
        obtain hsame | hover := hnext hentry
        · simp only [vldParse, hsame, hentry] at h ⊢
          by_cases hesc : e.esc = true
          · exact .inl (by rw [if_pos hesc, if_pos hesc])
          · by_cases hcap : cap < n + e.run
            · exact .inl (by rw [if_neg hesc, if_pos hcap, if_neg hesc, if_pos hcap])
            · simp only [if_neg hesc, if_neg hcap] at h ⊢
              exact (ih h).imp_left fun hparse => by rw [hparse]
        · exact .inr (by rw [vldParse, hover])

/-- A chunk that parses to its escape parses the same in a smaller window, or it is overread there. -/
theorem vldChunk_shorter {s : State} {k : Desc} {cut : Word} (hle : cut.toNat ≤ s.bslen.toNat)
    (hstop : (vldChunk s k).stop = none) :
    vldChunk { s with bslen := cut } k = vldChunk s k ∨
      (vldChunk { s with bslen := cut } k).stop = some .bitstreamOverread :=
  vldParse_shorter (fetchEntry_shorter (Nat.mul_le_mul_left 8 (Nat.sub_le_sub_right hle s.bspos.toNat))) hstop

/-- A `VLD` without an error has passed its checks, parsed its chunk to the escape and found the padded end in the window
(R146). -/
theorem execVld_success {s t : State} {rd : DescNum} (h : execVld rd s = .next t) (herr : t.err = false) :
    firstError (vldChecks s rd) = none ∧ (vldChunk s (desc s rd)).stop = none ∧
      vldEnd s (vldChunk s (desc s rd)).bits ≤ s.bslen.toNat ∧
      t.bspos.toNat = vldEnd s (vldChunk s (desc s rd)).bits := by
  obtain ⟨e, -, rfl⟩ | ⟨hc, ⟨e, -, rfl⟩ | ⟨-, -, rfl⟩ | ⟨hstop, hend, rfl⟩⟩ := execVld_cases h
  · cases herr
  · cases herr
  · cases herr
  · exact ⟨hc, hstop, hend, Nat.mod_eq_of_lt (hend.trans_lt s.bslen.isLt)⟩

/-- Settles O44: the cut chunk is parsed as before, and then its padded end lies beyond the cut, or it is overread. -/
theorem vldTruncatedChunkOverreads : Obligations.VldTruncatedChunkOverreads := by
  intro s t rd cut hexec hterr hpos hcut
  obtain ⟨hc, hstop, hend, hbspos⟩ := execVld_success hexec hterr
  obtain ⟨hband, hbytes, -⟩ := vldChecks_pass.mp hc
  have hle : cut.toNat ≤ s.bslen.toNat := by omega
  have hc' : firstError (vldChecks { s with bslen := cut } rd) = none :=
    vldChecks_pass.mpr ⟨hband, hle.trans hbytes, hpos⟩
  have hoverread : execVld rd { s with bslen := cut } = .next (raiseError .bitstreamOverread (encode (.vld rd))
      (vldStore { s with bslen := cut } (desc s rd) (vldChunk { s with bslen := cut } (desc s rd)))) := by
    obtain hsame | hover := vldChunk_shorter hle hstop
    · refine execVld_padding hc' ((congrArg VldParse.stop hsame).trans hstop) ?_
      exact (hcut.trans_eq hbspos).trans_eq (congrArg (fun p => vldEnd s p.bits) hsame.symm)
    · exact execVld_stop hc' hover
  exact ⟨_, hoverread, rfl, rfl, rfl, vldStore_bspos _ _ _⟩

/-- What `VLD` stores behind its checks: the first `COUNT` positions of the band, no more than its capacity (R145, R146). -/
theorem vldStore_stays (s : State) (k : Desc) :
    (vldStore s k (vldChunk s k)).count.toNat ≤ capacity s k ∧
      ∀ a, (∀ n < (vldStore s k (vldChunk s k)).count.toNat, a ≠ k.base.toNat + n) →
        cmWord (vldStore s k (vldChunk s k)) a = cmWord s a := by
  obtain ⟨hcount, -, hframe⟩ := vldStore_storedFrom s k
  rw [hcount]
  exact ⟨(vldValues_length _ _).trans_le (vldChunk_runSum_le s k), hframe⟩

/-- Settles O46: a check that fails leaves all as it was; a chunk's values fit the capacity, which lies in `CM`. -/
theorem vldStaysInBand : Obligations.VldStaysInBand := by
  intro s t rd herr hexec
  obtain ⟨e, hc, rfl⟩ | ⟨hc, hend⟩ := execVld_cases hexec
  · refine .inl ⟨rfl, rfl, rfl, rfl, rfl, vldChecks_code hc, fun hready => ?_⟩
    cases hc.symm.trans (vldChecks_pass.mpr hready)
  · obtain ⟨hband, hwindow⟩ := vldChecks_pass.mp hc
    obtain ⟨hcount, hframe⟩ := vldStore_stays s (desc s rd)
    have hwithin := capacity_within hband
    rw [capacity_eq_capacityRule] at hcount hwithin
    refine .inr ⟨hband, hwindow, ?_⟩
    obtain ⟨e, hstop, rfl⟩ | ⟨-, -, rfl⟩ | ⟨-, hle, rfl⟩ := hend
    · refine ⟨hcount, hwithin, hframe, fun _ => ⟨vldStore_bspos _ _ _, ?_⟩, nofun⟩
      obtain rfl | rfl | ⟨rfl, -⟩ := vldChunk_stop_cases hstop
      · exact .inl rfl
      · exact .inr (.inl rfl)
      · exact .inr (.inr rfl)
    · exact ⟨hcount, hwithin, hframe, fun _ => ⟨vldStore_bspos _ _ _, .inr (.inl rfl)⟩, nofun⟩
    · refine ⟨hcount, hwithin, hframe, fun hterr => ?_, fun _ => ?_⟩
      · cases hterr.symm.trans ((vldStore_err _ _ _).trans herr)
      · obtain ⟨hmod, hge, -⟩ := align4_spec (s.bspos.toNat + ceil8 (vldChunk s (desc s rd)).bits)
        have hnew : (BitVec.ofNat 32 (vldEnd s (vldChunk s (desc s rd)).bits)).toNat =
            vldEnd s (vldChunk s (desc s rd)).bits := Nat.mod_eq_of_lt (hle.trans_lt s.bslen.isLt)
        rw [complete_bspos, hnew]
        exact ⟨hmod, (Nat.le_add_right _ _).trans hge, hle⟩

end Sys2Proof.Machine

namespace Sys2Proof.Machine

/-! ## The synthesis kernel (R161 to R163)

An element of a line of three or more is the first, the last or between the two. The second predictor is the first one on
the line read backwards, so what holds of the first on every line holds of the second. -/

/-- A line of `n` elements read backwards. -/
abbrev reverseLine (n : Nat) (L : Nat → Int) : Nat → Int := fun j => L (n - 1 - j)

section Predictors

variable {n i : Nat} (hn : 3 ≤ n) (L : Nat → Int)

theorem predict_first : predict n L 0 = (11 * L 0 - 4 * L 1 + L 2 + 4) / 8 := rfl

theorem predictMirror_first : predictMirror n L 0 = (5 * L 0 + 4 * L 1 - L 2 + 4) / 8 := rfl

theorem predict_inner (h0 : 0 < i) (h1 : i + 1 < n) : predict n L i = L i + (L (i - 1) - L (i + 1) + 4) / 8 := by
  rw [predict, if_neg (by omega), if_neg (by omega)]
  rfl

theorem predictMirror_inner (h0 : 0 < i) (h1 : i + 1 < n) :
    predictMirror n L i = L i + (L (i + 1) - L (i - 1) + 4) / 8 := by
  rw [predictMirror, if_neg (by omega), if_neg (by omega)]
  rfl

include hn

theorem predict_last : predict n L (n - 1) = (5 * L (n - 1) + 4 * L (n - 2) - L (n - 3) + 4) / 8 := by
  rw [predict, if_neg (by omega), if_pos rfl]
  rfl

theorem predictMirror_last :
    predictMirror n L (n - 1) = (11 * L (n - 1) - 4 * L (n - 2) + L (n - 3) + 4) / 8 := by
  rw [predictMirror, if_neg (by omega), if_pos rfl]
  rfl

/-- The three places of an element in its line, as R161 splits them. -/
theorem first_or_last_or_inner (hi : i < n) : i = 0 ∨ i = n - 1 ∨ 0 < i ∧ i + 1 < n := by omega

/-- The mirror law of the predictors (R161). -/
theorem predictMirror_eq_predict (hi : i < n) : predictMirror n L i = predict n (reverseLine n L) (n - 1 - i) := by
  obtain rfl | rfl | ⟨h0, h1⟩ := first_or_last_or_inner hn hi
  · rw [predictMirror_first, Nat.sub_zero, predict_last hn]
    simp only [reverseLine, Nat.sub_self, show n - 1 - (n - 2) = 1 by omega, show n - 1 - (n - 3) = 2 by omega]
  · rw [predictMirror_last hn, Nat.sub_self, predict_first]
    rfl
  · rw [predictMirror_inner L h0 h1, predict_inner _ (by omega) (by omega)]
    simp only [reverseLine, show n - 1 - (n - 1 - i) = i by omega, show n - 1 - (n - 1 - i - 1) = i + 1 by omega,
      show n - 1 - (n - 1 - i + 1) = i - 1 by omega]

/-- The predictors sum to twice the element, or one more (R163 (a)): their numerators sum to 8 more than 16 times it. -/
theorem predict_add_predictMirror (hi : i < n) :
    predict n L i + predictMirror n L i - 2 * L i = 0 ∨ predict n L i + predictMirror n L i - 2 * L i = 1 := by
  obtain rfl | rfl | ⟨h0, h1⟩ := first_or_last_or_inner hn hi
  · rw [predict_first, predictMirror_first]
    omega
  · rw [predict_last hn, predictMirror_last hn]
    omega
  · rw [predict_inner L h0 h1, predictMirror_inner L h0 h1]
    omega

variable {L}

/-- A predictor reads only the elements of the line. -/
theorem predict_congr {K : Nat → Int} (h : ∀ k < n, L k = K k) (hi : i < n) : predict n L i = predict n K i := by
  obtain rfl | rfl | ⟨h0, h1⟩ := first_or_last_or_inner hn hi
  · rw [predict_first, predict_first, h 0 (by omega), h 1 (by omega), h 2 (by omega)]
  · rw [predict_last hn, predict_last hn, h (n - 1) (by omega), h (n - 2) (by omega), h (n - 3) (by omega)]
  · rw [predict_inner L h0 h1, predict_inner K h0 h1, h i hi, h (i - 1) (by omega), h (i + 1) h1]

/-- The mirror law, read the other way: reading backwards twice gives the line. -/
theorem predictMirror_reverseLine (hi : i < n) :
    predictMirror n (reverseLine n L) i = predict n L (n - 1 - i) := by
  rw [predictMirror_eq_predict hn _ hi]
  refine predict_congr hn (fun k hk => ?_) (by omega)
  rw [reverseLine, reverseLine, show n - 1 - (n - 1 - k) = k by omega]

/-- On a constant line a predictor gives the constant (R163 (b)). -/
theorem predict_const {c : Int} (h : ∀ k < n, L k = c) (hi : i < n) : predict n L i = c := by
  obtain rfl | rfl | ⟨h0, h1⟩ := first_or_last_or_inner hn hi
  · rw [predict_first, h 0 (by omega), h 1 (by omega), h 2 (by omega)]
    omega
  · rw [predict_last hn, h (n - 1) (by omega), h (n - 2) (by omega), h (n - 3) (by omega)]
    omega
  · rw [predict_inner L h0 h1, h i hi, h (i - 1) (by omega), h (i + 1) h1]
    omega

theorem predictMirror_const {c : Int} (h : ∀ k < n, L k = c) (hi : i < n) : predictMirror n L i = c := by
  rw [predictMirror_eq_predict hn L hi]
  exact predict_const hn (fun k hk => h _ (by omega)) (by omega)

/-- A predictor at most doubles the bound on the line (R163 (d)). -/
theorem abs_predict_le {M : Nat} (h : ∀ k < n, |L k| ≤ M) (hi : i < n) : |predict n L i| ≤ 2 * M := by
  have hb (k : Nat) (hk : k < n) := abs_le.mp (h k hk)
  rw [abs_le]
  obtain rfl | rfl | ⟨h0, h1⟩ := first_or_last_or_inner hn hi
  · have b0 := hb 0 (by omega)
    have b1 := hb 1 (by omega)
    have b2 := hb 2 (by omega)
    rw [predict_first]
    omega
  · have b1 := hb (n - 1) (by omega)
    have b2 := hb (n - 2) (by omega)
    have b3 := hb (n - 3) (by omega)
    rw [predict_last hn]
    omega
  · have b0 := hb i hi
    have b1 := hb (i - 1) (by omega)
    have b2 := hb (i + 1) h1
    rw [predict_inner L h0 h1]
    omega

theorem abs_predictMirror_le {M : Nat} (h : ∀ k < n, |L k| ≤ M) (hi : i < n) : |predictMirror n L i| ≤ 2 * M := by
  rw [predictMirror_eq_predict hn L hi]
  exact abs_predict_le hn (fun k hk => h _ (by omega)) (by omega)

end Predictors

/-- Settles O47: both laws hold at each place of an element in its line. -/
theorem predictorsMirrorAndSum : Obligations.PredictorsMirrorAndSum := fun _ L _ hn hi =>
  ⟨predictMirror_eq_predict hn L hi, predict_add_predictMirror hn L hi⟩

section Synthesis

variable (n : Nat) (L H : Nat → Int) (i : Nat)

/-- The even outputs (R162). -/
theorem syn_even : syn n L H (2 * i) = (predict n L i + H i) / 2 := by
  rw [syn, if_pos (by omega), show 2 * i / 2 = i by omega]
  rfl

/-- The odd outputs (R162). -/
theorem syn_odd : syn n L H (2 * i + 1) = (predictMirror n L i - H i) / 2 := by
  rw [syn, if_neg (by omega), show (2 * i + 1) / 2 = i by omega]
  rfl

variable {n L H} (hn : 3 ≤ n)
include hn

/-- A constant low line with a zero high line (R163 (b)). -/
theorem syn_const {c : Int} (hL : ∀ i < n, L i = c) (hH : ∀ i < n, H i = 0) {j : Nat} (hj : j < 2 * n) :
    syn n L H j = asr c 1 := by
  obtain ⟨i, rfl | rfl⟩ := Nat.even_or_odd' j
  · rw [syn_even, predict_const hn hL (by omega), hH i (by omega), Int.add_zero]
    rfl
  · rw [syn_odd, predictMirror_const hn hL (by omega), hH i (by omega), Int.sub_zero]
    rfl

/-- The bound on the outputs (R163 (d)): a predictor brings `2M`, the high line `M`, and half of their sum is taken. -/
theorem abs_syn_le {M : Nat} (h : ∀ i < n, |L i| ≤ M ∧ |H i| ≤ M) {j : Nat} (hj : j < 2 * n) :
    |syn n L H j| ≤ (3 * M + 1) / 2 := by
  have hL (k : Nat) (hk : k < n) := (h k hk).1
  obtain ⟨i, rfl | rfl⟩ := Nat.even_or_odd' j
  · have hp := abs_le.mp (abs_predict_le hn hL (i := i) (by omega))
    have hh := abs_le.mp (h i (by omega)).2
    rw [syn_even, abs_le]
    omega
  · have hp := abs_le.mp (abs_predictMirror_le hn hL (i := i) (by omega))
    have hh := abs_le.mp (h i (by omega)).2
    rw [syn_odd, abs_le]
    omega

/-- The mirror law (R163 (f)): an even output stands opposite an odd one. -/
theorem syn_reverseLine {j : Nat} (hj : j < 2 * n) :
    syn n (reverseLine n L) (fun i => -reverseLine n H i) j = syn n L H (2 * n - 1 - j) := by
  obtain ⟨i, rfl | rfl⟩ := Nat.even_or_odd' j
  · rw [show 2 * n - 1 - 2 * i = 2 * (n - 1 - i) + 1 by omega, syn_even, syn_odd,
      predictMirror_eq_predict hn L (by omega), show n - 1 - (n - 1 - i) = i by omega, Int.sub_eq_add_neg]
  · rw [show 2 * n - 1 - (2 * i + 1) = 2 * (n - 1 - i) by omega, syn_even, syn_odd,
      predictMirror_reverseLine hn (by omega), Int.sub_neg]

end Synthesis

/-- Settles O48: `21844` is the largest bound whose `3/2`, rounded up, is a 16-bit magnitude. -/
theorem synthesisKernelFacts : Obligations.SynthesisKernelFacts := by
  refine fun n L H hn => ⟨fun c hL hH j hj => syn_const hn hL hH hj, fun M hM j hj => ?_, fun j => syn_reverseLine hn⟩
  have hbound := abs_syn_le hn hM hj
  refine ⟨by omega, fun hM => fits16_iff.mpr ?_⟩
  have := abs_le.mp hbound
  omega

/-! ## The synthesis commands and `SHL2` (R164 to R168, R172) -/

/-- All that a command does whose effect is `Store16` of a rectangle (R11, R197). -/
theorem exec_storeAll_rectStores {i : Instr} {s : State} {k : Desc} {w h : Nat} {f : Nat → Nat → Int}
    (hexec : exec i s = .next (complete (storeAll s (rectStores k w h f)))) (hw : w ≤ strideOf k) :
    ∃ t, exec i s = .next t ∧ t = { s with cm := t.cm, ovf := t.ovf, running := none, done := true } ∧
      (∀ r c, r < h → c < w → cmWord t (elemAddr k r c) = wrap16 (f r c)) ∧
      (t.ovf = true ↔ s.ovf = true ∨ ∃ r c, r < h ∧ c < w ∧ fits16 (f r c) = false) ∧
      ∀ a, ¬InRect k w h a → cmWord t a = cmWord s a := by
  have hcm : (complete (storeAll s (rectStores k w h f))).cm = memPut s.cm (rectStores k w h f) := storeAll_cm _ _
  refine ⟨_, hexec, by simp only [complete, storeAll_eq], fun r c hr hc => cmWord_rectStores_elem hcm hw hr hc, ?_,
    fun a ha => cmWord_rectStores_frame hcm ha⟩
  rw [complete_ovf, storeAll_ovf, Bool.or_eq_true, List.any_eq_true]
  refine or_congr_right ⟨?_, ?_⟩
  · rintro ⟨p, hp, hfit⟩
    obtain ⟨r, c, hr, hc, rfl⟩ := mem_rectStores.mp hp
    exact ⟨r, c, hr, hc, (Bool.not_eq_true' _).mp hfit⟩
  · rintro ⟨r, c, hr, hc, hfit⟩
    exact ⟨_, mem_rectStores.mpr ⟨r, c, hr, hc, rfl⟩, (Bool.not_eq_true' _).mpr hfit⟩

/-- A product by 4 is a 16-bit value exactly for the values from -8192 to 8191 (R168). -/
theorem fits16_four_mul_eq_false {x : Int} : fits16 (4 * x) = false ↔ x < -8192 ∨ 8191 < x := by
  rw [← Bool.not_eq_true, fits16_iff]
  omega

/-- Settles O35: the checks pass, and the extent is one rectangle of stores. -/
theorem shlResult : Obligations.ShlResult := by
  intro s rd hband
  obtain ⟨-, hwa, has, -, -⟩ := dimsOk_iff.mp hband.1
  simp only [← fits16_four_mul_eq_false]
  exact exec_storeAll_rectStores (checked_pass (bandChecks_pass.mpr hband)) (hwa.trans has)

/-- A rectangle that the checks of R172 admit is no wider than the destination's pitch. -/
theorem SynShape.le_stride {s : State} {rd ra rb : DescNum} {len outW outH size : Nat}
    (h : SynShape s rd ra rb len outW outH size) : outW ≤ strideOf (desc s rd) := by
  obtain ⟨hd, -, -, -, -, -, hw, -⟩ := h
  obtain ⟨-, -, has, -, -⟩ := dimsOk_iff.mp hd
  exact hw.trans has

/-- Settles O51: the checks pass, and the destination is one rectangle of stores. -/
theorem vsynResult : Obligations.VsynResult := by
  intro s rd ra rb w n out hshape hra hrb
  exact exec_storeAll_rectStores (checked_pass (synChecks_pass.mpr ⟨hshape, fun _ => ⟨hra, hrb⟩⟩))
    (SynShape.le_stride hshape)

/-- Settles O52: as `VSYN`, with lines along the rows. -/
theorem hsynResult : Obligations.HsynResult := by
  intro s rd ra rb w m out hshape hra hrb
  exact exec_storeAll_rectStores (checked_pass (synChecks_pass.mpr ⟨hshape, fun _ => ⟨hra, hrb⟩⟩))
    (SynShape.le_stride hshape)

/-- A value of 16 bits, unsigned, is what its pattern reads as. -/
theorem wrap16_toNat {x : Int} (h0 : 0 ≤ x) (h1 : x < 65536) : ((wrap16 x).toNat : Int) = x := by
  rw [wrap16, BitVec.toNat_ofInt]
  omega

/-- The check of the bit depth (R167). -/
abbrev DepthLegal (s : State) : Prop := s.bpc = 10 ∨ s.bpc = 12

theorem depthLegal_iff {s : State} :
    (decide (s.bpc.toNat = 10) || decide (s.bpc.toNat = 12)) = true ↔ DepthLegal s := by
  simp [DepthLegal, ← BitVec.toNat_inj]

/-- A legal bit depth leaves the other checks of `HSYNC` to decide (R167). -/
theorem firstError_depth_pass {s : State} (h : DepthLegal s) (cs : List (Bool × Err)) :
    firstError ((decide (s.bpc.toNat = 10) || decide (s.bpc.toNat = 12), .unsupportedFeature) :: cs) = firstError cs :=
  if_pos (depthLegal_iff.mpr h)

theorem firstError_depth_fail {s : State} (h : ¬DepthLegal s) (cs : List (Bool × Err)) :
    firstError ((decide (s.bpc.toNat = 10) || decide (s.bpc.toNat = 12), .unsupportedFeature) :: cs) =
      some .unsupportedFeature :=
  if_neg (mt depthLegal_iff.mp h)

/-- At a legal bit depth the clipped values are unsigned 16-bit ones, so `DM` holds them unchanged (R166). -/
theorem wrap16_clipUint_toNat {s : State} (hbpc : DepthLegal s) (x : Int) :
    ((wrap16 (clipUint x s.bpc.toNat)).toNat : Int) = max 0 (min (2 ^ s.bpc.toNat - 1) x) := by
  have hmax : (0 : Int) ≤ 2 ^ s.bpc.toNat - 1 ∧ (2 : Int) ^ s.bpc.toNat - 1 < 65536 := by
    obtain h | h := hbpc <;> rw [h] <;> decide
  obtain ⟨hlo, hhi⟩ := clamp_bounds (x := x) hmax.1
  rw [clipUint, wrap16_toNat hlo (by omega), clamp_eq hmax.1]

section ImageStores

variable {s t : State} {k : Desc} {w h : Nat} {f : Nat → Nat → Int} (ht : t.dm = memPut s.dm (rectStores k w h f))
include ht

/-- A word of `DM` in a rectangle no wider than the pitch holds the value stored for it. -/
theorem dmWord_rectStores_elem (hw : w ≤ strideOf k) {r c : Nat} (hr : r < h) (hc : c < w) :
    dmWord t (elemAddr k r c) = wrap16 (f r c) :=
  dmWord_put_mem ht (rectStores_nodup h f hw) (mem_rectStores.mpr ⟨r, c, hr, hc, rfl⟩)

/-- Every word of `DM` outside the rectangle is as before. -/
theorem dmWord_rectStores_frame {a : Nat} (ha : ¬InRect k w h a) : dmWord t a = dmWord s a := by
  refine dmWord_put_frame ht fun p hp hap => ha ?_
  obtain ⟨r, c, hr, hc, rfl⟩ := mem_rectStores.mp hp
  exact ⟨r, c, hr, hc, hap⟩

end ImageStores

/-- Settles O53: the checks pass, and each word of `DM` keeps its clipped value. -/
theorem hsyncResult : Obligations.HsyncResult := by
  intro s rd ra rb w m out hbpc hshape
  have hchecks := (firstError_depth_pass hbpc _).trans (synChecks_pass (same := false).mpr ⟨hshape, nofun⟩)
  refine ⟨_, checked_pass hchecks, rfl, fun r j hr hj => ?_, fun a ha => dmWord_rectStores_frame (s := s) rfl ha⟩
  rw [dmWord_rectStores_elem (s := s) rfl (SynShape.le_stride hshape) hr hj]
  exact wrap16_clipUint_toNat hbpc _

/-! The checks of R172 in their order. -/

/-- Checks that all raise the same error count as one check. -/
theorem firstError_append_of_same {cs ds : List (Bool × Err)} {e : Err} (he : ∀ c ∈ cs, c.2 = e) :
    firstError (cs ++ ds) = if cs.all Prod.fst then firstError ds else some e := by
  induction cs with
  | nil => simp
  | cons c cs ih =>
    obtain ⟨ok, f⟩ := c
    obtain ⟨rfl, hcs⟩ := List.forall_mem_cons.mp he
    cases ok
    · rfl
    · exact ih hcs

/-- The extent conditions of R172. -/
abbrev SynDims (s : State) (rd ra rb : DescNum) (len outW outH : Nat) : Prop :=
  dimsOk (desc s rd) = true ∧ dimsOk (desc s ra) = true ∧ dimsOk (desc s rb) = true ∧
    (desc s rb).width = (desc s ra).width ∧ (desc s rb).height = (desc s ra).height ∧ 3 ≤ len ∧
    outW ≤ awidthOf (desc s rd) ∧ outH ≤ aheightOf (desc s rd)

/-- The footprint conditions of R172. -/
abbrev SynRanges (s : State) (rd ra rb : DescNum) (size : Nat) : Prop :=
  footprintEnd (desc s ra) ≤ s.cfg.cmWords ∧ footprintEnd (desc s rb) ≤ s.cfg.cmWords ∧
    footprintEnd (desc s rd) ≤ size

section SynChecks

variable {s : State} {rd ra rb : DescNum} {len outW outH size : Nat}

/-- The first four checks of R172 are the extent conditions. -/
theorem synChecks_take_all {same : Bool} :
    ((synChecks s rd ra rb len outW outH size same).take 4).all Prod.fst = true ↔
      SynDims s rd ra rb len outW outH := by
  simp [synChecks, widthOf, heightOf, BitVec.toNat_inj, and_assoc]

/-- The order of R172: the extent conditions, the footprint conditions, then what is left, the overlap check. -/
theorem firstError_synChecks (same : Bool) :
    firstError (synChecks s rd ra rb len outW outH size same) =
      if SynDims s rd ra rb len outW outH then
        if SynRanges s rd ra rb size then firstError ((synChecks s rd ra rb len outW outH size same).drop 5)
        else some .range
      else some .invalidSubbandDimensions := by
  have hsame : ∀ c ∈ (synChecks s rd ra rb len outW outH size same).take 4, c.2 = .invalidSubbandDimensions := by
    simp [synChecks]
  have hrange : (rangeOk (desc s ra) s.cfg.cmWords && rangeOk (desc s rb) s.cfg.cmWords &&
      rangeOk (desc s rd) size) = true ↔ SynRanges s rd ra rb size := by
    simp [rangeOk, and_assoc]
  exact (firstError_append_of_same (ds := (synChecks s rd ra rb len outW outH size same).drop 4) hsame).trans
    (if_congr synChecks_take_all (if_congr hrange rfl rfl) rfl)

/-- With all before it met, the overlap check is the one that fails (R172). -/
theorem synChecks_overlap (hdims : SynDims s rd ra rb len outW outH) (hranges : SynRanges s rd ra rb size)
    (hmeet : ¬(Disjoint (desc s rd) (desc s ra) ∧ Disjoint (desc s rd) (desc s rb))) :
    firstError (synChecks s rd ra rb len outW outH size true) = some .overlap := by
  have hfails : firstError (synChecks s rd ra rb len outW outH size true) ≠ none :=
    fun hpass => hmeet ((synChecks_pass.mp hpass).2 rfl)
  rw [firstError_synChecks, if_pos hdims, if_pos hranges] at hfails ⊢
  exact if_neg fun hpass => hfails (if_pos hpass)

variable {i : Instr}

/-- A synthesis command with what its checks compare (R164, R165, R167). -/
abbrev SynCommand (s : State) (rd ra rb : DescNum) (i : Instr) (len outW outH size : Nat) : Prop :=
  i = .vsyn rd ra rb ∧ len = heightOf (desc s ra) ∧ outW = widthOf (desc s ra) ∧
      outH = 2 * heightOf (desc s ra) ∧ size = s.cfg.cmWords ∨
    i = .hsyn rd ra rb ∧ len = widthOf (desc s ra) ∧ outW = 2 * widthOf (desc s ra) ∧
      outH = heightOf (desc s ra) ∧ size = s.cfg.cmWords ∨
    i = .hsync rd ra rb ∧ len = widthOf (desc s ra) ∧ outW = 2 * widthOf (desc s ra) ∧
      outH = heightOf (desc s ra) ∧ size = s.cfg.dmWords

/-- An error of the checks of R172 is the one a synthesis command ends in, once the bit depth of `HSYNC` has passed. -/
theorem exec_syn_fail (hi : SynCommand s rd ra rb i len outW outH size) (hdepth : i = .hsync rd ra rb → DepthLegal s)
    {e : Err}
    (he : firstError (synChecks s rd ra rb len outW outH size (decide (i ≠ .hsync rd ra rb))) = some e) :
    exec i s = .next (raiseError e (encode i) s) := by
  obtain ⟨rfl, rfl, rfl, rfl, rfl⟩ | ⟨rfl, rfl, rfl, rfl, rfl⟩ | ⟨rfl, rfl, rfl, rfl, rfl⟩ := hi
  · exact checked_fail he
  · exact checked_fail he
  · rw [decide_eq_false (not_not_intro rfl)] at he
    exact checked_fail ((firstError_depth_pass (hdepth rfl) _).trans he)

end SynChecks

/-- Settles O58: the check of the bit depth comes first, then those of R172. -/
theorem synthesisTraps : Obligations.SynthesisTraps := by
  intro s rd ra rb i len outW outH size hi trap dims ranges depth
  refine ⟨fun hd => ?_, fun hd hdims => ?_, fun hd hdims hranges => ?_, fun hd hdims hranges hne hmeet => ?_⟩
  · obtain ⟨rfl, hbpc⟩ := Classical.not_imp.mp hd
    exact checked_fail (firstError_depth_fail hbpc _)
  · exact exec_syn_fail hi hd ((firstError_synChecks _).trans (if_neg hdims))
  · exact exec_syn_fail hi hd (((firstError_synChecks _).trans (if_pos hdims)).trans (if_neg hranges))
  · refine exec_syn_fail (e := .overlap) hi hd ?_
    rw [decide_eq_true hne]
    exact synChecks_overlap hdims hranges hmeet

end Sys2Proof.Machine

namespace Sys2Proof.Machine

/-! ## The analysis kernel (R181, R182) -/

section Analysis

variable {n i : Nat} (hn : 3 ≤ n)
include hn

/-- A predictor strays from the element it predicts by at most the bound on the line. -/
theorem abs_predictMirror_sub_le {L : Nat → Int} {M : Nat} (h : ∀ k < n, |L k| ≤ M) (hi : i < n) :
    |predictMirror n L i - L i| ≤ M := by
  have hb (k : Nat) (hk : k < n) := abs_le.mp (h k hk)
  rw [abs_le]
  obtain rfl | rfl | ⟨h0, h1⟩ := first_or_last_or_inner hn hi
  · have b0 := hb 0 (by omega)
    have b1 := hb 1 (by omega)
    have b2 := hb 2 (by omega)
    rw [predictMirror_first]
    omega
  · have b1 := hb (n - 1) (by omega)
    have b2 := hb (n - 2) (by omega)
    have b3 := hb (n - 3) (by omega)
    rw [predictMirror_last hn]
    omega
  · have b1 := hb (i - 1) (by omega)
    have b2 := hb (i + 1) h1
    rw [predictMirror_inner L h0 h1]
    omega

/-- The second predictor, too, reads only the elements of the line. -/
theorem predictMirror_congr {L K : Nat → Int} (h : ∀ k < n, L k = K k) (hi : i < n) :
    predictMirror n L i = predictMirror n K i := by
  rw [predictMirror_eq_predict hn L hi, predictMirror_eq_predict hn K hi]
  exact predict_congr hn (fun k hk => h _ (by omega)) (by omega)

variable {x : Nat → Int}

/-- Analysis of a constant line (R182 (d)). -/
theorem analysis_const {c : Int} (h : ∀ j < 2 * n, x j = c) (hi : i < n) :
    anaLow x i = 2 * c ∧ anaHigh n x i = 0 := by
  have hlow (k : Nat) (hk : k < n) : anaLow x k = 2 * c := by
    rw [anaLow, h (2 * k) (by omega), h (2 * k + 1) (by omega)]
    omega
  refine ⟨hlow i hi, ?_⟩
  rw [anaHigh, predictMirror_const hn hlow hi, hlow i hi, h (2 * i) (by omega), h (2 * i + 1) (by omega)]
  omega

/-- The bounds on the analysis (R182 (e)): the low line is at most `2M`, and the predictor strays from it by no more. -/
theorem abs_analysis_le {M : Nat} (h : ∀ j < 2 * n, |x j| ≤ M) (hi : i < n) :
    |anaLow x i| ≤ 2 * M ∧ |anaHigh n x i| ≤ 4 * M := by
  have hlow (k : Nat) (hk : k < n) : |anaLow x k| ≤ (2 * M : Nat) := by
    have b0 := abs_le.mp (h (2 * k) (by omega))
    have b1 := abs_le.mp (h (2 * k + 1) (by omega))
    rw [anaLow, abs_le]
    omega
  refine ⟨by simpa using hlow i hi, ?_⟩
  have b0 := abs_le.mp (h (2 * i) (by omega))
  have b1 := abs_le.mp (h (2 * i + 1) (by omega))
  have hp := abs_le.mp (abs_predictMirror_sub_le hn hlow hi)
  rw [anaHigh, abs_le]
  omega

/-- Synthesis of the low and high lines of a line is that line (R182 (a)): the even output has the sum of both
predictors, which is twice the low element or one more, and in the odd one the predictor cancels. -/
theorem syn_analysis {L H : Nat → Int} (hL : ∀ i < n, L i = anaLow x i) (hH : ∀ i < n, H i = anaHigh n x i) {j : Nat}
    (hj : j < 2 * n) : syn n L H j = x j := by
  obtain ⟨i, rfl | rfl⟩ := Nat.even_or_odd' j
  · have hi : i < n := by omega
    have hsum := predict_add_predictMirror hn (anaLow x) hi
    have hlow : anaLow x i = x (2 * i) + x (2 * i + 1) := rfl
    rw [syn_even, predict_congr hn hL hi, hH i hi, anaHigh]
    omega
  · have hi : i < n := by omega
    rw [syn_odd, predictMirror_congr hn hL hi, hH i hi, anaHigh, anaLow]
    omega

end Analysis

/-- Settles O49: a line's own low and high lines give it back. -/
theorem synthesisInvertsAnalysis : Obligations.SynthesisInvertsAnalysis :=
  fun _ _ _ hn hj => syn_analysis hn (fun _ _ => rfl) (fun _ _ => rfl) hj

/-- Settles O50: at the start of the low line `0, 1, 0` the two predictors are 0 and 1, so the high elements 0 and 1
both give the outputs 0 and 0 there. -/
theorem analysisKernelFacts : Obligations.AnalysisKernelFacts := by
  refine ⟨⟨fun i => if i = 1 then 1 else 0, fun i => if i = 1 then 1 else 0, fun _ => 0,
    fun i => if i = 0 then 1 else 0, ⟨by decide, rfl⟩, by decide⟩,
    fun n x hn => ⟨fun c h i hi => analysis_const hn h hi, fun M h i hi => ?_⟩⟩
  obtain ⟨hlow, hhigh⟩ := abs_analysis_le hn h hi
  exact ⟨hlow, by omega⟩

/-! ## `DIV4` (R186) -/

/-- A multiple of 4 is divided exactly, whatever the rounding. -/
theorem div4Value_four_mul (r : Config.Div4Rule) (m : Int) : div4Value r (4 * m) = m := by
  unfold div4Value
  rw [if_pos (by omega)]
  omega

/-- The bound of R186, whatever the rounding. -/
theorem abs_div4Value_le (r : Config.Div4Rule) (x : Int) : |div4Value r x| ≤ |x| / 4 + 1 := by
  rw [Int.abs_eq_natAbs x, abs_le]
  unfold div4Value
  split
  · omega
  · cases r with
    | floor => simp only [asr]; omega
    | trunc =>
      have hmag : (x.tdiv 4).natAbs = x.natAbs / 4 := Int.natAbs_tdiv x 4
      simp only [truncDiv]
      omega
    | nearest => simp only [asr]; omega
    | free =>
      have hbounds := clamp_bounds (x := Config.div4Free x)
        (lo := -((x.natAbs / 4 + 1 : Nat) : Int)) (hi := ((x.natAbs / 4 + 1 : Nat) : Int)) (by omega)
      dsimp only
      omega

/-- Settles O36: the checks pass, and each element is mapped to its quarter, which fits. -/
theorem quarterResult : Obligations.QuarterResult := by
  intro s rd hband
  refine ⟨_, checked_pass (bandChecks_pass.mpr hband), rfl, fun r c hr hc => ?_,
    fun a ha => cmWord_bandMap_frame rfl ha⟩
  rw [cmInt_bandMap_elem rfl hband.1 (fun x => div4Value_fits _) hr hc]
  exact ⟨rfl, fun m hm => hm ▸ div4Value_four_mul _ m, abs_div4Value_le _ _⟩

/-- A checked command that has ended without an error has passed its checks and left its effect. -/
theorem checked_success {i : Instr} {cs : List (Bool × Err)} {s body t : State} (h : checked i cs s body = .next t)
    (herr : t.err = false) : firstError cs = none ∧ t = complete body := by
  obtain ⟨e, -, -, rfl⟩ | hpass := checked_cases h
  · cases herr
  · exact hpass

/-- Settles O37: without an overflow `SHL2` leaves four times each element, and `DIV4` of that is the element. -/
theorem quarterUndoesShl : Obligations.QuarterUndoesShl := by
  intro s t u rd hshl herr hovf hdiv
  have hband : BandReady s rd := bandChecks_pass.mp (checked_success hshl herr).1
  obtain ⟨t', ht, hst, helem, hflag, hframe⟩ := shlResult s rd hband
  obtain rfl : t' = t := Host.Outcome.next.inj (ht.symm.trans hshl)
  have hdesc : desc t' rd = desc s rd := (congrArg (desc · rd) hst).trans rfl
  have hcfg : t'.cfg = s.cfg := (congrArg State.cfg hst).trans rfl
  obtain ⟨u', hu, htu, hquarter, hkeep⟩ := quarterResult t' rd (by rwa [BandReady, hdesc, hcfg])
  obtain rfl : u' = u := Host.Outcome.next.inj (hu.symm.trans hdiv)
  rw [hdesc] at hquarter hkeep
  refine ⟨(congrArg State.err htu).trans herr, fun a => ?_⟩
  by_cases ha : InRect (desc s rd) (widthOf (desc s rd)) (heightOf (desc s rd)) a
  · obtain ⟨r, c, hr, hc, rfl⟩ := ha
    have hfits : fits16 (4 * cmInt s (elemAddr (desc s rd) r c)) = true := by
      by_contra hno
      rw [Bool.not_eq_true, fits16_four_mul_eq_false] at hno
      exact absurd (hflag.mpr (.inr ⟨r, c, hr, hc, hno⟩)) (by simp [hovf])
    have hfour : cmInt t' (elemAddr (desc s rd) r c) = 4 * cmInt s (elemAddr (desc s rd) r c) := by
      rw [cmInt, helem r c hr hc, wrap16_toInt hfits]
    obtain ⟨-, hexact, -⟩ := hquarter r c hr hc
    exact BitVec.eq_of_toInt_eq (hexact _ hfour)
  · rw [hkeep a ha, hframe a ha]

/-! ## The analysis commands (R183, R184) -/

/-- A rectangle inside the allocated extent lies in the footprint. -/
theorem InRect.within {k : Desc} {w h a : Nat} (hw : w ≤ strideOf k) (hh : h ≤ aheightOf k) (ha : InRect k w h a) :
    k.base.toNat ≤ a ∧ a < footprintEnd k := by
  obtain ⟨r, c, hr, hc, rfl⟩ := ha
  exact ⟨base_le_elemAddr k r c, elemAddr_lt_footprintEnd (by omega) (by omega)⟩

/-- Some value stored into a rectangle does not fit exactly when some element's does not. -/
theorem rectStores_misfit_iff {k : Desc} {w h : Nat} {f : Nat → Nat → Int} :
    ((rectStores k w h f).any fun p => !fits16 p.2) = true ↔ ∃ r c, r < h ∧ c < w ∧ fits16 (f r c) = false := by
  rw [List.any_eq_true]
  constructor
  · rintro ⟨p, hp, hfit⟩
    obtain ⟨r, c, hr, hc, rfl⟩ := mem_rectStores.mp hp
    exact ⟨r, c, hr, hc, (Bool.not_eq_true' _).mp hfit⟩
  · rintro ⟨r, c, hr, hc, hfit⟩
    exact ⟨_, mem_rectStores.mpr ⟨r, c, hr, hc, rfl⟩, (Bool.not_eq_true' _).mpr hfit⟩

/-- All that a command does whose effect is `Store16` of two rectangles without a word in common (R11, R197). -/
theorem exec_storeAll_two_rectStores {i : Instr} {s : State} {k l : Desc} {w h : Nat} {f g : Nat → Nat → Int}
    (hexec : exec i s = .next (complete (storeAll s (rectStores k w h f ++ rectStores l w h g))))
    (hk : w ≤ strideOf k) (hl : w ≤ strideOf l) (hdisj : ∀ a, InRect k w h a → ¬InRect l w h a) :
    ∃ t, exec i s = .next t ∧ t = { s with cm := t.cm, ovf := t.ovf, running := none, done := true } ∧
      (∀ r c, r < h → c < w →
        cmWord t (elemAddr k r c) = wrap16 (f r c) ∧ cmWord t (elemAddr l r c) = wrap16 (g r c)) ∧
      (t.ovf = true ↔ s.ovf = true ∨ ∃ r c, r < h ∧ c < w ∧ (fits16 (f r c) = false ∨ fits16 (g r c) = false)) ∧
      ∀ a, ¬InRect k w h a → ¬InRect l w h a → cmWord t a = cmWord s a := by
  have hcm : (complete (storeAll s (rectStores k w h f ++ rectStores l w h g))).cm =
      memPut (writeAll s (rectStores k w h f)).cm (rectStores l w h g) :=
    (storeAll_cm _ _).trans (memPut_append _ _ _)
  refine ⟨_, hexec, by simp only [complete, storeAll_eq], fun r c hr hc => ⟨?_, cmWord_rectStores_elem hcm hl hr hc⟩,
    ?_, fun a hka hla => (cmWord_rectStores_frame hcm hla).trans (cmWord_rectStores_frame rfl hka)⟩
  · rw [cmWord_rectStores_frame hcm (hdisj _ ⟨r, c, hr, hc, rfl⟩)]
    exact cmWord_rectStores_elem rfl hk hr hc
  · rw [complete_ovf, storeAll_ovf, Bool.or_eq_true, List.any_append, Bool.or_eq_true, rectStores_misfit_iff,
      rectStores_misfit_iff]
    refine or_congr_right ?_
    simp only [and_or_left, exists_or]

section AnaCommands

variable {s : State} {rd ra rb : DescNum} {len outW outH : Nat}

/-- The rectangles that the checks of R185 admit are no wider than the pitches of their destinations. -/
theorem AnaShape.le_stride (h : AnaShape s rd ra rb len outW outH) :
    outW ≤ strideOf (desc s rd) ∧ outW ≤ strideOf (desc s rb) := by
  obtain ⟨hd, -, hb, -, -, hwd, -, hwb, -⟩ := h
  obtain ⟨-, -, hsd, -, -⟩ := dimsOk_iff.mp hd
  obtain ⟨-, -, hsb, -, -⟩ := dimsOk_iff.mp hb
  exact ⟨hwd.trans hsd, hwb.trans hsb⟩

/-- Destinations with disjoint footprints receive rectangles without a word in common. -/
theorem AnaShape.rects_disjoint (h : AnaShape s rd ra rb len outW outH)
    (hdb : Disjoint (desc s rd) (desc s rb)) {a : Nat} (hrd : InRect (desc s rd) outW outH a) :
    ¬InRect (desc s rb) outW outH a := by
  intro hrb
  obtain ⟨hsd, hsb⟩ := AnaShape.le_stride h
  obtain ⟨-, -, -, -, -, -, hhd, -, hhb, -⟩ := h
  obtain ⟨hd0, hd1⟩ := hrd.within hsd hhd
  obtain ⟨hb0, hb1⟩ := hrb.within hsb hhb
  omega

end AnaCommands

/-- Settles O54: the checks pass, and the destinations are two rectangles of stores. -/
theorem vanaResult : Obligations.VanaResult := by
  intro s rd ra rb w n col hshape hda hdb hab
  obtain ⟨hsd, hsb⟩ := AnaShape.le_stride hshape
  exact exec_storeAll_two_rectStores (checked_pass (anaChecks_pass.mpr ⟨hshape, hda, hdb, hab⟩)) hsd hsb
    fun a => AnaShape.rects_disjoint hshape hdb

/-- Settles O55: as `VANA`, with lines along the rows. -/
theorem hanaResult : Obligations.HanaResult := by
  intro s rd ra rb n m row hshape hda hdb hab
  obtain ⟨hsd, hsb⟩ := AnaShape.le_stride hshape
  exact exec_storeAll_two_rectStores (checked_pass (anaChecks_pass.mpr ⟨hshape, hda, hdb, hab⟩)) hsd hsb
    fun a => AnaShape.rects_disjoint hshape hdb

/-! ## Analysis undone by synthesis (R182, R183, R184) -/

/-- Where no store of two rectangles set `OVF`, their elements read as the values stored. -/
theorem two_rectStores_exact {s t : State} {k l : Desc} {w h : Nat} {f g : Nat → Nat → Int}
    (helem : ∀ r c, r < h → c < w →
      cmWord t (elemAddr k r c) = wrap16 (f r c) ∧ cmWord t (elemAddr l r c) = wrap16 (g r c))
    (hflag : t.ovf = true ↔
      s.ovf = true ∨ ∃ r c, r < h ∧ c < w ∧ (fits16 (f r c) = false ∨ fits16 (g r c) = false))
    (hovf : t.ovf = false) {r c : Nat} (hr : r < h) (hc : c < w) :
    cmInt t (elemAddr k r c) = f r c ∧ cmInt t (elemAddr l r c) = g r c := by
  have hfit : ¬(fits16 (f r c) = false ∨ fits16 (g r c) = false) := fun hmisfit =>
    Bool.false_ne_true (hovf.symm.trans (hflag.mpr (.inr ⟨r, c, hr, hc, hmisfit⟩)))
  obtain ⟨hf, hg⟩ := not_or.mp hfit
  obtain ⟨hk, hl⟩ := helem r c hr hc
  rw [cmInt, cmInt, hk, hl]
  exact ⟨wrap16_toInt (Bool.not_eq_false _ ▸ hf), wrap16_toInt (Bool.not_eq_false _ ▸ hg)⟩

section Lossless

variable {s t : State} {rd ra rb : DescNum} (herr : t.err = false) (hovf : t.ovf = false)
include herr hovf

/-- A `VANA` without error and overflow had an even length of at least 6, and its destinations read as the low and high
lines of the columns. -/
theorem vana_exact (h : exec (.vana rd ra rb) s = .next t) :
    heightOf (desc s ra) = 2 * (heightOf (desc s ra) / 2) ∧ 3 ≤ heightOf (desc s ra) / 2 ∧
      ∀ i c, i < heightOf (desc s ra) / 2 → c < widthOf (desc s ra) →
        cmInt t (elemAddr (desc s rd) i c) = anaLow (cmColumn s (desc s ra) c) i ∧
          cmInt t (elemAddr (desc s rb) i c) =
            anaHigh (heightOf (desc s ra) / 2) (cmColumn s (desc s ra) c) i := by
  obtain ⟨hshape, hda, hdb, hab⟩ := anaChecks_pass.mp (checked_success h herr).1
  obtain ⟨t', ht, -, helem, hflag, -⟩ := vanaResult s rd ra rb hshape hda hdb hab
  obtain rfl : t' = t := Host.Outcome.next.inj (ht.symm.trans h)
  obtain ⟨-, -, -, heven, hlen, -⟩ := hshape
  exact ⟨by omega, by omega, fun i c hi hc => two_rectStores_exact helem hflag hovf hi hc⟩

/-- As `vana_exact`, along the rows. -/
theorem hana_exact (h : exec (.hana rd ra rb) s = .next t) :
    widthOf (desc s ra) = 2 * (widthOf (desc s ra) / 2) ∧ 3 ≤ widthOf (desc s ra) / 2 ∧
      ∀ r i, r < heightOf (desc s ra) → i < widthOf (desc s ra) / 2 →
        cmInt t (elemAddr (desc s rd) r i) = anaLow (cmRow s (desc s ra) r) i ∧
          cmInt t (elemAddr (desc s rb) r i) =
            anaHigh (widthOf (desc s ra) / 2) (cmRow s (desc s ra) r) i := by
  obtain ⟨hshape, hda, hdb, hab⟩ := anaChecks_pass.mp (checked_success h herr).1
  obtain ⟨t', ht, -, helem, hflag, -⟩ := hanaResult s rd ra rb hshape hda hdb hab
  obtain rfl : t' = t := Host.Outcome.next.inj (ht.symm.trans h)
  obtain ⟨-, -, -, heven, hlen, -⟩ := hshape
  exact ⟨by omega, by omega, fun r i hr hi => two_rectStores_exact helem hflag hovf hr hi⟩

end Lossless

section Synthesized

variable {s u : State} {rd ra rb : DescNum} (herr : u.err = false) {r c : Nat}
include herr

/-- The destination of a `VSYN` without error reads as the wrapped outputs. -/
theorem vsyn_elem (h : exec (.vsyn rd ra rb) s = .next u) (hr : r < 2 * heightOf (desc s ra))
    (hc : c < widthOf (desc s ra)) :
    cmInt u (elemAddr (desc s rd) r c) =
      (wrap16 (syn (heightOf (desc s ra)) (cmColumn s (desc s ra) c) (cmColumn s (desc s rb) c) r)).toInt := by
  obtain ⟨hshape, hdisj⟩ := synChecks_pass.mp (checked_success h herr).1
  obtain ⟨hda, hdb⟩ := hdisj rfl
  obtain ⟨u', hu, -, helem, -⟩ := vsynResult s rd ra rb hshape hda hdb
  obtain rfl : u' = u := Host.Outcome.next.inj (hu.symm.trans h)
  exact congrArg BitVec.toInt (helem r c hr hc)

/-- The destination of an `HSYN` without error reads as the wrapped outputs. -/
theorem hsyn_elem (h : exec (.hsyn rd ra rb) s = .next u) (hr : r < heightOf (desc s ra))
    (hc : c < 2 * widthOf (desc s ra)) :
    cmInt u (elemAddr (desc s rd) r c) =
      (wrap16 (syn (widthOf (desc s ra)) (cmRow s (desc s ra) r) (cmRow s (desc s rb) r) c)).toInt := by
  obtain ⟨hshape, hdisj⟩ := synChecks_pass.mp (checked_success h herr).1
  obtain ⟨hda, hdb⟩ := hdisj rfl
  obtain ⟨u', hu, -, helem, -⟩ := hsynResult s rd ra rb hshape hda hdb
  obtain rfl : u' = u := Host.Outcome.next.inj (hu.symm.trans h)
  exact congrArg BitVec.toInt (helem r c hr hc)

end Synthesized

/-- A band keeps its elements while `CM`, its base and its pitch stay (R276). -/
theorem cmInt_elemAddr_congr {s t : State} {j k : Desc} (hcm : t.cm = s.cm) (hbase : j.base = k.base)
    (hstride : j.stride = k.stride) (r c : Nat) : cmInt t (elemAddr j r c) = cmInt s (elemAddr k r c) := by
  rw [elemAddr, elemAddr, strideOf, strideOf, hbase, hstride, cmInt, cmInt, cmWord_congr hcm]

/-- Settles O56: `VSYN` reads the low and high lines of each column, whose synthesis is the column, and that fits. -/
theorem vsynUndoesVana : Obligations.VsynUndoesVana := by
  intro s t t' u rd ra rb ro hana herr hovf hcm _ hset hsyn herru r c hr hc
  obtain ⟨hlen, hn, hlines⟩ := vana_exact herr hovf hana
  obtain ⟨hbd, hsd, hwd, hhd⟩ := hset rd (.inl rfl)
  obtain ⟨hbb, hsb, -, -⟩ := hset rb (.inr rfl)
  have hline : syn (heightOf (desc s ra) / 2) (cmColumn t' (desc t' rd) c) (cmColumn t' (desc t' rb) c) r =
      cmInt s (elemAddr (desc s ra) r c) :=
    syn_analysis (x := cmColumn s (desc s ra) c) hn
      (fun i hi => (cmInt_elemAddr_congr hcm hbd hsd i c).trans (hlines i c hi hc).1)
      (fun i hi => (cmInt_elemAddr_congr hcm hbb hsb i c).trans (hlines i c hi hc).2) (by omega)
  rw [vsyn_elem herru hsyn (by omega) (by omega), hhd, hline]
  exact wrap16_toInt (fits16_toInt _)

/-- Settles O57: as `VSYN` of `VANA`, with lines along the rows. -/
theorem hsynUndoesHana : Obligations.HsynUndoesHana := by
  intro s t t' u rd ra rb ro hana herr hovf hcm _ hset hsyn herru r c hr hc
  obtain ⟨hlen, hn, hlines⟩ := hana_exact herr hovf hana
  obtain ⟨hbd, hsd, hwd, hhd⟩ := hset rd (.inl rfl)
  obtain ⟨hbb, hsb, -, -⟩ := hset rb (.inr rfl)
  have hline : syn (widthOf (desc s ra) / 2) (cmRow t' (desc t' rd) r) (cmRow t' (desc t' rb) r) c =
      cmInt s (elemAddr (desc s ra) r c) :=
    syn_analysis (x := cmRow s (desc s ra) r) hn
      (fun i hi => (cmInt_elemAddr_congr hcm hbd hsd r i).trans (hlines r i hr hi).1)
      (fun i hi => (cmInt_elemAddr_congr hcm hbb hsb r i).trans (hlines r i hr hi).2) (by omega)
  rw [hsyn_elem herru hsyn (by omega) (by omega), hwd, hline]
  exact wrap16_toInt (fits16_toInt _)

/-! ## The checks of R185 in their order -/

/-- The extent conditions of R185. -/
abbrev AnaDims (s : State) (rd ra rb : DescNum) (len outW outH : Nat) : Prop :=
  dimsOk (desc s rd) = true ∧ dimsOk (desc s ra) = true ∧ dimsOk (desc s rb) = true ∧ len % 2 = 0 ∧ 6 ≤ len ∧
    outW ≤ awidthOf (desc s rd) ∧ outH ≤ aheightOf (desc s rd) ∧
    outW ≤ awidthOf (desc s rb) ∧ outH ≤ aheightOf (desc s rb)

/-- The footprint conditions of R185. -/
abbrev AnaRanges (s : State) (rd ra rb : DescNum) : Prop :=
  footprintEnd (desc s ra) ≤ s.cfg.cmWords ∧ footprintEnd (desc s rd) ≤ s.cfg.cmWords ∧
    footprintEnd (desc s rb) ≤ s.cfg.cmWords

section AnaChecks

variable {s : State} {rd ra rb : DescNum} {len outW outH : Nat}

/-- The first three checks of R185 are the extent conditions. -/
theorem anaChecks_take_all :
    ((anaChecks s rd ra rb len outW outH).take 3).all Prod.fst = true ↔ AnaDims s rd ra rb len outW outH := by
  simp [anaChecks, and_assoc]

/-- The order of R185: the extent conditions, the footprint conditions, then what is left, the overlap check. -/
theorem firstError_anaChecks :
    firstError (anaChecks s rd ra rb len outW outH) =
      if AnaDims s rd ra rb len outW outH then
        if AnaRanges s rd ra rb then firstError ((anaChecks s rd ra rb len outW outH).drop 4) else some .range
      else some .invalidSubbandDimensions := by
  have hsame : ∀ c ∈ (anaChecks s rd ra rb len outW outH).take 3, c.2 = .invalidSubbandDimensions := by
    simp [anaChecks]
  have hrange : (rangeOk (desc s ra) s.cfg.cmWords && rangeOk (desc s rd) s.cfg.cmWords &&
      rangeOk (desc s rb) s.cfg.cmWords) = true ↔ AnaRanges s rd ra rb := by
    simp [rangeOk, and_assoc]
  exact (firstError_append_of_same (ds := (anaChecks s rd ra rb len outW outH).drop 3) hsame).trans
    (if_congr anaChecks_take_all (if_congr hrange rfl rfl) rfl)

/-- With all before it met, the overlap check is the one that fails (R185). -/
theorem anaChecks_overlap (hdims : AnaDims s rd ra rb len outW outH) (hranges : AnaRanges s rd ra rb)
    (hmeet : ¬(Disjoint (desc s rd) (desc s ra) ∧ Disjoint (desc s rd) (desc s rb) ∧
      Disjoint (desc s ra) (desc s rb))) :
    firstError (anaChecks s rd ra rb len outW outH) = some .overlap := by
  have hfails : firstError (anaChecks s rd ra rb len outW outH) ≠ none :=
    fun hpass => hmeet (anaChecks_pass.mp hpass).2
  rw [firstError_anaChecks, if_pos hdims, if_pos hranges] at hfails ⊢
  exact if_neg fun hpass => hfails (if_pos hpass)

/-- An analysis command with what its checks compare (R183, R184). -/
abbrev AnaCommand (s : State) (rd ra rb : DescNum) (i : Instr) (len outW outH : Nat) : Prop :=
  i = .vana rd ra rb ∧ len = heightOf (desc s ra) ∧ outW = widthOf (desc s ra) ∧ outH = heightOf (desc s ra) / 2 ∨
    i = .hana rd ra rb ∧ len = widthOf (desc s ra) ∧ outW = widthOf (desc s ra) / 2 ∧ outH = heightOf (desc s ra)

/-- An error of the checks of R185 is the one an analysis command ends in. -/
theorem exec_ana_fail {i : Instr} (hi : AnaCommand s rd ra rb i len outW outH) {e : Err}
    (he : firstError (anaChecks s rd ra rb len outW outH) = some e) :
    exec i s = .next (raiseError e (encode i) s) := by
  obtain ⟨rfl, rfl, rfl, rfl⟩ | ⟨rfl, rfl, rfl, rfl⟩ := hi
  · exact checked_fail he
  · exact checked_fail he

end AnaChecks

/-- Settles O59: the first check that fails, in the order of R185. -/
theorem analysisTraps : Obligations.AnalysisTraps := by
  intro s rd ra rb i len outW outH hi trap dims ranges
  refine ⟨fun hdims => ?_, fun hdims hranges => ?_, fun hdims hranges hmeet => ?_⟩
  · exact exec_ana_fail hi (firstError_anaChecks.trans (if_neg hdims))
  · exact exec_ana_fail hi ((firstError_anaChecks.trans (if_pos hdims)).trans (if_neg hranges))
  · exact exec_ana_fail hi (anaChecks_overlap hdims hranges hmeet)

end Sys2Proof.Machine

namespace Sys2Proof.Machine

/-! ## The interrupt line (R241) -/

theorem irq_iff {s : State} :
    irq s = true ↔ (s.ieDone = true ∧ s.done = true) ∨ (s.ieErr = true ∧ s.err = true) := by simp [irq]

/-- A command accepted with `DONE` and `ERR` clear ends with exactly one of them set, and leaves the enables
(R197, R236). -/
theorem exec_flags {i : Instr} {s t : State} (hd : s.done = false) (he : s.err = false) (h : exec i s = .next t) :
    t.ieDone = s.ieDone ∧ t.ieErr = s.ieErr ∧ t.done = !t.err := by
  obtain ⟨u, hw, hend⟩ := exec_ends h
  obtain ⟨-, -, -, -, -, -, hieDone, hieErr, -⟩ := hw.unwritten
  obtain ⟨-, hdone, herr, -⟩ := hw.runs_on
  obtain rfl | ⟨e, -, rfl⟩ := hend
  · exact ⟨hieDone, hieErr, by simp [herr, he]⟩
  · exact ⟨hieDone, hieErr, by simp [hdone, hd]⟩

/-! ## Writes to `CTRL` and `STATUS` (R26, R27) -/

/-- Without `SRST` a write to `CTRL` sets the two enables. -/
theorem writeCtrl_enables {v : Word} (hv : v.getLsbD 0 = false) (s : State) :
    writeCtrl s v = { s with ieDone := v.getLsbD 1, ieErr := v.getLsbD 2 } := if_neg (Bool.eq_false_iff.mp hv)

/-- A write to `STATUS` is an acknowledgement when bit 1 is set, and otherwise nothing. -/
theorem writeStatus_eq (s : State) (v : Word) : writeStatus s v = { s with done := s.done && !v.getLsbD 1 } := by
  unfold writeStatus
  split
  case isTrue hv => rw [hv, Bool.not_true, Bool.and_false]
  case isFalse hv => rw [Bool.eq_false_iff.mpr hv, Bool.not_false, Bool.and_true]

/-! ## `NOP` (R196) -/

theorem exec_nop (s : State) : exec .nop s = .next (complete s) := rfl

/-- With `opc = 0x00` only the word 0 is a command, and it is `NOP` (R91, R93). -/
theorem nop_of_opcOf_zero {w : Word} {i : Instr} (ho : opcOf w = 0) (h : decode w = .ok i) : w = 0 ∧ i = .nop := by
  have hform : decode w = formN w .nop := by simp [decode, ho]
  obtain ⟨rfl, hw⟩ := (formN_ok_iff (by decide) ho).mp (hform.symm.trans h)
  exact ⟨hw, rfl⟩

/-! ## The obligations on the life cycle of a command -/

/-- Settles O5: the step runs the accepted word, and running a word is executing what it decodes to. -/
theorem stepRunsDecodedCommand : Obligations.StepRunsDecodedCommand := fun s _ _ hr hi hd =>
  (step_runCommand hr hi).trans (runCommand_of_decode hd s)

/-- Settles O8: acceptance and the ignored writes of `NOP` are those of every command word, its end is `complete`. -/
theorem nopLifeCycle : Obligations.NopLifeCycle := by
  refine ⟨exec_nop, fun s rest hi => ⟨fun hr he => ?accepted, ?inError, ?busy⟩, fun w ho i => nop_of_opcOf_zero ho⟩
  case accepted =>
    obtain ⟨haccept, hrun⟩ := commandWriteIsAccepted s 0 rest hr he hi
    refine ⟨_, haccept, rfl, (hrun .nop (decode_encode .nop)).trans ?_⟩
    rw [exec_nop, complete, ← hr]
  case inError => exact fun hr he => (ignoredWritesChangeNothing s 4 0x10 0 _ hi).1 hr he rfl rfl
  case busy => exact (ignoredWritesChangeNothing s 4 0x10 0 _ hi).2

/-- Settles O24: both writes reach a register of the idle block, `STATUS` and `CMD`. -/
theorem acknowledgeClearsDone : Obligations.AcknowledgeClearsDone := by
  intro s v w rest hr
  refine ⟨fun hi => ?_, fun he hi => ⟨_, step_regWrite_idle (r := .cmd) hr rfl hi, ?_⟩⟩
  · rw [step_regWrite_idle (r := .status) hr rfl hi]
    exact congrArg _ (writeStatus_eq { s with input := rest } v)
  · exact congrArg State.done (acceptCommand_idle (s := { s with input := rest }) hr he w)

/-- Settles O25: a write to `CTRL` leaves `DONE` and `ERR`, and a command leaves the enables and ends with exactly one
of `DONE` and `ERR` set. -/
theorem interruptLine : Obligations.InterruptLine := by
  refine ⟨fun s v rest hr hv hi => ⟨_, ?step, rfl, irq_iff⟩, fun i s t hd he h => ?line⟩
  case step =>
    rw [step_regWrite_idle (r := .ctrl) hr rfl hi]
    exact congrArg _ (writeCtrl_enables hv { s with input := rest })
  case line =>
    obtain ⟨hieDone, hieErr, hdone⟩ := exec_flags hd he h
    rw [irq_iff, hieDone, hieErr, hdone, Bool.not_eq_true']

end Sys2Proof.Machine

namespace Sys2Proof.Machine

/-! ## The same descriptor in two fields (R297) -/

/-- A valid descriptor's footprint meets itself, so two fields with one descriptor have footprints that meet. -/
theorem not_disjoint_of_eq {s : State} {j k : DescNum} (hj : dimsOk (desc s j) = true) (hjk : j = k) :
    ¬Disjoint (desc s j) (desc s k) := by
  subst hjk
  have hne := base_lt_footprintEnd hj
  rintro (h | h) <;> omega

/-- Command `i` from `s` ends in the error of code `c` and changes nothing else (R235, R236). -/
abbrev EndsWithCode (i : Instr) (s : State) (c : BitVec 8) : Prop :=
  exec i s = .next { s with err := true, errcode := c, errinfo := encode i, running := none }

section OverlapCertain

variable {i : Instr} {s : State}

/-- The state after a command that ends in an error of code `c` carries that code. -/
theorem EndsWithCode.flags {c : BitVec 8} {t : State} (hc : EndsWithCode i s c) (h : exec i s = .next t) :
    t.err = true ∧ t.errcode = c := by
  obtain rfl := Host.Outcome.next.inj (hc.symm.trans h)
  exact ⟨rfl, rfl⟩

/-- With the check order of R172 and R185, extents then ranges then overlap, a command whose extent conditions already
make footprints meet fails in one of the three. -/
theorem err_of_trap_order {dims ranges apart : Prop} (hdims : ¬dims → EndsWithCode i s 2)
    (hranges : dims → ¬ranges → EndsWithCode i s 9) (hoverlap : dims → ranges → ¬apart → EndsWithCode i s 10)
    (hmeet : dims → ¬apart) {t : State} (h : exec i s = .next t) :
    t.err = true ∧ (t.errcode = 2 ∨ t.errcode = 9 ∨ t.errcode = 10) := by
  by_cases hd : dims
  · by_cases hr : ranges
    · exact (EndsWithCode.flags (hoverlap hd hr (hmeet hd)) h).imp_right fun hc => .inr (.inr hc)
    · exact (EndsWithCode.flags (hranges hd hr) h).imp_right fun hc => .inr (.inl hc)
  · exact (EndsWithCode.flags (hdims hd) h).imp_right .inl

end OverlapCertain

section ShapeParts

variable {s : State} {rd ra rb : DescNum} {len outW outH size : Nat}

/-- The conditions before the overlap check of R172 are those on the extents and those on the footprints. -/
theorem SynShape.dims_ranges (h : SynShape s rd ra rb len outW outH size) :
    SynDims s rd ra rb len outW outH ∧ SynRanges s rd ra rb size := by
  obtain ⟨hd, ha, hb, hw, hh, hlen, hoW, hoH, hra, hrb, hrd⟩ := h
  exact ⟨⟨hd, ha, hb, hw, hh, hlen, hoW, hoH⟩, rangeOk_iff.mp hra, rangeOk_iff.mp hrb, rangeOk_iff.mp hrd⟩

/-- The conditions before the overlap check of R185 are those on the extents and those on the footprints. -/
theorem AnaShape.dims_ranges (h : AnaShape s rd ra rb len outW outH) :
    AnaDims s rd ra rb len outW outH ∧ AnaRanges s rd ra rb := by
  obtain ⟨hd, ha, hb, heven, hlen, hdW, hdH, hbW, hbH, hra, hrd, hrb⟩ := h
  exact ⟨⟨hd, ha, hb, heven, hlen, hdW, hdH, hbW, hbH⟩, rangeOk_iff.mp hra, rangeOk_iff.mp hrd, rangeOk_iff.mp hrb⟩

/-- A destination that is a source meets that source (R172). -/
theorem SynDims.meet (hsame : rd = ra ∨ rd = rb) (h : SynDims s rd ra rb len outW outH) :
    ¬(Disjoint (desc s rd) (desc s ra) ∧ Disjoint (desc s rd) (desc s rb)) := by
  obtain ⟨hd, -⟩ := h
  rintro ⟨hda, hdb⟩
  obtain heq | heq := hsame
  · exact not_disjoint_of_eq hd heq hda
  · exact not_disjoint_of_eq hd heq hdb

/-- Two of the three fields with the same descriptor have footprints that meet (R185). -/
theorem AnaDims.meet (hsame : rd = ra ∨ rd = rb ∨ ra = rb) (h : AnaDims s rd ra rb len outW outH) :
    ¬(Disjoint (desc s rd) (desc s ra) ∧ Disjoint (desc s rd) (desc s rb) ∧ Disjoint (desc s ra) (desc s rb)) := by
  obtain ⟨hd, ha, -⟩ := h
  rintro ⟨hda, hdb, hab⟩
  obtain heq | heq | heq := hsame
  · exact not_disjoint_of_eq hd heq hda
  · exact not_disjoint_of_eq hd heq hdb
  · exact not_disjoint_of_eq ha heq hab

/-- A synthesis into `CM` is a synthesis command, with `CM` as its destination's memory, and is not `HSYNC`. -/
theorem synCommand_of_cm {i : Instr}
    (hi : i = .vsyn rd ra rb ∧ len = heightOf (desc s ra) ∧ outW = widthOf (desc s ra) ∧
        outH = 2 * heightOf (desc s ra) ∨
      i = .hsyn rd ra rb ∧ len = widthOf (desc s ra) ∧ outW = 2 * widthOf (desc s ra) ∧
        outH = heightOf (desc s ra)) :
    SynCommand s rd ra rb i len outW outH s.cfg.cmWords ∧ i ≠ .hsync rd ra rb := by
  obtain ⟨rfl, hlen, hW, hH⟩ | ⟨rfl, hlen, hW, hH⟩ := hi
  · exact ⟨.inl ⟨rfl, hlen, hW, hH, rfl⟩, nofun⟩
  · exact ⟨.inr (.inl ⟨rfl, hlen, hW, hH, rfl⟩), nofun⟩

end ShapeParts

/-- Settles O60: valid extents already make the footprints of one descriptor meet, so in the order of O58 and O59 the
overlap check fails if none before it does. -/
theorem sameDescriptorOverlaps : Obligations.SameDescriptorOverlaps := by
  intro s rd ra rb i len outW outH trap never
  refine ⟨fun hsame hi => ?synthesis, fun hsame hi => ?analysis⟩
  case synthesis =>
    obtain ⟨hcmd, hne⟩ := synCommand_of_cm hi
    obtain ⟨-, hdims, hranges, hoverlap⟩ := synthesisTraps s rd ra rb i len outW outH _ hcmd
    have hdepth : i = .hsync rd ra rb → DepthLegal s := fun h => absurd h hne
    refine ⟨fun t _ => err_of_trap_order (hdims hdepth) (hranges hdepth)
      (fun hd hr => hoverlap hdepth hd hr hne) (SynDims.meet hsame), fun hshape => ?_⟩
    obtain ⟨hd, hr⟩ := SynShape.dims_ranges hshape
    exact hoverlap hdepth hd hr hne (SynDims.meet hsame hd)
  case analysis =>
    obtain ⟨hdims, hranges, hoverlap⟩ := analysisTraps s rd ra rb i len outW outH hi
    refine ⟨fun t _ => err_of_trap_order hdims hranges hoverlap (AnaDims.meet hsame), fun hshape => ?_⟩
    obtain ⟨hd, hr⟩ := AnaShape.dims_ranges hshape
    exact hoverlap hd hr (AnaDims.meet hsame hd)

end Sys2Proof.Machine

namespace Sys2Proof.Machine

/-! ## How a command ends in error (R232, R235, R236)

`exec_failed` says for every command which errors it ends in and from which state they are raised. What such a command
leaves of the memories, the flags and the registers follows from it. -/

/-- Command `i`, run from `s`, has ended in an error of its row of R232. -/
inductive Failed (s : State) (i : Instr) : State → Prop
  /-- A check, which precedes every write: the error is raised from the state at acceptance (R233, R235). -/
  | check (e : Err) (he : (errCode e).toNat ∈ mayRaise i) (hvld : ∀ rd, i = .vld rd → errCode e = 2 ∨ errCode e = 9) :
      Failed s i (raiseError e (encode i) s)
  /-- The chunk of a `VLD`, behind the stores of its pairs (R146, R147, R235). -/
  | chunk (rd : DescNum) (hi : i = .vld rd) (e : Err)
      (he : e = .escapeNotFound ∨ e = .bitstreamOverread ∨ e = .badCode) :
      Failed s i (raiseError e (encode i) (vldStore s (desc s rd) (vldChunk s (desc s rd))))

/-- Every check of a list passes, or the code of its error is in the row of command `i` (R232). -/
def RowErrors (i : Instr) (cs : List (Bool × Err)) : Prop := ∀ c ∈ cs, c.1 = true ∨ (errCode c.2).toNat ∈ mayRaise i

/-- The error that a list of checks raises is that of a check that fails. -/
theorem firstError_failing {cs : List (Bool × Err)} {e : Err} (h : firstError cs = some e) : (false, e) ∈ cs := by
  induction cs with
  | nil => cases h
  | cons c cs ih =>
    obtain ⟨ok, f⟩ := c
    cases ok with
    | false => exact Option.some.inj h ▸ List.mem_cons_self
    | true => exact List.mem_cons_of_mem _ (ih h)

theorem RowErrors.code_mem {i : Instr} {cs : List (Bool × Err)} (hrow : RowErrors i cs) {e : Err}
    (h : firstError cs = some e) : (errCode e).toNat ∈ mayRaise i :=
  (hrow _ (firstError_failing h)).resolve_left nofun

section Failing

variable {i : Instr} {s t : State}

/-- A checked command that ends in error has failed a check, for its effect raises none. -/
theorem checked_failed {cs : List (Bool × Err)} {body : State} (h : checked i cs s body = .next t)
    (herr : s.err = false) (hterr : t.err = true) (hi : ∀ rd, i ≠ .vld rd) (hrow : RowErrors i cs)
    (hbody : body.err = s.err) : Failed s i t := by
  obtain ⟨e, -, hc, rfl⟩ | ⟨-, rfl⟩ := checked_cases h
  · exact .check e (hrow.code_mem hc) fun rd hrd => absurd hrd (hi rd)
  · cases (hbody.trans herr).symm.trans hterr

/-- `VLD` in error: a check of R140, or its chunk (R146). -/
theorem execVld_failed {rd : DescNum} (h : execVld rd s = .next t) (herr : s.err = false) (hterr : t.err = true) :
    Failed s (.vld rd) t := by
  obtain ⟨e, hc, rfl⟩ | ⟨-, ⟨e, hstop, rfl⟩ | ⟨-, -, rfl⟩ | ⟨-, -, rfl⟩⟩ := execVld_cases h
  · have hcode := vldChecks_code hc
    refine .check e ?_ fun _ _ => hcode
    obtain hcode | hcode := hcode <;> simp [hcode, mayRaise]
  · exact .chunk rd rfl e ((vldChunk_stop_cases hstop).imp_right (.imp_right And.left))
  · exact .chunk rd rfl _ (.inr (.inl rfl))
  · cases ((vldStore_err _ _ _).trans herr).symm.trans hterr

/-- Every command that ends in error has failed a check, or is a `VLD` whose chunk is in error. `HSYNC` shares the checks
of R172, but its destination is in `DM`, so its overlap check passes and `ERR_OVERLAP` is not in its row. -/
theorem exec_failed (h : exec i s = .next t) (herr : s.err = false) (hterr : t.err = true) : Failed s i t := by
  cases i with
  | nop | deq | lutb =>
    obtain rfl := Host.Outcome.next.inj h
    cases herr.symm.trans hterr
  | qnt | lutr => exact checked_failed h herr hterr nofun (by simp [RowErrors, errCode, mayRaise]) rfl
  | qntb rd | div4 rd =>
    exact checked_failed h herr hterr nofun (by simp [RowErrors, bandChecks, errCode, mayRaise]) rfl
  | shl2 rd =>
    exact checked_failed h herr hterr nofun (by simp [RowErrors, bandChecks, errCode, mayRaise])
      (storeAll_err _ _)
  | lpld rd =>
    exact checked_failed h herr hterr nofun (by simp [RowErrors, lpldChecks, errCode, mayRaise])
      (lpldDuplicate_flags _ _).2.2
  | vld rd => exact execVld_failed h herr hterr
  | vsyn rd ra rb | hsyn rd ra rb =>
    exact checked_failed h herr hterr nofun (by simp [RowErrors, synChecks, errCode, mayRaise])
      (storeAll_err _ _)
  | hsync rd ra rb =>
    exact checked_failed h herr hterr nofun (by simp [RowErrors, synChecks, errCode, mayRaise]) rfl
  | vana rd ra rb | hana rd ra rb =>
    exact checked_failed h herr hterr nofun (by simp [RowErrors, anaChecks, errCode, mayRaise])
      (storeAll_err _ _)

end Failing

/-! ## The image memory (R60, R217) -/

@[simp] theorem vldStore_dm (s : State) (k : Desc) (p : VldParse) : (vldStore s k p).dm = s.dm := by
  rw [vldStore_eq]

/-- Only `HSYNC` writes `DM`. -/
theorem Wrote.dm_eq {i : Instr} {s u : State} (h : Wrote s i u) (hi : ∀ rd ra rb, i ≠ .hsync rd ra rb) :
    u.dm = s.dm := by
  cases h with
  | image hsync =>
    obtain ⟨rd, ra, rb, hsync⟩ := hsync
    exact absurd hsync (hi rd ra rb)
  | _ => rfl

/-- No command that ends in error writes `DM` (R235). -/
theorem Failed.dm_eq {i : Instr} {s t : State} (h : Failed s i t) : t.dm = s.dm := by
  cases h with
  | check => rfl
  | chunk => exact vldStore_dm _ _ _

/-- Settles O11: of all that a command can have written when it ends only the image is in `DM`, and a command that ends
in error has written no image. -/
theorem imageWrittenOnlyBySuccessfulHsync : Obligations.ImageWrittenOnlyBySuccessfulHsync := by
  intro i s t h
  refine ⟨fun hi => ?_, fun herr hterr => (exec_failed h herr hterr).dm_eq⟩
  obtain ⟨u, hw, rfl | ⟨e, -, rfl⟩⟩ := exec_ends h
  · exact hw.dm_eq hi
  · exact hw.dm_eq hi

/-! ## What a command in error leaves (R232, R235) -/

/-- Bits that were read one after another from bit `b` on stand there. -/
theorem bitsAt_of_eq_map_range {bit : Nat → Nat} {b : Nat} {l : List Nat}
    (h : l = (List.range l.length).map fun i => bit (b + i)) : BitsAt bit b l := fun i hi => by
  have hget := congrArg (·.getD i 0) h
  simpa [hi] using hget.symm

/-- The pairs of a chunk, whatever the decode table: none is an escape, and their codewords begin the chunk, inside the
window (R97, R146). -/
theorem vldChunk_pairs_begin (s : State) (k : Desc) :
    (∀ e ∈ (vldChunk s k).pairs, e.esc = false) ∧ ChunkBegins s (vldChunk s k).pairs ∧
      (codewordBits (vldChunk s k).pairs).length ≤ vldAvail s := by
  obtain ⟨-, hesc⟩ := vldParse_fits (vldNext s) (capacity s k) (vldAvail s + 1) 0 0 (Nat.zero_le _)
  obtain ⟨hmem, hlen, hbits⟩ := vldParse_reads (T := codebook s) (avail := vldAvail s) (maxLen := s.cfg.cbMaxLen)
    (cap := capacity s k) (bsBit_lt s s.bspos.toNat) (vldAvail s + 1) 0 0 (Nat.zero_le _)
  rw [Nat.zero_add] at hlen
  refine ⟨hesc, ⟨hmem, fun b hb => ?_⟩, hlen⟩
  have hbit := bitsAt_of_eq_map_range hbits b hb
  rwa [Nat.zero_add] at hbit

/-- An error of a command is in its row of R232. -/
theorem Failed.errcode_mem {i : Instr} {s t : State} (h : Failed s i t) : t.errcode.toNat ∈ mayRaise i := by
  cases h with
  | check e he => exact he
  | chunk rd hi e he =>
    subst hi
    obtain rfl | rfl | rfl := he <;> simp [errCode, mayRaise]

/-- Settles O12: a failed check leaves the state at acceptance, and a chunk in error its pairs stored and counted; the
codes 2 and 9 tell the two apart. -/
theorem commandErrorsAsRuled : Obligations.CommandErrorsAsRuled := by
  intro i s t herr h hterr
  have hfailed := exec_failed h herr hterr
  refine ⟨hfailed.errcode_mem, ?_⟩
  cases hfailed with
  | check e _ hvld =>
    refine ⟨fun _ => rfl, fun rd hi h2 h9 => ?_⟩
    obtain hcode | hcode := hvld rd hi
    · exact absurd hcode h2
    · exact absurd hcode h9
  | chunk rd hi e he =>
    subst hi
    refine ⟨fun hcodes => ?_, fun rd' hi _ _ => ?_⟩
    · have hcode := hcodes rd rfl
      obtain rfl | rfl | rfl := he <;> simp [errCode] at hcode
    · cases hi
      obtain ⟨t, ht, hframe, hstored⟩ := vld_error_leaves h rfl
      obtain rfl := Host.Outcome.next.inj (h.symm.trans ht)
      obtain ⟨hesc, hbegins, havail⟩ := vldChunk_pairs_begin s (desc s rd)
      exact ⟨_, hesc, hbegins, havail, hstored, hframe⟩

end Sys2Proof.Machine

namespace Sys2Proof.Machine

/-! ## Every command ends (R197, R236, R275) -/

/-- A checked command ends, whether its checks pass or not. -/
theorem checked_total (i : Instr) (cs : List (Bool × Err)) (s body : State) :
    ∃ t, checked i cs s body = .next t := by
  cases hc : firstError cs with
  | none => exact ⟨_, checked_pass hc⟩
  | some e => exact ⟨_, checked_fail hc⟩

/-- `VLD` ends: in an error of its checks or of its chunk, or in completion. -/
theorem execVld_total (rd : DescNum) (s : State) : ∃ t, execVld rd s = .next t := by
  unfold execVld
  split
  · exact ⟨_, rfl⟩
  · dsimp only
    split
    · exact ⟨_, rfl⟩
    · split
      · exact ⟨_, rfl⟩
      · exact ⟨_, rfl⟩

/-- No command ends in a fault or a refusal. -/
theorem exec_total (i : Instr) (s : State) : ∃ t, exec i s = .next t := by
  cases i with
  | nop | deq | lutb => exact ⟨_, rfl⟩
  | vld rd => exact execVld_total rd s
  | _ => exact checked_total _ _ _ _

/-- Settles O9: what a command has written leaves `DONE` and the error alone, and then it completes or raises. -/
theorem everyCommandEnds : Obligations.EveryCommandEnds := by
  intro i s
  obtain ⟨t, ht⟩ := exec_total i s
  obtain ⟨u, hw, hend⟩ := exec_ends ht
  obtain ⟨-, hdone, herr, hcode, hinfo⟩ := hw.runs_on
  refine ⟨t, ht, ?_⟩
  obtain rfl | ⟨e, -, rfl⟩ := hend
  · exact ⟨rfl, .inl ⟨rfl, herr, hcode, hinfo⟩⟩
  · exact ⟨rfl, .inr ⟨rfl, hdone, rfl⟩⟩

/-! ## A reset of the idle block (R260, R262) -/

/-- A write to `CTRL` with `SRST` is a reset, whatever its other bits (R26). -/
theorem writeCtrl_srst {v : Word} (hv : v.getLsbD 0 = true) (s : State) : writeCtrl s v = resetRegisters s := if_pos hv

/-- With `BUSY = 0` both resets do the same (R260, R262). -/
theorem hostIdle_of_isReset {e : HostEvent} (he : isReset e = true) (s : State) :
    hostIdle e s = .next (resetRegisters s) := by
  cases e with
  | hardReset => rfl
  | regWrite bytes off v =>
    simp only [isReset, Bool.and_eq_true, decide_eq_true_eq] at he
    obtain ⟨⟨rfl, rfl⟩, hv⟩ := he
    exact congrArg _ ((hostWrite_of_regOf (r := .ctrl) rfl s v).trans (writeCtrl_srst hv s))
  | _ => cases he

/-- Settles O16: either reset is `resetRegisters` after the host's action is taken. -/
theorem idleResetClearsRegisters : Obligations.IdleResetClearsRegisters := by
  intro s rest e hr hi he
  exact ⟨resetRegisters { s with input := rest }, (step_hostIdle hr hi).trans (hostIdle_of_isReset he _),
    getReg_resetRegisters _, rfl, rfl, rfl, rfl, rfl, rfl, rfl, rfl, rfl, rfl⟩

/-! ## A reset of the running block (R261) -/

/-- A hard reset of a running command abandons it on the way to the state it would have ended in. -/
theorem hostBusy_hardReset {w : Word} {s t : State} (h : runCommand w s = .next t) :
    hostBusy w .hardReset s = .next (abandon w s t) := by simp [hostBusy, h]

/-- The memories, the `LUT` and the free values drawn are in no register. -/
theorem getReg_memories (s : State) (cm dm lut : Memory 16) (n : Nat) (r : Reg) :
    getReg { s with cm := cm, dm := dm, lut := lut, free := n } r = getReg s r := by cases r <;> rfl

theorem getReg_abandon (w : Word) (s t : State) (r : Reg) : getReg (abandon w s t) r = 0 :=
  (getReg_memories _ _ _ _ _ r).trans (getReg_resetRegisters s r)

/-- A word of a mixed memory, unwritten words included, is that of before or that of after. -/
theorem getD_mixMemory (before : Memory 16) (written : Nat → Bool) (after : Memory 16) (a : Nat) (x : Half) :
    (memGet? (mixMemory before written after) a).getD x = (memGet? before a).getD x ∨
      (memGet? (mixMemory before written after) a).getD x = (memGet? after a).getD x := by
  rw [memGet?_mixMemory]
  split
  · exact .inr rfl
  · split
    case isTrue hnone => exact .inr (by rw [hnone])
    case isFalse => exact .inl rfl

theorem cmWord_abandon (w : Word) (s t : State) (a : Nat) :
    cmWord (abandon w s t) a = cmWord s a ∨ cmWord (abandon w s t) a = cmWord t a := getD_mixMemory _ _ _ _ _

theorem dmWord_abandon (w : Word) (s t : State) (a : Nat) :
    dmWord (abandon w s t) a = dmWord s a ∨ dmWord (abandon w s t) a = dmWord t a := getD_mixMemory _ _ _ _ _

/-- Only an abandoned `LUTB` loses the `LUT`. -/
theorem abandon_lut {w : Word} {i : Instr} (hd : decode w = .ok i) (hi : i ≠ .lutb) (s t : State) :
    (abandon w s t).lut = s.lut := by
  refine if_neg ?_
  rintro rfl
  exact hi (Except.ok.inj (hd.symm.trans (decode_encode .lutb)))

/-- Settles O17: the command ends, so the reset abandons it between the state before and the state at its end. -/
theorem hardResetAbandonsCommand : Obligations.HardResetAbandonsCommand := by
  intro s w i rest hr hd hi
  obtain ⟨u, hu⟩ := exec_total i { s with input := rest }
  have hstep : step s = .next (abandon w { s with input := rest } u) :=
    (step_hostBusy hr hi nofun).trans (hostBusy_hardReset ((runCommand_of_decode hd _).trans hu))
  exact ⟨_, u, hstep, hu, getReg_abandon w _ u, rfl, cmWord_abandon w _ u, dmWord_abandon w _ u, rfl, rfl,
    fun hne => abandon_lut hd hne _ u, rfl⟩

/-! ## The first command after reset (R263) -/

/-- A field of `n` bits that reads 0 is 0. -/
theorem toNat_eq_zero_of_setWidth {n : Nat} (hn : n ≤ 32) {x : BitVec n} (h : x.setWidth 32 = 0) : x.toNat = 0 :=
  (BitVec.toNat_setWidth_of_le hn).symm.trans (congrArg BitVec.toNat h)

/-- A descriptor whose fields read 0 is not valid: its width is 0 (R24). -/
theorem dimsOk_of_cleared {s : State} {k : DescNum} (h : ∀ f, getReg s (.field k f) = 0) :
    dimsOk (desc s k) = false := by
  have hwidth : widthOf (desc s k) = 0 := toNat_eq_zero_of_setWidth (by decide) (h .width)
  simp [dimsOk, hwidth]

/-- With `BPC` reading 0 the bit depth is neither 10 nor 12 (R33, R167). -/
theorem not_depthLegal_of_cleared {s : State} (h : getReg s .bpc = 0) : ¬DepthLegal s := by
  have hbpc : s.bpc.toNat = 0 := toNat_eq_zero_of_setWidth (by decide) h
  simp [DepthLegal, ← BitVec.toNat_inj, hbpc]

/-- A command that answers an error raised from the state at acceptance touches no memory (R235). -/
theorem untouched_of_raises {x : Result} {s : State} {e : Err} {w : Word} (h : x = .next (raiseError e w s)) :
    ∃ t, x = .next t ∧ t.cm = s.cm ∧ t.dm = s.dm ∧ t.bs = s.bs ∧ t.err = true ∧ t.errcode = errCode e :=
  ⟨_, h, rfl, rfl, rfl, rfl, rfl⟩

/-- Settles O18: the three without a check complete; every other command fails its first check, that of `QUANT`, `LUTV`
or the bit depth where it has one, and else that of its descriptors. -/
theorem firstCommandsAfterReset : Obligations.FirstCommandsAfterReset := by
  intro i s hzero hlutv herr
  have hquant : s.quant = 0 := hzero .quant nofun
  have hdepth : ¬DepthLegal s := not_depthLegal_of_cleared (hzero .bpc nofun)
  have hinvalid (k : DescNum) : dimsOk (desc s k) = false := dimsOk_of_cleared fun f => hzero (.field k f) nofun
  have hdims {k : DescNum} {p : Prop} : ¬(dimsOk (desc s k) = true ∧ p) :=
    fun ⟨h, _⟩ => nomatch (hinvalid k).symm.trans h
  cases i with
  | nop | lutb => exact ⟨_, rfl, rfl, rfl, rfl, rfl, herr⟩
  | deq =>
    refine ⟨_, rfl, rfl, rfl, rfl, rfl, herr, ?_⟩
    rw [complete_res, writeRes_res, hquant]
    exact congrArg wrap32 (deq_quant_zero _)
  | qnt | qntb _ => exact untouched_of_raises (checked_fail (firstError_quant_fail hquant _))
  | lutr => exact untouched_of_raises (e := .lutInv) (checked_fail (by rw [firstError_cons, hlutv]; rfl))
  | hsync _ _ _ => exact untouched_of_raises (checked_fail (firstError_depth_fail hdepth _))
  | shl2 rd | div4 rd => exact untouched_of_raises (checked_fail (bandChecks_dims (hinvalid rd)))
  | lpld rd => exact untouched_of_raises (checked_fail (lpldChecks_dims (.inl (hinvalid rd))))
  | vld rd => exact untouched_of_raises (execVld_check (vldChecks_dims (hinvalid rd)))
  | vsyn _ _ _ | hsyn _ _ _ =>
    exact untouched_of_raises (checked_fail ((firstError_synChecks true).trans (if_neg hdims)))
  | vana _ _ _ | hana _ _ _ => exact untouched_of_raises (checked_fail (firstError_anaChecks.trans (if_neg hdims)))

end Sys2Proof.Machine
